-- ==== Sys2Proof/Word.lean ====
section
/-! DEFINITION. The widths of the machine: words, bytes and register fields. -/

namespace Sys2Proof

/-- A byte of memory. -/
abbrev Byte := BitVec 8

/-- A 32-bit register, address or instruction word (00_scope.md R2). -/
abbrev Word := BitVec 32

/-- A floating-point register (10_state.md R36). -/
abbrev DWord := BitVec 64

/-- A 5-bit register number as an instruction carries it. -/
abbrev Reg := BitVec 5

end Sys2Proof
end

