-- ==== Sys2Proof/Config.lean ====
section
/-! DEFINITION. What an implementation fixes: the parameters of 00_scope.md section 4 that are plain data (the
record `Params`, which State carries unchanged, notes/assumptions/1.md), the parameters that are functions
(uninterpreted constants) and the free values (the spec's `draw`, uninterpreted constants too). -/

namespace Sys2Proof

/-- A set of instruction words, given as the spec's opcode table gives one: the words `w` with `w AND mask = value`. -/
structure WordPattern where
  mask : Word
  value : Word
deriving DecidableEq, Repr

/-- The alignment conditions A1 to A5 of 20_memory.md R43 to R46, and A0 of R50. -/
inductive AlignCause where
  /-- A misaligned access that meets none of A1 to A5 (R50). -/
  | a0
  /-- The operand of a floating-point load or store is not word-aligned (R43). -/
  | a1
  /-- The operand of `lmw`, `stmw`, `lwarx`, `stwcx.`, `eciwx` or `ecowx` is not aligned (R44). -/
  | a2
  /-- A multiple or string instruction in little-endian mode (R45). -/
  | a3
  /-- The operand of an elementary or string load or store crosses a protection boundary (R46). -/
  | a4
  /-- The operand of `lmw` or `stmw` crosses a segment or BAT boundary (R46). -/
  | a5
deriving DecidableEq, Repr

/-- What an implementation does under an alignment condition: `P_ALIGN(c)` (20_memory.md R50). -/
inductive AlignPolicy where
  /-- Take the alignment exception. -/
  | trap
  /-- Perform the access correctly. -/
  | perform
  /-- Either of the two, each time a free value decides. -/
  | either
deriving DecidableEq, Repr

/-- `P_ALIGN`, one policy for each condition (20_memory.md R50). -/
structure AlignPolicies where
  a0 : AlignPolicy
  a1 : AlignPolicy
  a2 : AlignPolicy
  a3 : AlignPolicy
  a4 : AlignPolicy
  a5 : AlignPolicy
deriving DecidableEq, Repr

/-- Which of alignment and DSI an access reports when both apply: `P_ALIGN_BEFORE_DSI` (60_exceptions.md R172). -/
inductive AccessOrder where
  | alignmentFirst
  | dsiFirst
  /-- Either of the two, each time a free value decides. -/
  | free
deriving DecidableEq, Repr

/-- A member of `P_IMPL_VECTORS`: an implementation-specific exception type (60_exceptions.md R144, R150), its vector
offset `page` times 0x100 (20_memory.md R51), and the words whose execution may raise it, each time by a free value
(notes/assumptions/25.md). -/
structure ImplVector where
  page : BitVec 6
  words : List WordPattern
deriving DecidableEq, Repr

/-- The offset is one that the spec leaves to implementations: 0x00A00, or 0x01000 to 0x02FFF (60_exceptions.md R144,
R150). -/
def ImplVector.atImplementationOffset (v : ImplVector) : Bool :=
  v.page == 0x0A || decide (0x10 ≤ v.page.toNat ∧ v.page.toNat ≤ 0x2F)

/-- The plain-data parameters of 00_scope.md section 4. -/
structure Params where
  /-- `P_TRACE`. -/
  trace : Bool
  /-- `P_TRACE_EXEMPT`: the words whose completion raises no single-step trace. -/
  traceExempt : List WordPattern
  /-- `P_FPASSIST`. -/
  fpAssist : Bool
  /-- `P_POW`. -/
  pow : Bool
  /-- `P_SRR1_EXTRA_MASK`; only its bits within 0x87C0008C count. -/
  srr1ExtraMask : Word
  /-- `P_SRR_VOLATILE`. -/
  srrVolatile : Bool
  /-- `P_ALIGN`. -/
  align : AlignPolicies
  /-- `P_ALIGN_BEFORE_DSI`. -/
  accessOrder : AccessOrder
  /-- `P_OPTIONAL_ABSENT`: optional words the implementation does not provide (illegal). -/
  optionalAbsent : List WordPattern
  /-- `P_OPTIONAL_NOP`: optional words treated as no-ops. -/
  optionalNop : List WordPattern
  /-- `IsIllegal` (30_encoding.md R68): the words known to be illegal. -/
  illegal : List WordPattern
  /-- `IsPrivileged` (41_spr_and_msr_access.md R90) for words outside the opcode table. -/
  privileged : List WordPattern
  /-- `ReadableSPR` (30_encoding.md R71, 41 R92, 93_implementation_defined.md U18): the special-purpose register numbers
  `mfspr` may read, as ranges (first, count). -/
  readableSprs : List (Nat × Nat)
  /-- `WritableSPR` (30_encoding.md R71, 41 R91, 93_implementation_defined.md U18): those `mtspr` may write. -/
  writableSprs : List (Nat × Nat)
  /-- `P_MC_CLEARS_ME`. -/
  mcClearsMe : Bool
  /-- `P_IMPL_VECTORS`; only its members at an implementation's offset count. -/
  implVectors : List ImplVector
  /-- `P_RESET_MSR` (10_state.md R38). -/
  resetMsr : Word
  /-- `P_RESET_PC` (10_state.md R38). -/
  resetPc : Word
  /-- The complement of the set of valid physical addresses (20_memory.md R48): regions (base, size) where nothing is. -/
  absent : List (Nat × Nat)
deriving DecidableEq, Repr

/-- The numbers of 10_state.md R39, but for TBL, TBU and PVR. -/
def sprNumbers : List (Nat × Nat) := [(1, 1), (8, 2), (18, 2), (22, 1), (25, 3), (272, 4), (282, 1), (528, 16)]

/-- The defaults of 00_scope.md section 4; `IsIllegal` has its one known member, the all-zero word (30_encoding.md
R68); the sets the spec leaves open are empty (notes/assumptions/1.md). The readable
registers are those of 10_state.md R39 but TBL and TBU, the writable ones those but PVR (41 R91; notes/assumptions/29.md). -/
def Params.default : Params where
  trace := false
  traceExempt := [⟨0xFFFFFFFF, 0x4C000064⟩, ⟨0xFFFFFFFF, 0x44000002⟩]
  fpAssist := false
  pow := false
  srr1ExtraMask := 0
  srrVolatile := true
  align := ⟨.either, .either, .either, .either, .either, .either⟩
  accessOrder := .free
  optionalAbsent := []
  optionalNop := []
  illegal := [⟨0xFFFFFFFF, 0x00000000⟩]
  privileged := []
  readableSprs := (287, 1) :: sprNumbers
  writableSprs := (284, 2) :: sprNumbers
  mcClearsMe := true
  implVectors := []
  resetMsr := 0x00000040
  resetPc := 0xFFF00100
  absent := []

/-- What an access is for (20_memory.md R49). -/
inductive AccessKind where
  | fetch
  | load
  | store
deriving DecidableEq, Repr

/-- What `Translate` answers (20_memory.md R49): a physical address, or a failure with the cause bits an ISI reports
in SRR1 (60_exceptions.md R182). -/
inductive Translation where
  | mapped (pa : Word)
  | fails (cause : Word)
deriving DecidableEq, Repr, Inhabited

/-- What a floating-point instruction outside the opcode table may read: the parameter `Exec`'s view of the machine
(44_floating_point_class.md R120). `operand` holds the bytes of a load's operand, the most significant first. -/
structure FpView where
  gpr : Vector Word 32
  fpr : Vector DWord 32
  cr : Word
  fpscr : Word
  operand : List Byte
deriving DecidableEq, Repr

/-- What `Exec` reports of such an instruction. `operand` holds the bytes a store writes, the most significant first; `assist`
says that the implementation asks for the floating-point assist exception (60_exceptions.md R148). -/
structure FpEffect where
  gpr : Vector Word 32
  fpr : Vector DWord 32
  cr : Word
  fpscr : Word
  operand : Vector Byte 8
  assist : Bool
deriving DecidableEq, Repr

/-- What a branch instruction may read (44_floating_point_class.md R127). -/
structure BranchView where
  cia : Word
  cr : Word
  lr : Word
  ctr : Word
deriving DecidableEq, Repr

/-- What `Exec` supplies for a branch: target and link behaviour (44_floating_point_class.md R127). -/
structure BranchEffect where
  target : Word
  lr : Word
  ctr : Word
deriving DecidableEq, Repr

namespace Config

/-- FREE VALUE: the n-th `draw` of a 32-bit word (00_scope.md R4; notes/assumptions/4.md). -/
opaque freeWord : Nat → Word

/-- FREE VALUE: the n-th `draw` of one bit (00_scope.md R4; notes/assumptions/4.md). -/
opaque freeBool : Nat → Bool

/-- PARAMETER `Translate(kind, ea, msr)` with the enable bit set, under no law (20_memory.md R49). -/
opaque translate : AccessKind → Word → Word → Translation

/-- PARAMETER `CrossesProtectionBoundary(ea, n, msr)` with MSR[DR] = 1 (20_memory.md R46). -/
opaque crossesProtectionBoundary : Word → Nat → Word → Bool

/-- PARAMETER `CrossesSegmentOrBatBoundary(ea, n, msr)` with MSR[DR] = 1 (20_memory.md R46). -/
opaque crossesSegmentOrBatBoundary : Word → Nat → Word → Bool

/-- PARAMETER `Exec` for the floating-point class outside the opcode table (44_floating_point_class.md R120);
`none` for a word outside `Exec`. -/
opaque execFloating : Word → FpView → Option FpEffect

/-- PARAMETER `Exec` for the branch class (44_floating_point_class.md R127); `none` for a word outside `Exec`. -/
opaque execBranch : Word → BranchView → Option BranchEffect

end Config

end Sys2Proof
end

