-- ==== Sys2Proof/Syntax.lean ====
section
/-! DEFINITION. The instructions: one constructor for each row of spec/opcode_table.json (30_encoding.md section 3).
Operand fields keep the widths of the encoding (30_encoding.md R62 to R67). -/

namespace Sys2Proof

inductive Instr where
  /-- `twi TO,rA,SIMM` (R81); `cond` is TO. -/
  | twi (cond : BitVec 5) (ra : Reg) (simm : BitVec 16)
  /-- `sc` (R80). -/
  | sc
  /-- `rfi` (R83). -/
  | rfi
  /-- `tw TO,rA,rB` (R82). -/
  | tw (cond : BitVec 5) (ra rb : Reg)
  /-- `lwarx rD,rA,rB` (R110). -/
  | lwarx (rd ra rb : Reg)
  /-- `mfmsr rD` (R94). -/
  | mfmsr (rd : Reg)
  /-- `mtmsr rS` (R93). -/
  | mtmsr (rs : Reg)
  /-- `stwcx. rS,rA,rB` (R111). -/
  | stwcx (rs ra rb : Reg)
  /-- `eciwx rD,rA,rB` (R112). -/
  | eciwx (rd ra rb : Reg)
  /-- `mfspr rD,SPR` (R92); `spr` is the register number n, its halves already put in order (R66). -/
  | mfspr (rd : Reg) (spr : BitVec 10)
  /-- `ecowx rS,rA,rB` (R113). -/
  | ecowx (rs ra rb : Reg)
  /-- `mtspr SPR,rS` (R91); `spr` as for `mfspr`. -/
  | mtspr (spr : BitVec 10) (rs : Reg)
  /-- `lswx rD,rA,rB` (R104). -/
  | lswx (rd ra rb : Reg)
  /-- `lswi rD,rA,NB` (R103). -/
  | lswi (rd ra : Reg) (nb : BitVec 5)
  /-- `stswx rS,rA,rB` (R106). -/
  | stswx (rs ra rb : Reg)
  /-- `stswi rS,rA,NB` (R105). -/
  | stswi (rs ra : Reg) (nb : BitVec 5)
  /-- `lmw rD,d(rA)` (R101). -/
  | lmw (rd ra : Reg) (d : BitVec 16)
  /-- `stmw rS,d(rA)` (R102). -/
  | stmw (rs ra : Reg) (d : BitVec 16)
  /-- `mtfsb1 crbD`, `mtfsb1.` with `rc` (R126). -/
  | mtfsb1 (crbd : BitVec 5) (rc : Bool)
  /-- `mtfsb0 crbD`, `mtfsb0.` with `rc` (R125). -/
  | mtfsb0 (crbd : BitVec 5) (rc : Bool)
  /-- `mtfsfi crfD,IMM`, `mtfsfi.` with `rc` (R124). -/
  | mtfsfi (crfd : BitVec 3) (imm : BitVec 4) (rc : Bool)
  /-- `mtfsf FM,frB`, `mtfsf.` with `rc` (R123). -/
  | mtfsf (fm : BitVec 8) (frb : Reg) (rc : Bool)
deriving DecidableEq, Repr

end Sys2Proof
end

