-- ==== Sys2Proof/WellFormed.lean ====
section
/-! DEFINITION. The valid forms of the instructions, as far as the instruction word alone decides it. A form that is
not valid still decodes; its meaning refuses it by name (42_load_store_multiple_and_string.md R101, R103, R104). -/

namespace Sys2Proof

/-- How many bytes `lswi` and `stswi` move: NB, where 0 means 32 (30_encoding.md R67). -/
def Instr.immediateCount (nb : BitVec 5) : Nat := if nb = 0 then 32 else nb.toNat

/-- Register `r` is among the registers that a string load of `n` bytes starting at `rd` loads, the register
numbers wrapping from 31 to 0 (42 R103). -/
def Instr.inStringRange (rd r : Reg) (n : Nat) : Bool := decide ((r - rd).toNat < (n + 3) / 4)

/-- The forms the spec calls invalid are not well formed: `lmw` with rA among the loaded registers (R101), `lswi`
with rA among the loaded registers (R103), `lswx` with rD = rA or rD = rB (R104; the rest of that rule depends on the
XER and is checked when the instruction runs). -/
def Instr.wellFormed : Instr → Bool
  | .lmw rd ra _ => decide (ra.toNat < rd.toNat)
  | .lswi rd ra nb => !inStringRange rd ra (immediateCount nb)
  | .lswx rd ra rb => decide (rd ≠ ra ∧ rd ≠ rb)
  | .twi .. | .sc | .rfi | .tw .. | .lwarx .. | .mfmsr _ | .mtmsr _ | .stwcx .. | .eciwx .. | .mfspr .. | .ecowx ..
  | .mtspr .. | .stswx .. | .stswi .. | .stmw .. | .mtfsb1 .. | .mtfsb0 .. | .mtfsfi .. | .mtfsf .. => true

end Sys2Proof
end

