-- ==== Sys2Proof/Decode.lean ====
section
/-! DEFINITION. Decoding, total on any bytes and rejecting by name, then the encoder, both from the encoding tables
of 30_encoding.md (R60 to R69), and the classes of words the spec names without rows (44 R120, R127). -/

namespace Sys2Proof

/-- The `n` bits of a word that start at bit `b`, bit 0 being the most significant (00_scope.md R4). -/
def field (w : Word) (b n : Nat) : BitVec n := w.extractLsb' (32 - b - n) n

/-- The primary opcode, bits 0-5 (30_encoding.md R61). -/
def opcd (w : Word) : BitVec 6 := field w 0 6

/-- The extended opcode, bits 21-30 (30_encoding.md R61). -/
def extOpcd (w : Word) : BitVec 10 := field w 21 10

/-- Instruction bit 31 (Rc), the least significant. -/
def rcBit (w : Word) : Bool := w.getLsbD 0

/-- The SPR number of an XFX-form word: bits 16-20 above bits 11-15 (30_encoding.md R66). -/
def sprNumber (w : Word) : BitVec 10 := field w 16 5 ++ field w 11 5

/-- Why a word decodes to no instruction of the table. -/
inductive DecodeError where
  /-- Fewer than four bytes. -/
  | tooShort
  /-- The opcode and extended opcode select a row, and a reserved field is not as the row has it (R69). -/
  | reservedField (mnemonic : String)
  /-- The opcode, or opcode and extended opcode, select no row of the table (R61). -/
  | noRow
deriving DecidableEq, Repr

/-- A row whose reserved fields must be as its mask requires. -/
def decodeRow (ok : Bool) (mnemonic : String) (i : Instr) : Except DecodeError Instr :=
  if ok then .ok i else .error (.reservedField mnemonic)

/-- The rows with primary opcode 31 (30_encoding.md section 3). -/
def decode31 (w : Word) : Except DecodeError Instr :=
  let d := field w 6 5
  let a := field w 11 5
  let b := field w 16 5
  let rc := rcBit w
  let xo := extOpcd w
  if xo = 4 then decodeRow (!rc) "tw" (.tw d a b)
  else if xo = 20 then decodeRow (!rc) "lwarx" (.lwarx d a b)
  else if xo = 83 then decodeRow (a == 0 && b == 0 && !rc) "mfmsr" (.mfmsr d)
  else if xo = 146 then decodeRow (a == 0 && b == 0 && !rc) "mtmsr" (.mtmsr d)
  else if xo = 150 then decodeRow rc "stwcx." (.stwcx d a b)
  else if xo = 310 then decodeRow (!rc) "eciwx" (.eciwx d a b)
  else if xo = 339 then decodeRow (!rc) "mfspr" (.mfspr d (sprNumber w))
  else if xo = 438 then decodeRow (!rc) "ecowx" (.ecowx d a b)
  else if xo = 467 then decodeRow (!rc) "mtspr" (.mtspr (sprNumber w) d)
  else if xo = 533 then decodeRow (!rc) "lswx" (.lswx d a b)
  else if xo = 597 then decodeRow (!rc) "lswi" (.lswi d a b)
  else if xo = 661 then decodeRow (!rc) "stswx" (.stswx d a b)
  else if xo = 725 then decodeRow (!rc) "stswi" (.stswi d a b)
  else .error .noRow

/-- The rows with primary opcode 63 (30_encoding.md section 3). -/
def decode63 (w : Word) : Except DecodeError Instr :=
  let xo := extOpcd w
  if xo = 38 then decodeRow (field w 11 10 == 0) "mtfsb1" (.mtfsb1 (field w 6 5) (rcBit w))
  else if xo = 70 then decodeRow (field w 11 10 == 0) "mtfsb0" (.mtfsb0 (field w 6 5) (rcBit w))
  else if xo = 134 then
    decodeRow (field w 9 7 == 0 && field w 20 1 == 0) "mtfsfi" (.mtfsfi (field w 6 3) (field w 16 4) (rcBit w))
  else if xo = 711 then
    decodeRow (field w 6 1 == 0 && field w 15 1 == 0) "mtfsf" (.mtfsf (field w 7 8) (field w 16 5) (rcBit w))
  else .error .noRow

/-- The instruction a word stands for (30_encoding.md R61, section 3). -/
def decodeWord (w : Word) : Except DecodeError Instr :=
  let op := opcd w
  if op = 3 then .ok (.twi (field w 6 5) (field w 11 5) (field w 16 16))
  else if op = 17 then decodeRow (w == 0x44000002) "sc" .sc
  else if op = 19 then
    if extOpcd w = 50 then decodeRow (w == 0x4C000064) "rfi" .rfi else .error .noRow
  else if op = 31 then decode31 w
  else if op = 46 then .ok (.lmw (field w 6 5) (field w 11 5) (field w 16 16))
  else if op = 47 then .ok (.stmw (field w 6 5) (field w 11 5) (field w 16 16))
  else if op = 63 then decode63 w
  else .error .noRow

/-- The word four bytes in address order make: the first byte most significant, or least significant in
little-endian mode (20_memory.md R41). -/
def wordOfBytes (le : Bool) (bs : List Byte) : Word :=
  (if le then bs.reverse else bs).foldl (fun acc b => (acc <<< 8) ||| b.setWidth 32) 0

/-- The bytes of a word in address order (20_memory.md R41). -/
def bytesOfWord (le : Bool) (w : Word) : List Byte :=
  let be := [w.extractLsb' 24 8, w.extractLsb' 16 8, w.extractLsb' 8 8, w.extractLsb' 0 8]
  if le then be.reverse else be

/-- Decoding from bytes in address order, in the byte order of MSR[LE] (30_encoding.md R60); the rest of the bytes
comes back with the instruction. -/
def decodeBytes (le : Bool) : List Byte → Except DecodeError (Instr × List Byte)
  | b0 :: b1 :: b2 :: b3 :: rest =>
    match decodeWord (wordOfBytes le [b0, b1, b2, b3]) with
    | .ok i => .ok (i, rest)
    | .error e => .error e
  | _ => .error .tooShort

/-- The instruction the decoder reads from the `nbits` table bits `w` of a row, the bits above them zero, laid out
as the hardware stores a word in big-endian mode. -/
def decodeTableWord (nbits w : Nat) : Option Instr :=
  match decodeBytes false (bytesOfWord false (BitVec.ofNat 32 (w % 2 ^ nbits))) with
  | .ok (i, _) => some i
  | .error _ => none

/-- D-form (30_encoding.md R62). -/
def encodeD (op : BitVec 6) (d a : BitVec 5) (imm : BitVec 16) : Word := op ++ d ++ a ++ imm

/-- X-form (30_encoding.md R63). -/
def encodeX (op : BitVec 6) (d a b : BitVec 5) (xo : BitVec 10) (rc : Bool) : Word :=
  op ++ d ++ a ++ b ++ xo ++ BitVec.ofBool rc

/-- The word of an instruction (30_encoding.md R62 to R67, section 3). -/
def encode : Instr → Word
  | .twi cond ra simm => encodeD 3 cond ra simm
  | .sc => 0x44000002
  | .rfi => 0x4C000064
  | .tw cond ra rb => encodeX 31 cond ra rb 4 false
  | .lwarx rd ra rb => encodeX 31 rd ra rb 20 false
  | .mfmsr rd => encodeX 31 rd 0 0 83 false
  | .mtmsr rs => encodeX 31 rs 0 0 146 false
  | .stwcx rs ra rb => encodeX 31 rs ra rb 150 true
  | .eciwx rd ra rb => encodeX 31 rd ra rb 310 false
  | .mfspr rd spr => encodeX 31 rd (spr.extractLsb' 0 5) (spr.extractLsb' 5 5) 339 false
  | .ecowx rs ra rb => encodeX 31 rs ra rb 438 false
  | .mtspr spr rs => encodeX 31 rs (spr.extractLsb' 0 5) (spr.extractLsb' 5 5) 467 false
  | .lswx rd ra rb => encodeX 31 rd ra rb 533 false
  | .lswi rd ra nb => encodeX 31 rd ra nb 597 false
  | .stswx rs ra rb => encodeX 31 rs ra rb 661 false
  | .stswi rs ra nb => encodeX 31 rs ra nb 725 false
  | .lmw rd ra d => encodeD 46 rd ra d
  | .stmw rs ra d => encodeD 47 rs ra d
  | .mtfsb1 crbd rc => encodeX 63 crbd 0 0 38 rc
  | .mtfsb0 crbd rc => encodeX 63 crbd 0 0 70 rc
  | .mtfsfi crfd imm rc => encodeX 63 (crfd ++ (0 : BitVec 2)) 0 (imm ++ (0 : BitVec 1)) 134 rc
  | .mtfsf fm frb rc =>
    (63 : BitVec 6) ++ (0 : BitVec 1) ++ fm ++ (0 : BitVec 1) ++ frb ++ (711 : BitVec 10) ++ BitVec.ofBool rc

/-- The words of a pattern list. -/
def wordIn (ps : List WordPattern) (w : Word) : Bool := ps.any fun p => w &&& p.mask == p.value

/-- `IsBranch`: primary opcode 18 or 16, or 19 with extended opcode 16 or 528 (44_floating_point_class.md R127). -/
def isBranch (w : Word) : Bool :=
  opcd w == 18 || opcd w == 16 || (opcd w == 19 && (extOpcd w == 16 || extOpcd w == 528))

/-- The X-form floating-point loads and stores of primary opcode 31 (44_floating_point_class.md R120). -/
def isIndexedFpAccess (w : Word) : Bool :=
  opcd w == 31 && [535, 567, 599, 631, 663, 695, 727, 759, 983].contains (extOpcd w)

/-- The D-form floating-point loads and stores, primary opcodes 48 to 55 (44_floating_point_class.md R120). -/
def isDisplacedFpAccess (w : Word) : Bool := decide (48 ≤ (opcd w).toNat ∧ (opcd w).toNat ≤ 55)

/-- `IsFloatingPoint` (44_floating_point_class.md R120). -/
def isFloatingPoint (w : Word) : Bool :=
  isDisplacedFpAccess w || opcd w == 59 || opcd w == 63 || isIndexedFpAccess w

end Sys2Proof
end

