-- ==== Sys2Proof/Machine/State.lean ====
section
/-! DEFINITION. The machine's state as plain data (10_state.md), the reasons a step can stop, and the state after
reset. Everything is architectural state of the spec except `params`, `inputs` and `draws`, which are the model's. -/

namespace Sys2Proof.Machine

/-- The twelve exception types (60_exceptions.md R130), and those an implementation adds (R144, R150). -/
inductive ExcType where
  | systemReset
  | machineCheck
  | dsi
  | isi
  | external
  | alignment
  | program
  | fpUnavailable
  | decrementer
  | systemCall
  | trace
  | fpAssist
  /-- A type of `P_IMPL_VECTORS`, its vector offset `page` times 0x100. -/
  | implementation (page : BitVec 6)
deriving DecidableEq, Repr

/-- The four kinds of program exception (60_exceptions.md R137). -/
inductive ProgramKind where
  | fpEnabled
  | illegal
  | privileged
  | trap
deriving DecidableEq, Repr

/-- What the environment may do between two steps (00_scope.md R3, 70_reset_and_hazards.md R209). -/
inductive EnvEvent where
  /-- The external interrupt signal takes this level (60 R163, R164). -/
  | externalSignal (level : Bool)
  /-- A system reset condition, with the free `corrupt` flag (60 R131, R169). -/
  | systemReset (corrupt : Bool)
  /-- A machine check condition, with the free `corrupt` flag (60 R132, R169). -/
  | machineCheck (corrupt : Bool)
  /-- `P_DEC_TICK`: the decrementer counts down (60 R177). -/
  | decrementerTick
deriving DecidableEq, Repr

/-- An output event of `ecowx` (43_reservation_and_external_control.md R113): resource id, physical address, word. -/
structure ExtOutput where
  rid : BitVec 6
  address : Word
  value : Word
deriving DecidableEq, Repr

/-- Memory: (address, byte) pairs, the addresses strictly rising, none holding the byte an unlisted address reads. -/
abbrev Memory := List Host.Cell

/-- The reasons the machine stops with a fault. -/
inductive Fault where
  /-- Raised by the step in the checkstop state: "the machine stops executing instructions" (60_exceptions.md R170);
  a stuck state, never a final one. Safe: the spec gives the state no step. -/
  | checkstop
  /-- Raised by `rfi` when SRR0 or SRR1 is undefined after a translated access, and by `mfspr` of the one that is
  (60_exceptions.md R162, 40 R83). Safe: the spec has these reads fault. -/
  | undefinedSrr
deriving DecidableEq, Repr

/-- The reasons the model gives no meaning to a step; each is one the spec's own rules refuse. -/
inductive Refusal where
  /-- Raised by an arm of exec whose instruction has no meaning yet; no arm is in that case. Safe. -/
  | notModelled (mnemonic : String)
  /-- Raised by the step for a word whose opcode selects a row and whose reserved fields are not the row's
  (30_encoding.md R69), and by `lmw`, `lswi`, `lswx` when rA (or rB) is among the loaded registers (42 R101, R103,
  R104). Safe: the spec refuses these forms. -/
  | invalidForm (mnemonic : String)
  /-- Raised by the step for a word in no row, in no modelled class and not known illegal (30_encoding.md R68). Safe. -/
  | unknownWord (word : Word)
  /-- Raised by the step for a class word that the parameter `Exec` gives no meaning (92_eei_decisions.md D22). Safe. -/
  | outsideExec (word : Word)
  /-- Raised by `mtmsr` and `rfi` when they would set a reserved MSR bit (10_state.md R11). Safe. -/
  | reservedMsrBit
  /-- Raised by `mtspr` and `mfspr` at supervisor level for an invalid SPR field with spr[0] = 1 (30_encoding.md
  R71). Safe: undefined behaviour. -/
  | invalidSpr (spr : BitVec 10)
  /-- Raised by `lwarx` when a misaligned access is performed (43 R110): what is reserved is not defined. Safe. -/
  | misalignedReservation
  /-- Raised by the step when it fetches from a location this processor has stored to (20_memory.md R57). Safe. -/
  | fetchOfStoredLocation
  /-- Raised by the step in reduced power mode when no exception is to be taken and no further input is to come
  (60_exceptions.md R179). Safe: a stuck state. -/
  | reducedPower
deriving DecidableEq, Repr

structure State where
  /-- General registers x[0] to x[31] (10_state.md R34). -/
  gpr : Vector Word 32
  /-- Floating-point registers f[0] to f[31] (R36). -/
  fpr : Vector DWord 32
  /-- The address of the next instruction; during an instruction, its own address CIA (R35). -/
  pc : Word
  /-- Machine state register (R10 to R26). -/
  msr : Word
  /-- Save/restore register 0 (R28). -/
  srr0 : Word
  /-- Save/restore register 1 (R29). -/
  srr1 : Word
  /-- The content of SRR0 counts as undefined: a translated access came after its last write (R37, 60 R162). -/
  srr0Undefined : Bool
  /-- The same of SRR1 (R37, 60 R162). -/
  srr1Undefined : Bool
  /-- Data address register (R30). -/
  dar : Word
  /-- DSISR (R31). -/
  dsisr : Word
  /-- Floating-point status and control register (R32; layout before 44 R123). -/
  fpscr : Word
  /-- Condition register (R36). -/
  cr : Word
  /-- XER: SO bit 0, byte count bits 25-31 (R36). -/
  xer : Word
  /-- Link register (R36). -/
  lr : Word
  /-- Count register (R36). -/
  ctr : Word
  /-- Decrementer (R33). -/
  dec : Word
  /-- External access register: E bit 0, RID bits 26-31 (R36). -/
  ear : Word
  /-- SPRG0 to SPRG3 (R36, R39). -/
  sprg : Vector Word 4
  /-- SDR1 (R39). -/
  sdr1 : Word
  /-- Time base lower, written by `mtspr` (R39). -/
  tbl : Word
  /-- Time base upper, written by `mtspr` (R39). -/
  tbu : Word
  /-- Processor version register, read only (R39). -/
  pvr : Word
  /-- IBAT0U to DBAT3L, SPR 528 to 543 (R39). -/
  bat : Vector Word 16
  /-- The special-purpose registers an implementation has besides those of R39 (30_encoding.md R71), as pairs of number
  and content, the numbers strictly rising, none holding 0, which an unlisted one holds (notes/assumptions/29.md). -/
  implSprs : List (Nat × Word)
  /-- The level of the external interrupt signal (R37). -/
  extSignal : Bool
  /-- A system reset condition not yet taken (R37). -/
  sresetPending : Bool
  /-- The `corrupt` flag of that condition (60 R169). -/
  sresetCorrupt : Bool
  /-- A machine check condition not yet taken (R37). -/
  mcheckPending : Bool
  /-- The `corrupt` flag of that condition (60 R169). -/
  mcheckCorrupt : Bool
  /-- A decrementer exception not yet taken (R37). -/
  decPending : Bool
  /-- The checkstop state (R37). -/
  checkstop : Bool
  /-- The reservation: the physical address `lwarx` reserved, `none` when no reservation is held (R37). -/
  reservation : Option Word
  /-- Physical memory (20_memory.md R40, R48). -/
  mem : Memory
  /-- The addresses this processor has stored to, strictly rising (needed by 20_memory.md R57). -/
  stored : List Nat
  /-- The output events of `ecowx`, oldest first (43 R113). -/
  extOut : List ExtOutput
  /-- MODEL: the implementation's parameters, which nothing changes (notes/assumptions/1.md). -/
  params : Params
  /-- MODEL: what the environment does before each of the coming steps (notes/assumptions/5.md). -/
  inputs : List (List EnvEvent)
  /-- MODEL: how many free values have been drawn (notes/assumptions/4.md). -/
  draws : Nat
deriving DecidableEq, Repr

/-- An implementation with parameters `p` right after power-on reset (10_state.md R38, 70_reset_and_hazards.md R200):
MSR, pc and checkstop as the spec says; DESIGN CHOICE: every register without a reset value in the spec is 0
(notes/assumptions/2.md). -/
def State.powerOn (p : Params) : State where
  gpr := Vector.replicate 32 0
  fpr := Vector.replicate 32 0
  pc := p.resetPc
  msr := p.resetMsr
  srr0 := 0
  srr1 := 0
  srr0Undefined := false
  srr1Undefined := false
  dar := 0
  dsisr := 0
  fpscr := 0
  cr := 0
  xer := 0
  lr := 0
  ctr := 0
  dec := 0
  ear := 0
  sprg := Vector.replicate 4 0
  sdr1 := 0
  tbl := 0
  tbu := 0
  pvr := 0
  bat := Vector.replicate 16 0
  implSprs := []
  extSignal := false
  sresetPending := false
  sresetCorrupt := false
  mcheckPending := false
  mcheckCorrupt := false
  decPending := false
  checkstop := false
  reservation := none
  mem := []
  stored := []
  extOut := []
  params := p
  inputs := []
  draws := 0

/-- The machine right after power-on reset, the parameters at the spec's defaults (notes/assumptions/1.md). -/
def State.reset : State := State.powerOn Params.default

end Sys2Proof.Machine
end

