-- ==== Sys2Proof/Machine/Ops.lean ====
section
/-! DEFINITION. The named operations over registers and memory; taking an exception (60_exceptions.md R161) and
returning from one (40_system_call_and_trap.md R83), each as one shared operation. -/

namespace Sys2Proof.Machine

/-! ### MSR fields (10_state.md R10 to R26), bit 0 the most significant -/

def msrPOW (m : Word) : Bool := m.getMsbD 13
def msrILE (m : Word) : Bool := m.getMsbD 15
def msrEE (m : Word) : Bool := m.getMsbD 16
def msrPR (m : Word) : Bool := m.getMsbD 17
def msrFP (m : Word) : Bool := m.getMsbD 18
def msrME (m : Word) : Bool := m.getMsbD 19
def msrFE0 (m : Word) : Bool := m.getMsbD 20
def msrSE (m : Word) : Bool := m.getMsbD 21
def msrBE (m : Word) : Bool := m.getMsbD 22
def msrFE1 (m : Word) : Bool := m.getMsbD 23
def msrIP (m : Word) : Bool := m.getMsbD 25
def msrIR (m : Word) : Bool := m.getMsbD 26
def msrDR (m : Word) : Bool := m.getMsbD 27
def msrRI (m : Word) : Bool := m.getMsbD 30
def msrLE (m : Word) : Bool := m.getMsbD 31

/-- MSR[FE0-FE1] is not 0b00 (10_state.md R18). -/
def msrFE (m : Word) : Bool := msrFE0 m || msrFE1 m

/-- `MSR_SAVED`: the bits an entry copies to SRR1 and `rfi` restores (10_state.md section 1). -/
def msrSaved : Word := 0x0000FF73

/-- `MSR_RESERVED` (10_state.md section 1). -/
def msrReserved : Word := 0xFFFA008C

/-- The reserved bits of this implementation: `MSR_RESERVED`, with POW, SE and BE where they are not implemented
(10_state.md R11, R12, R19, R20). -/
def reservedBits (p : Params) : Word :=
  msrReserved ||| (if p.pow then 0 else 0x00040000) ||| (if p.trace then 0 else 0x00000600)

/-! ### Registers -/

/-- x[r] (10_state.md R34). -/
def State.readGpr (s : State) (r : Reg) : Word := s.gpr[r.toNat]'r.isLt

/-- x[r] <- v. -/
def State.setGpr (s : State) (r : Reg) (v : Word) : State := { s with gpr := s.gpr.set r.toNat v r.isLt }

/-- f[r] (10_state.md R36). -/
def State.readFpr (s : State) (r : Reg) : DWord := s.fpr[r.toNat]'r.isLt

/-- An instruction that does not branch goes on at CIA + 4 (10_state.md R35). -/
def State.advance (s : State) : State := { s with pc := s.pc + 4 }

/-- XER[SO]. -/
def State.summaryOverflow (s : State) : Bool := s.xer.getMsbD 0

/-- XER[25-31], the byte count of `lswx` and `stswx`. -/
def State.byteCount (s : State) : Nat := (s.xer.extractLsb' 0 7).toNat

/-- EAR[E]. -/
def State.externalEnabled (s : State) : Bool := s.ear.getMsbD 0

/-- EAR[RID]. -/
def State.resourceId (s : State) : BitVec 6 := s.ear.extractLsb' 0 6

/-- DEC <- v; a change of the top bit from 0 to 1 creates the decrementer exception (60_exceptions.md R143). -/
def State.setDec (s : State) (v : Word) : State :=
  { s with dec := v, decPending := s.decPending || (!s.dec.getMsbD 0 && v.getMsbD 0) }

/-! ### Free values -/

/-- The k-th free word from here on. -/
def State.drawn (s : State) (k : Nat) : Word := Config.freeWord (s.draws + k)

/-- The next free bit. -/
def State.drawnBool (s : State) : Bool := Config.freeBool s.draws

/-- `k` free values have been used. -/
def State.skip (s : State) (k : Nat) : State := { s with draws := s.draws + k }

/-! ### Sparse tables: (key, value) pairs, an unlisted key holding `d` -/

/-- The value of a key. -/
def Cells.read {α : Type} (d : α) : List (Nat × α) → Nat → α
  | [], _ => d
  | c :: m, a => if c.1 = a then c.2 else Cells.read d m a

/-- A pair put at the head of a table, unless its value is what an unlisted key holds. -/
def Cells.cons {α : Type} [DecidableEq α] (d : α) (a : Nat) (v : α) (m : List (Nat × α)) : List (Nat × α) :=
  if v = d then m else (a, v) :: m

/-- The table after a value is written; the canonical form is kept. -/
def Cells.write {α : Type} [DecidableEq α] (d : α) : List (Nat × α) → Nat → α → List (Nat × α)
  | [], a, v => Cells.cons d a v []
  | c :: m, a, v =>
    if a < c.1 then Cells.cons d a v (c :: m)
    else if a = c.1 then Cells.cons d a v m
    else c :: Cells.write d m a v

/-- The canonical form: keys strictly rising and below `bound`, no value equal to what an unlisted key holds. -/
abbrev Cells.wf {α : Type} (d : α) (bound : Nat) (m : List (Nat × α)) : Prop :=
  m.Pairwise (fun c e => c.1 < e.1) ∧ ∀ c ∈ m, c.2 ≠ d ∧ c.1 < bound

/-! ### Memory (20_memory.md R40) -/

/-- DESIGN CHOICE (notes/assumptions/3.md): what a byte reads as that nothing has written. -/
def Memory.unlisted : Byte := 0

/-- The byte at a physical address. -/
def Memory.read (m : Memory) (a : Nat) : Byte := Cells.read Memory.unlisted m a

/-- The memory after a byte is written. -/
def Memory.write (m : Memory) (a : Nat) (v : Byte) : Memory := Cells.write Memory.unlisted m a v

/-- The canonical form of memory, whose addresses are 32 bits. -/
abbrev Memory.wf (m : Memory) : Prop := Cells.wf Memory.unlisted (2 ^ 32) m

/-- An address put into a strictly rising list of addresses. -/
def insertAddress (a : Nat) : List Nat → List Nat
  | [] => [a]
  | b :: l => if a < b then a :: b :: l else if a = b then b :: l else b :: insertAddress a l

/-- The canonical form of the list of stored addresses. -/
abbrev storedWf (l : List Nat) : Prop := l.Pairwise (· < ·) ∧ ∀ a ∈ l, a < 2 ^ 32

/-- Store bytes at physical addresses, remembering where (20_memory.md R57). -/
def State.storeBytes : List Nat → List Byte → State → State
  | a :: as, b :: bs, s =>
    State.storeBytes as bs { s with mem := s.mem.write a b, stored := insertAddress a s.stored }
  | _, _, s => s

/-! ### Addresses -/

/-- The enable bit of an access: MSR[IR] for a fetch, MSR[DR] for a data access (20_memory.md R49). -/
def translationOn (m : Word) : AccessKind → Bool
  | .fetch => msrIR m
  | .load => msrDR m
  | .store => msrDR m

/-- `Translate`: the identity when the enable bit is 0 (20_memory.md R49). -/
def State.translate (s : State) (k : AccessKind) (ea : Word) : Translation :=
  if translationOn s.msr k then Config.translate k ea s.msr else .mapped ea

/-- `PhysicalAddress(ea)`, where there is one. -/
def State.physicalAddress (s : State) (k : AccessKind) (ea : Word) : Option Word :=
  match s.translate k ea with
  | .mapped pa => some pa
  | .fails _ => none

/-- The physical address is outside the platform's valid set (20_memory.md R48). -/
def isAbsent (p : Params) (pa : Nat) : Bool := p.absent.any fun r => decide (r.1 ≤ pa ∧ pa < r.1 + r.2)

/-- The result of translating a byte's address is a physical address where nothing is. -/
def hitsAbsent (p : Params) : Translation → Bool
  | .mapped pa => isAbsent p pa.toNat
  | .fails _ => false

/-- Why an access cannot be made. -/
inductive AccessFault where
  /-- An invalid physical address: a machine check condition (20_memory.md R48). -/
  | machineCheck
  /-- Translation or protection: DSI or ISI (20_memory.md R49), with `Translate`'s cause bits. -/
  | storage (cause : Word)
deriving DecidableEq, Repr

/-- The physical addresses of translated bytes, or the first failure. -/
def collectAddresses : List Translation → Except AccessFault (List Nat)
  | [] => .ok []
  | .mapped pa :: ts =>
    match collectAddresses ts with
    | .ok l => .ok (pa.toNat :: l)
    | .error f => .error f
  | .fails c :: _ => .error (.storage c)

/-- The physical addresses of the `n` bytes at `ea`, each byte translated (notes/assumptions/10.md); a machine check
ranks above a storage failure (60_exceptions.md R172 item 4). -/
def State.physBytes (s : State) (k : AccessKind) (ea : Word) (n : Nat) : Except AccessFault (List Nat) :=
  let ts := (List.range n).map fun i => s.translate k (ea + BitVec.ofNat 32 i)
  if ts.any (hitsAbsent s.params) then .error .machineCheck else collectAddresses ts

/-! ### Exception entry -/

/-- The vector offset of an exception type (60_exceptions.md R130, R144, R150). -/
def ExcType.offset : ExcType → Word
  | .systemReset => 0x00100
  | .machineCheck => 0x00200
  | .dsi => 0x00300
  | .isi => 0x00400
  | .external => 0x00500
  | .alignment => 0x00600
  | .program => 0x00700
  | .fpUnavailable => 0x00800
  | .decrementer => 0x00900
  | .systemCall => 0x00C00
  | .trace => 0x00D00
  | .fpAssist => 0x00E00
  | .implementation page => page.setWidth 32 <<< 8

/-- `VectorBase(ip)` (20_memory.md R47). -/
def vectorBase (ip : Bool) : Word := if ip then 0xFFF00000 else 0x00000000

/-- `VectorAddress(ip, T)` (20_memory.md R47). -/
def vectorAddress (ip : Bool) (t : ExcType) : Word := vectorBase ip + t.offset

/-- `NewMSR(T, m)` (60_exceptions.md R158). -/
def newMsr (p : Params) (t : ExcType) (m : Word) : Word :=
  let keep : Word := if t = .machineCheck ∧ p.mcClearsMe = true then 0x00010040 else 0x00011040
  (m &&& (keep ||| msrReserved)) ||| (if msrILE m then 0x00000001 else 0)

/-- The SRR1 bits that hold exception-specific information: 1-4 and 10-15 (60_exceptions.md R161). -/
def infoMask : Word := 0x783F0000

/-- The SRR1 bits no rule assigns: 0, 5-9, 24, 28-29 (10_state.md R29). -/
def unassignedMask : Word := 0x87C0008C

/-- What an entry writes to SRR1 (60_exceptions.md R161): information, saved MSR bits, the implementation's extra MSR
bits, and a draw in the bits no rule assigns. -/
def savedStatus (p : Params) (m info draw : Word) : Word :=
  let extra := p.srr1ExtraMask &&& unassignedMask
  (info &&& infoMask) ||| (m &&& msrSaved) ||| (m &&& extra) ||| (draw &&& (unassignedMask &&& ~~~extra))

/-- `TakeException(T, a, info, corrupt)` (60_exceptions.md R161); with `corrupt` SRR0 and SRR1 are draws with
SRR1[30] = 0 (R169). SRR0 and SRR1 become defined (R162). -/
def State.takeException (s : State) (t : ExcType) (a info : Word) (corrupt : Bool) : State :=
  { s with
    srr0 := if corrupt then s.drawn 1 else a
    srr1 := if corrupt then s.drawn 0 &&& ~~~0x00000002 else savedStatus s.params s.msr info (s.drawn 0)
    srr0Undefined := false
    srr1Undefined := false
    msr := newMsr s.params t s.msr
    pc := vectorAddress (msrIP s.msr) t
    draws := s.draws + 2 }

/-- SRR1's bit for each program exception kind (60_exceptions.md R182). -/
def ProgramKind.info : ProgramKind → Word
  | .fpEnabled => 0x00100000
  | .illegal => 0x00080000
  | .privileged => 0x00040000
  | .trap => 0x00020000

/-- A program exception of the instruction at `cia` (60_exceptions.md R137, R181). -/
def State.program (s : State) (k : ProgramKind) (cia : Word) : State := s.takeException .program cia k.info false

/-- A floating-point unavailable exception (60_exceptions.md R142). -/
def State.fpUnavailable (s : State) : State := s.takeException .fpUnavailable s.pc 0 false

/-- A machine check condition: the exception when MSR[ME] = 1, with SRR0 and the information draws (60 R181, R182);
else the checkstop state (60 R154, R170). -/
def State.machineCheck (s : State) (corrupt : Bool) : State :=
  if msrME s.msr then (s.skip 2).takeException .machineCheck (s.drawn 0) (s.drawn 1) corrupt
  else { s with checkstop := true }

/-- A machine check condition from an access to an invalid physical address (60 R132; notes/assumptions/22.md). -/
def State.accessMachineCheck (s : State) : State := (s.skip 1).machineCheck s.drawnBool

/-- An implementation-specific exception: SRR0 and the information are draws, because no rule gives them
(60_exceptions.md R144, R150, R156, R157; notes/assumptions/25.md). -/
def State.implementationException (s : State) (page : BitVec 6) : State :=
  (s.skip 2).takeException (.implementation page) (s.drawn 0) (s.drawn 1) false

/-- DSISR <- draw; DAR <- draw within the `n` bytes of the operand at `ea` (10_state.md R30, R31). -/
def State.faultRegisters (s : State) (ea : Word) (n : Nat) : State :=
  { s with dsisr := s.drawn 0, dar := ea + s.drawn 1 % BitVec.ofNat 32 n, draws := s.draws + 2 }

/-- A DSI of the instruction at pc (60_exceptions.md R133, R181). -/
def State.dsi (s : State) (ea : Word) (n : Nat) : State :=
  (s.faultRegisters ea n).takeException .dsi s.pc 0 false

/-- An alignment exception of the instruction at pc (60_exceptions.md R167, R181). -/
def State.alignment (s : State) (ea : Word) (n : Nat) : State :=
  (s.faultRegisters ea n).takeException .alignment s.pc 0 false

/-- The exception a data access that cannot be made raises. -/
def State.accessException (s : State) (f : AccessFault) (ea : Word) (n : Nat) : State :=
  match f with
  | .machineCheck => s.accessMachineCheck
  | .storage _ => s.dsi ea n

/-! ### Completion, trace and return -/

/-- The trace condition of 60_exceptions.md R147 on (m, w), m the MSR in force when w started. -/
def traceDue (p : Params) (m w : Word) : Bool :=
  ((msrSE m && !wordIn p.traceExempt w) || (msrBE m && isBranch w)) && p.trace

/-- Instruction `w`, started under MSR `m`, has completed: the trace exception where it is due, SRR0 the next
instruction's address (60_exceptions.md R147). -/
def State.retire (t : State) (m w : Word) : State :=
  if traceDue t.params m w then t.takeException .trace t.pc 0 false else t

/-- FPSCR[FEX] (44, layout before R123). -/
def fpscrFEX (f : Word) : Bool := f.getMsbD 1

/-- Return from an exception (40 R83, 60 R174): the MSR bits an entry saves come back from SRR1, and execution goes
on at SRR0, its low two bits dropped. -/
def State.returnFromException (s : State) : State :=
  { s with
    msr := (s.msr &&& ~~~msrSaved) ||| (s.srr1 &&& msrSaved)
    pc := s.srr0 &&& ~~~0x00000003 }

/-! ### Data accesses -/

/-- `P_SRR_VOLATILE`: a translated access may change SRR0 and SRR1, which take free values and are undefined
(60_exceptions.md R162; notes/assumptions/6.md). -/
def State.disturbSrr (s : State) : State :=
  if s.params.srrVolatile then
    { s with srr0 := s.drawn 0, srr1 := s.drawn 1, srr0Undefined := true, srr1Undefined := true, draws := s.draws + 2 }
  else s

/-- SRR0 or SRR1 is undefined (60_exceptions.md R162); never so without `P_SRR_VOLATILE`. -/
def State.savedContextUndefined (s : State) : Bool := s.params.srrVolatile && (s.srr0Undefined || s.srr1Undefined)

/-- A load or store has been made: it disturbs SRR0 and SRR1 when MSR[DR] = 1 (60_exceptions.md R162). -/
def State.afterAccess (s : State) : State := if msrDR s.msr then s.disturbSrr else s

/-- The bytes `MemRead(ea, n)` reads, in address order (20_memory.md R41). -/
def State.readBytes (s : State) (k : AccessKind) (ea : Word) (n : Nat) : Except AccessFault (List Byte) :=
  match s.physBytes k ea n with
  | .ok as => .ok (as.map s.mem.read)
  | .error f => .error f

/-- `MemRead(ea, 4)` in the byte order of MSR[LE] (20_memory.md R41). -/
def State.readWord (s : State) (ea : Word) : Except AccessFault Word :=
  match s.readBytes .load ea 4 with
  | .ok bs => .ok (wordOfBytes (msrLE s.msr) bs)
  | .error f => .error f

/-- Store bytes at `ea`, in address order: every byte or none (notes/assumptions/12.md). -/
def State.writeBytes (s : State) (ea : Word) (bs : List Byte) : Except AccessFault State :=
  match s.physBytes .store ea bs.length with
  | .ok as => .ok (s.storeBytes as bs).afterAccess
  | .error f => .error f

/-- `MemWrite(ea, 4, v)` in the byte order of MSR[LE] (20_memory.md R41). -/
def State.writeWord (s : State) (ea v : Word) : Except AccessFault State :=
  s.writeBytes ea (bytesOfWord (msrLE s.msr) v)

/-! ### Alignment (20_memory.md R43 to R46, R50) -/

/-- `P_ALIGN(c)`. -/
def alignPolicy (p : AlignPolicies) : AlignCause → AlignPolicy
  | .a0 => p.a0
  | .a1 => p.a1
  | .a2 => p.a2
  | .a3 => p.a3
  | .a4 => p.a4
  | .a5 => p.a5

/-- `AlignCheck` over the conditions that hold, in order (42 R101): whether the exception is to be taken. -/
def State.alignCheck : List AlignCause → State → Bool × State
  | [], s => (false, s)
  | c :: cs, s =>
    match alignPolicy s.params.align c with
    | .trap => (true, s)
    | .perform => State.alignCheck cs s
    | .either => if s.drawnBool then (true, s.skip 1) else State.alignCheck cs (s.skip 1)

/-- Whether DSI goes before alignment for an access both apply to (60_exceptions.md R172). -/
def State.dsiBeforeAlignment (s : State) : Bool :=
  match s.params.accessOrder with
  | .alignmentFirst => false
  | .dsiFirst => true
  | .free => s.drawnBool

/-- An access that an alignment condition stops: a machine check of its `scan` bytes ranks above it, a DSI before or
after it as the parameter says (60_exceptions.md R172; notes/assumptions/11.md). -/
def State.alignmentOr (s : State) (k : AccessKind) (ea : Word) (scan n : Nat) : State :=
  match s.physBytes k ea scan with
  | .error .machineCheck => s.accessMachineCheck
  | .error (.storage _) => if s.dsiBeforeAlignment then (s.skip 1).dsi ea n else (s.skip 1).alignment ea n
  | .ok _ => s.alignment ea n

/-- An access under the alignment conditions `cs`: the exception, or `perform` (20_memory.md R50). -/
def State.withAlignment (s : State) (cs : List AlignCause) (k : AccessKind) (ea : Word) (scan n : Nat)
    (perform : State → Host.Outcome State Fault Refusal) : Host.Outcome State Fault Refusal :=
  match State.alignCheck cs s with
  | (true, t) => .next (t.alignmentOr k ea scan n)
  | (false, t) => perform t

/-- The end of a multiple or string access: completion, or the exception that stopped it part-way, what was loaded
or stored before it kept (42 R100). -/
def finishAccess (m w ea : Word) (n : Nat) : State × Option AccessFault → Host.Outcome State Fault Refusal
  | (t, none) => .next (t.advance.retire m w)
  | (t, some f) => .next (t.accessException f ea n)

/-- Load words from `ea` into the registers listed (42 R101). -/
def State.loadWords : List Reg → Word → State → State × Option AccessFault
  | [], _, s => (s, none)
  | r :: rs, ea, s =>
    match s.readWord ea with
    | .ok v => State.loadWords rs (ea + 4) (s.setGpr r v).afterAccess
    | .error f => (s, some f)

/-- Store the registers listed as words from `ea` on (42 R102). -/
def State.storeWords : List Reg → Word → State → State × Option AccessFault
  | [], _, s => (s, none)
  | r :: rs, ea, s =>
    match s.writeWord ea (s.readGpr r) with
    | .ok t => State.storeWords rs (ea + 4) t
    | .error f => (s, some f)

/-- x[r][8j : 8j+7] <- b, after clearing x[r] when j = 0 (42 R103). -/
def insertByte (v : Word) (j : Nat) (b : Byte) : Word :=
  let old : Word := if j = 0 then 0 else v
  (old &&& ~~~((0xFF000000 : Word) >>> (8 * j))) ||| ((b.setWidth 32 <<< 24) >>> (8 * j))

/-- x[r][8j : 8j+7] (42 R105). -/
def selectByte (v : Word) (j : Nat) : Byte := v.extractLsb' (24 - 8 * j) 8

/-- Load `n` bytes of a string, `k` being loaded already, the registers wrapping from 31 to 0 (42 R103). -/
def State.loadString (rd : Reg) (ea : Word) : Nat → Nat → State → State × Option AccessFault
  | 0, _, s => (s, none)
  | n + 1, k, s =>
    match s.readBytes .load (ea + BitVec.ofNat 32 k) 1 with
    | .ok bs =>
      let r := rd + BitVec.ofNat 5 (k / 4)
      State.loadString rd ea n (k + 1)
        (s.setGpr r (insertByte (s.readGpr r) (k % 4) (bs.headD Memory.unlisted))).afterAccess
    | .error f => (s, some f)

/-- Store `n` bytes of a string, `k` being stored already, the registers wrapping from 31 to 0 (42 R105). -/
def State.storeString (rs : Reg) (ea : Word) : Nat → Nat → State → State × Option AccessFault
  | 0, _, s => (s, none)
  | n + 1, k, s =>
    match s.writeBytes (ea + BitVec.ofNat 32 k) [selectByte (s.readGpr (rs + BitVec.ofNat 5 (k / 4))) (k % 4)] with
    | .ok t => State.storeString rs ea n (k + 1) t
    | .error f => (s, some f)

end Sys2Proof.Machine
end

