-- ==== Sys2Proof/Machine/Operands.lean ====
section
/-! DEFINITION. Operand forms: effective addresses, register lists, special-purpose register numbers, and the
alignment conditions each kind of operand meets. -/

namespace Sys2Proof.Machine

/-- `(rA|0)`: 0 where the field is 0, else x[rA] (00_scope.md R4). -/
def State.regOrZero (s : State) (ra : Reg) : Word := if ra = 0 then 0 else s.readGpr ra

/-- The effective address `d(rA)`, d sign-extended (30_encoding.md R67). -/
def State.displacedAddress (s : State) (ra : Reg) (d : BitVec 16) : Word := s.regOrZero ra + d.signExtend 32

/-- The effective address `rA,rB` (42 R104, 43 R110). -/
def State.indexedAddress (s : State) (ra rb : Reg) : Word := s.regOrZero ra + s.readGpr rb

/-- A word operand is not aligned: its address is not a multiple of 4 (20_memory.md R44). -/
def misaligned (ea : Word) : Bool := ea &&& 3 != 0

/-- Condition A2 (20_memory.md R44). -/
def wordCauses (ea : Word) : List AlignCause := if misaligned ea then [.a2] else []

/-- Condition A3 (20_memory.md R45). -/
def State.littleEndianCauses (s : State) : List AlignCause := if msrLE s.msr then [.a3] else []

/-- Condition A4 (20_memory.md R46); no boundary is crossed with MSR[DR] = 0. -/
def State.protectionCauses (s : State) (ea : Word) (n : Nat) : List AlignCause :=
  if msrDR s.msr && Config.crossesProtectionBoundary ea n s.msr then [.a4] else []

/-- Condition A5 (20_memory.md R46); no boundary is crossed with MSR[DR] = 0. -/
def State.segmentCauses (s : State) (ea : Word) (n : Nat) : List AlignCause :=
  if msrDR s.msr && Config.crossesSegmentOrBatBoundary ea n s.msr then [.a5] else []

/-- The conditions of a single word: A2, then A4, as of an elementary load or store (20_memory.md R44, R46;
notes/assumptions/27.md). -/
def State.elementaryCauses (s : State) (ea : Word) : List AlignCause := wordCauses ea ++ s.protectionCauses ea 4

/-- The conditions of `lmw` and `stmw`, in the order of 42 R101. -/
def State.multipleCauses (s : State) (ea : Word) (n : Nat) : List AlignCause :=
  s.littleEndianCauses ++ wordCauses ea ++ s.segmentCauses ea n

/-- The conditions of the string instructions, in the order of 42 R103. -/
def State.stringCauses (s : State) (ea : Word) (n : Nat) : List AlignCause :=
  s.littleEndianCauses ++ s.protectionCauses ea n

/-- A floating-point operand that little-endian mode does not count as aligned: its address is not a multiple of its
size (20_memory.md R41). -/
def State.misalignedForMode (s : State) (ea : Word) (n : Nat) : Bool := msrLE s.msr && decide (ea.toNat % n ≠ 0)

/-- The conditions of a floating-point load or store: A1 (44 R121), then A4 (20_memory.md R46); A0 where neither holds and
the access is misaligned all the same (R50), which a doubleword at a word-aligned address is in little-endian mode
(notes/assumptions/27.md). -/
def State.fpCauses (s : State) (ea : Word) (n : Nat) : List AlignCause :=
  match (if misaligned ea then [.a1] else []) ++ s.protectionCauses ea n with
  | [] => if s.misalignedForMode ea n then [.a0] else []
  | cs => cs

/-- The registers r to 31 (42 R101). -/
def registersFrom (r : Reg) : List Reg := (List.range (32 - r.toNat)).map fun i => r + BitVec.ofNat 5 i

/-- The byte count of `lswi` and `stswi`: NB, 0 meaning 32 (42 R103). -/
def immediateCount (nb : BitVec 5) : Nat := if nb = 0 then 32 else nb.toNat

/-- Register r is loaded by a string load of n bytes into rd, rd + 1, .., wrapping from 31 to 0 (42 R103). -/
def loadedByString (rd r : Reg) (n : Nat) : Bool := decide ((r - rd).toNat < (n + 3) / 4)

/-- The condition list of a trap instruction (40 R81). -/
def trapCondition (cond : BitVec 5) (a b : Word) : Bool :=
  (cond.getMsbD 0 && a.slt b) || (cond.getMsbD 1 && b.slt a) || (cond.getMsbD 2 && a == b) ||
    (cond.getMsbD 3 && a.ult b) || (cond.getMsbD 4 && b.ult a)

/-- The special-purpose registers (10_state.md R39), and those of an implementation. -/
inductive Spr where
  | xer
  | lr
  | ctr
  | dsisr
  | dar
  | dec
  | sdr1
  | srr0
  | srr1
  | sprg (i : Fin 4)
  | ear
  | tbl
  | tbu
  | pvr
  | bat (i : Fin 16)
  /-- A register an implementation has at a number that R39 does not list (30_encoding.md R71). -/
  | impl (n : BitVec 10)
deriving DecidableEq, Repr

/-- The special-purpose registers by number (10_state.md R39). -/
def sprTable : List (Nat × Spr) :=
  [(1, .xer), (8, .lr), (9, .ctr), (18, .dsisr), (19, .dar), (22, .dec), (25, .sdr1), (26, .srr0), (27, .srr1),
    (282, .ear), (284, .tbl), (285, .tbu), (287, .pvr)] ++
  ([0, 1, 2, 3] : List (Fin 4)).map (fun i => (272 + i.val, Spr.sprg i)) ++
  ([0, 1, 2, 3, 4, 5, 6, 7, 8, 9, 10, 11, 12, 13, 14, 15] : List (Fin 16)).map (fun i => (528 + i.val, Spr.bat i))

/-- The register of R39 an SPR number names (10_state.md R39). -/
def sprOf (n : BitVec 10) : Option Spr := (sprTable.find? fun e => e.1 == n.toNat).map fun e => e.2

/-- The register at an SPR number, where the implementation has one: that of R39, else one of its own
(notes/assumptions/29.md). -/
def sprAt (n : BitVec 10) : Spr := (sprOf n).getD (.impl n)

/-- `spr[0]`: the bit of weight 16 of the number, which marks the supervisor-only registers (30_encoding.md R66). -/
def sprSupervisor (n : BitVec 10) : Bool := n.getLsbD 4

/-- The content of a special-purpose register. -/
def State.readSpr (s : State) : Spr → Word
  | .xer => s.xer
  | .lr => s.lr
  | .ctr => s.ctr
  | .dsisr => s.dsisr
  | .dar => s.dar
  | .dec => s.dec
  | .sdr1 => s.sdr1
  | .srr0 => s.srr0
  | .srr1 => s.srr1
  | .sprg i => s.sprg[i]
  | .ear => s.ear
  | .tbl => s.tbl
  | .tbu => s.tbu
  | .pvr => s.pvr
  | .bat i => s.bat[i]
  | .impl n => Cells.read 0 s.implSprs n.toNat

/-- The register is undefined, so that reading it faults: SRR0 or SRR1 after a translated access (60_exceptions.md
R162); never so without `P_SRR_VOLATILE`. -/
def State.sprUndefined (s : State) (r : Spr) : Bool :=
  s.params.srrVolatile && ((decide (r = .srr0) && s.srr0Undefined) || (decide (r = .srr1) && s.srr1Undefined))

/-- `SPR(n) <- v`; a write of DEC may create the decrementer exception, one of SRR0 or SRR1 makes it defined (41 R91). -/
def State.writeSpr (s : State) (r : Spr) (v : Word) : State :=
  match r with
  | .xer => { s with xer := v }
  | .lr => { s with lr := v }
  | .ctr => { s with ctr := v }
  | .dsisr => { s with dsisr := v }
  | .dar => { s with dar := v }
  | .dec => s.setDec v
  | .sdr1 => { s with sdr1 := v }
  | .srr0 => { s with srr0 := v, srr0Undefined := false }
  | .srr1 => { s with srr1 := v, srr1Undefined := false }
  | .sprg i => { s with sprg := s.sprg.set i v }
  | .ear => { s with ear := v }
  | .tbl => { s with tbl := v }
  | .tbu => { s with tbu := v }
  | .pvr => { s with pvr := v }
  | .bat i => { s with bat := s.bat.set i v }
  | .impl n => { s with implSprs := Cells.write 0 s.implSprs n.toNat v }

/-- The number is in one of the ranges (first, count). -/
def sprListed (l : List (Nat × Nat)) (n : BitVec 10) : Bool := l.any fun r => decide (r.1 ≤ n.toNat ∧ n.toNat < r.1 + r.2)

/-- The register an `mfspr` of number n reads, if this implementation has it readable: `ReadableSPR` (30_encoding.md R71,
41 R92). -/
def readableSpr (p : Params) (n : BitVec 10) : Option Spr := if sprListed p.readableSprs n then some (sprAt n) else none

/-- The register an `mtspr` of number n writes, if this implementation has it writable: `WritableSPR` (30_encoding.md
R71, 41 R91). -/
def writableSpr (p : Params) (n : BitVec 10) : Option Spr := if sprListed p.writableSprs n then some (sprAt n) else none

/-- `mtspr` or `mfspr` with an invalid SPR field that raised no privileged exception (30_encoding.md R71). -/
def State.invalidSpr (s : State) (n : BitVec 10) : Host.Outcome State Fault Refusal :=
  if sprSupervisor n then .refused (.invalidSpr n) else .next (s.program .illegal s.pc)

/-- The operand address of a floating-point load or store outside the opcode table: D-form or X-form (30_encoding.md
R62, R63, R67; 44 R120). -/
def State.fpAddress (s : State) (w : Word) : Word :=
  if isIndexedFpAccess w then s.indexedAddress (field w 11 5) (field w 16 5)
  else s.displacedAddress (field w 11 5) (field w 16 16)

/-- The word is a floating-point load (44 R120). -/
def isFpLoad (w : Word) : Bool :=
  (isDisplacedFpAccess w && decide ((opcd w).toNat ≤ 51)) ||
    (isIndexedFpAccess w && [535, 567, 599, 631].contains (extOpcd w))

/-- The word is a floating-point store (44 R120). -/
def isFpStore (w : Word) : Bool := (isDisplacedFpAccess w || isIndexedFpAccess w) && !isFpLoad w

/-- The operand of a floating-point load or store is 8 bytes for the double forms, else 4 (20_memory.md R52). -/
def fpOperandSize (w : Word) : Nat :=
  if (isDisplacedFpAccess w && [50, 51, 54, 55].contains (opcd w)) ||
      (isIndexedFpAccess w && [599, 631, 727, 759].contains (extOpcd w)) then 8 else 4

end Sys2Proof.Machine
end

