-- ==== Sys2Proof/Machine/Flags.lean ====
section
/-! DEFINITION. Flags: the condition register fields CR0 and CR1, and the FPSCR with its computed bits VX and FEX
(44_floating_point_class.md, layout before R123). -/

namespace Sys2Proof.Machine

/-- CR0 <- 0b00, EQ, XER[SO] (43 R111). -/
def State.setCr0 (s : State) (eq : Bool) : State :=
  { s with cr := (s.cr &&& 0x0FFFFFFF) |||
      (if eq then 0x20000000 else 0) ||| (if s.summaryOverflow then 0x10000000 else 0) }

/-- CR1 <- FPSCR[0-3] (44 R123). -/
def State.setCr1 (s : State) : State :=
  { s with cr := (s.cr &&& 0xF0FFFFFF) ||| ((s.fpscr &&& 0xF0000000) >>> 4) }

/-- The mask of bit i, bit 0 the most significant. -/
def bitMask (i : Nat) : Word := 0x80000000 >>> i

/-- VX, the or of FPSCR[7-12] and FPSCR[21-23] (44, before R123). -/
def fpscrInvalid (f : Word) : Bool :=
  f.getMsbD 7 || f.getMsbD 8 || f.getMsbD 9 || f.getMsbD 10 || f.getMsbD 11 || f.getMsbD 12 ||
    f.getMsbD 21 || f.getMsbD 22 || f.getMsbD 23

/-- FEX: (VX and VE) or (OX and OE) or (UX and UE) or (ZX and ZE) or (XX and XE) (44, before R123). -/
def fpscrEnabled (f : Word) : Bool :=
  (fpscrInvalid f && f.getMsbD 24) || (f.getMsbD 3 && f.getMsbD 25) || (f.getMsbD 4 && f.getMsbD 26) ||
    (f.getMsbD 5 && f.getMsbD 27) || (f.getMsbD 6 && f.getMsbD 28)

/-- VX and FEX recomputed, as after every write of the FPSCR (44, before R123). -/
def fpscrRecompute (f : Word) : Word :=
  (f &&& 0x9FFFFFFF) ||| (if fpscrInvalid f then 0x20000000 else 0) ||| (if fpscrEnabled f then 0x40000000 else 0)

/-- The bits of `src` under `mask` put into `f`; FEX and VX cannot be written directly (44, before R123). -/
def fpscrInsert (f mask src : Word) : Word :=
  let m := mask &&& 0x9FFFFFFF
  (f &&& ~~~m) ||| (src &&& m)

/-- The mask of FPSCR field i (44 R123). -/
def fpscrField (i : Nat) : Word := (0xF0000000 : Word) >>> (4 * i)

/-- The mask of the fields FM selects, FM[0] for field 0 (44 R123). -/
def fpscrFields (fm : BitVec 8) : Word :=
  (List.range 8).foldl (fun m i => if fm.getMsbD i then m ||| fpscrField i else m) 0

/-- The exception condition bits whose change from 0 to 1 by `mtfsb1` sets FX: 3 to 12 and 21 to 23 (44 R126). -/
def fpscrConditionBit (i : Nat) : Bool := (decide (3 ≤ i) && decide (i ≤ 12)) || (decide (21 ≤ i) && decide (i ≤ 23))

/-- The FPSCR after `mtfsb1 i`, before VX and FEX are recomputed (44 R126). -/
def fpscrSetBit (f : Word) (i : Nat) : Word :=
  let g := fpscrInsert f (bitMask i) (bitMask i)
  if fpscrConditionBit i && !f.getMsbD i then g ||| 0x80000000 else g

/-- The FPSCR after `mtfsb0 i`, before VX and FEX are recomputed (44 R125). -/
def fpscrClearBit (f : Word) (i : Nat) : Word := fpscrInsert f (bitMask i) 0

/-- The floating-point enabled exception condition (60_exceptions.md R138). -/
def State.fpEnabledCondition (s : State) : Bool := msrFE s.msr && fpscrFEX s.fpscr

/-- What every write of the FPSCR ends with: VX and FEX recomputed, CR1 copied when Rc = 1 (44 R123). -/
def State.setFpscr (s : State) (f : Word) (rc : Bool) : State :=
  let t := { s with fpscr := fpscrRecompute f }
  if rc then t.setCr1 else t

/-- The end of an instruction that may leave the enabled exception condition: the program exception with SRR0 its
own address `cia`, its writes done, or completion (44 R122, 60 R138). -/
def State.completeFp (t : State) (cia m w : Word) : State :=
  if t.fpEnabledCondition then t.program .fpEnabled cia else t.retire m w

end Sys2Proof.Machine
end

