-- ==== Sys2Proof/Machine/Fpscr.lean ====
section
/-! DEFINITION. The Move to FPSCR instructions `mtfsf`, `mtfsfi`, `mtfsb0`, `mtfsb1` (44_floating_point_class.md R123
to R126). -/

namespace Sys2Proof.Machine

/-- What they share: floating-point unavailable with MSR[FP] = 0 (44 R120), else the FPSCR becomes `f`, VX and FEX
recomputed, CR1 copied when Rc = 1, and the instruction completes or raises the enabled exception (R123). -/
def State.moveToFpscr (s : State) (w : Word) (rc : Bool) (f : Word) : State :=
  if msrFP s.msr then (s.setFpscr f rc).advance.completeFp s.pc s.msr w else s.fpUnavailable

/-- `mtfsf FM,frB` (R123): the fields FM selects come from the low word of f[frB]. -/
def execMtfsf (fm : BitVec 8) (frb : Reg) (rc : Bool) (s : State) : Host.Outcome State Fault Refusal :=
  .next (s.moveToFpscr (encode (.mtfsf fm frb rc)) rc
    (fpscrInsert s.fpscr (fpscrFields fm) ((s.readFpr frb).setWidth 32)))

/-- `mtfsfi crfD,IMM` (R124). -/
def execMtfsfi (crfd : BitVec 3) (imm : BitVec 4) (rc : Bool) (s : State) : Host.Outcome State Fault Refusal :=
  .next (s.moveToFpscr (encode (.mtfsfi crfd imm rc)) rc
    (fpscrInsert s.fpscr (fpscrField crfd.toNat) ((imm.setWidth 32 <<< 28) >>> (4 * crfd.toNat))))

/-- `mtfsb0 crbD` (R125): it raises no enabled exception of its own. -/
def execMtfsb0 (crbd : BitVec 5) (rc : Bool) (s : State) : Host.Outcome State Fault Refusal :=
  if msrFP s.msr then
    .next ((s.setFpscr (fpscrClearBit s.fpscr crbd.toNat) rc).advance.retire s.msr (encode (.mtfsb0 crbd rc)))
  else .next s.fpUnavailable

/-- `mtfsb1 crbD` (R126). -/
def execMtfsb1 (crbd : BitVec 5) (rc : Bool) (s : State) : Host.Outcome State Fault Refusal :=
  .next (s.moveToFpscr (encode (.mtfsb1 crbd rc)) rc (fpscrSetBit s.fpscr crbd.toNat))

end Sys2Proof.Machine
end

