-- ==== Sys2Proof/Machine/MultipleString.lean ====
section
/-! DEFINITION. `lmw`, `stmw`, `lswi`, `lswx`, `stswi`, `stswx` (42_load_store_multiple_and_string.md R100 to R106).
Each checks its form, then its alignment conditions in order, then accesses memory element by element; an exception
part-way keeps what was done and has SRR0 = CIA (R100). An access performed under an alignment condition moves what it
moves without it (20_memory.md R50; notes/assumptions/18.md). -/

namespace Sys2Proof.Machine

/-- `lmw rD,d(rA)` (R101). -/
def execLmw (rd ra : Reg) (d : BitVec 16) (s : State) : Host.Outcome State Fault Refusal :=
  if rd.toNat ≤ ra.toNat then .refused (.invalidForm "lmw")
  else
    let ea := s.displacedAddress ra d
    let n := 4 * (32 - rd.toNat)
    s.withAlignment (s.multipleCauses ea n) .load ea n n fun t =>
      finishAccess s.msr (encode (.lmw rd ra d)) ea n (State.loadWords (registersFrom rd) ea t)

/-- `stmw rS,d(rA)` (R102). -/
def execStmw (rs ra : Reg) (d : BitVec 16) (s : State) : Host.Outcome State Fault Refusal :=
  let ea := s.displacedAddress ra d
  let n := 4 * (32 - rs.toNat)
  s.withAlignment (s.multipleCauses ea n) .store ea n n fun t =>
    finishAccess s.msr (encode (.stmw rs ra d)) ea n (State.storeWords (registersFrom rs) ea t)

/-- x[rD] after a string load that reads no byte: a free value (R104; notes/assumptions/7.md). -/
def State.noBytes (t : State) (rd : Reg) (n : Nat) : State :=
  if n = 0 then (t.setGpr rd (t.drawn 0)).skip 1 else t

/-- The common part of the string loads `w`: `n` bytes from `ea` into the registers from `rd` on (R103). -/
def State.loadStringFrom (s : State) (w : Word) (rd : Reg) (ea : Word) (n : Nat) : Host.Outcome State Fault Refusal :=
  s.withAlignment (s.stringCauses ea n) .load ea n n fun t =>
    finishAccess s.msr w ea n (State.loadString rd ea n 0 (t.noBytes rd n))

/-- The common part of the string stores `w` (R105). -/
def State.storeStringTo (s : State) (w : Word) (rs : Reg) (ea : Word) (n : Nat) : Host.Outcome State Fault Refusal :=
  s.withAlignment (s.stringCauses ea n) .store ea n n fun t =>
    finishAccess s.msr w ea n (State.storeString rs ea n 0 t)

/-- `lswi rD,rA,NB` (R103). -/
def execLswi (rd ra : Reg) (nb : BitVec 5) (s : State) : Host.Outcome State Fault Refusal :=
  if loadedByString rd ra (immediateCount nb) then .refused (.invalidForm "lswi")
  else s.loadStringFrom (encode (.lswi rd ra nb)) rd (s.regOrZero ra) (immediateCount nb)

/-- `lswx rD,rA,rB` (R104): the byte count is XER[25-31]. -/
def execLswx (rd ra rb : Reg) (s : State) : Host.Outcome State Fault Refusal :=
  let n := s.byteCount
  if rd = ra ∨ rd = rb ∨ loadedByString rd ra n = true ∨ loadedByString rd rb n = true then .refused (.invalidForm "lswx")
  else
    s.loadStringFrom (encode (.lswx rd ra rb)) rd (s.indexedAddress ra rb) n

/-- `stswi rS,rA,NB` (R105). -/
def execStswi (rs ra : Reg) (nb : BitVec 5) (s : State) : Host.Outcome State Fault Refusal :=
  s.storeStringTo (encode (.stswi rs ra nb)) rs (s.regOrZero ra) (immediateCount nb)

/-- `stswx rS,rA,rB` (R106). -/
def execStswx (rs ra rb : Reg) (s : State) : Host.Outcome State Fault Refusal :=
  s.storeStringTo (encode (.stswx rs ra rb)) rs (s.indexedAddress ra rb) s.byteCount

end Sys2Proof.Machine
end

