-- ==== Sys2Proof/Machine/Reservation.lean ====
section
/-! DEFINITION. `lwarx`, `stwcx.`, `eciwx`, `ecowx` (43_reservation_and_external_control.md R110 to R113). -/

namespace Sys2Proof.Machine

/-- The access of `lwarx` once no alignment exception is taken. -/
def State.loadReserved (t : State) (m w : Word) (rd : Reg) (ea : Word) : Host.Outcome State Fault Refusal :=
  if misaligned ea then .refused .misalignedReservation
  else
    match t.readWord ea with
    | .ok v =>
      .next (({ t with reservation := t.physicalAddress .load ea }.setGpr rd v).afterAccess.advance.retire m w)
    | .error f => .next (t.accessException f ea 4)

/-- `lwarx rD,rA,rB` (R110). -/
def execLwarx (rd ra rb : Reg) (s : State) : Host.Outcome State Fault Refusal :=
  let ea := s.indexedAddress ra rb
  s.withAlignment (s.elementaryCauses ea) .load ea 4 4 fun t => t.loadReserved s.msr (encode (.lwarx rd ra rb)) rd ea

/-- Whether `stwcx.` stores (R111): with a reservation at its own physical address it does, without one it does
not, with one elsewhere a free value decides (notes/assumptions/17.md). -/
def State.conditionalStores (s : State) (ea : Word) : Bool :=
  match s.reservation with
  | none => false
  | some a => if s.physicalAddress .store ea = some a then true else s.drawnBool

/-- The access of `stwcx.` once no alignment exception is taken. -/
def State.storeConditional (t : State) (m w : Word) (rs : Reg) (ea : Word) (attempt : Bool) :
    Host.Outcome State Fault Refusal :=
  if attempt then
    match t.writeWord ea (t.readGpr rs) with
    | .ok u => .next (({ u with reservation := none }.setCr0 true).advance.retire m w)
    | .error f => .next (t.accessException f ea 4)
  else .next (({ t with reservation := none }.setCr0 false).advance.retire m w)

/-- `stwcx. rS,rA,rB` (R111). -/
def execStwcx (rs ra rb : Reg) (s : State) : Host.Outcome State Fault Refusal :=
  let ea := s.indexedAddress ra rb
  let attempt := s.conditionalStores ea
  (s.skip 1).withAlignment (s.elementaryCauses ea) .store ea (if attempt then 4 else 0) 4 fun t =>
    t.storeConditional s.msr (encode (.stwcx rs ra rb)) rs ea attempt

/-- What `eciwx` and `ecowx` share (R112): as a no-op or illegal where the implementation has it so (30 R70), DSI
with EAR[E] = 0, alignment, then translation, then `act` on the physical address. -/
def State.externalControl (s : State) (w : Word) (k : AccessKind) (ea : Word) (act : State → Word → State) :
    Host.Outcome State Fault Refusal :=
  if wordIn s.params.optionalNop w then .next (s.advance.retire s.msr w)
  else if wordIn s.params.optionalAbsent w then .next (s.program .illegal s.pc)
  else if !s.externalEnabled then .next (s.dsi ea 4)
  else
    s.withAlignment (s.elementaryCauses ea) k ea 4 4 fun t =>
      match t.physBytes k ea 4, t.physicalAddress k ea with
      | .ok _, some pa => .next ((act t pa).afterAccess.advance.retire s.msr w)
      | .ok _, none => .next (t.dsi ea 4)
      | .error f, _ => .next (t.accessException f ea 4)

/-- `eciwx rD,rA,rB` (R112): the word the device supplies is a free value. -/
def execEciwx (rd ra rb : Reg) (s : State) : Host.Outcome State Fault Refusal :=
  s.externalControl (encode (.eciwx rd ra rb)) .load (s.indexedAddress ra rb) fun t _ =>
    (t.setGpr rd (t.drawn 0)).skip 1

/-- `ecowx rS,rA,rB` (R113): the word goes to the device, as an output event. -/
def execEcowx (rs ra rb : Reg) (s : State) : Host.Outcome State Fault Refusal :=
  s.externalControl (encode (.ecowx rs ra rb)) .store (s.indexedAddress ra rb) fun t pa =>
    { t with extOut := t.extOut ++ [⟨t.resourceId, pa, t.readGpr rs⟩] }

end Sys2Proof.Machine
end

