-- ==== Sys2Proof/Machine/SprMsr.lean ====
section
/-! DEFINITION. `mtspr`, `mfspr`, `mtmsr`, `mfmsr` (41_spr_and_msr_access.md R90 to R94). -/

namespace Sys2Proof.Machine

/-- `mtspr SPR,rS` (R91). -/
def execMtspr (spr : BitVec 10) (rs : Reg) (s : State) : Host.Outcome State Fault Refusal :=
  if sprSupervisor spr && msrPR s.msr then .next (s.program .privileged s.pc)
  else
    match writableSpr s.params spr with
    | some r => .next ((s.writeSpr r (s.readGpr rs)).advance.retire s.msr (encode (.mtspr spr rs)))
    | none => s.invalidSpr spr

/-- `mfspr rD,SPR` (R92); reading SRR0 or SRR1 where it is undefined faults (60 R162). -/
def execMfspr (rd : Reg) (spr : BitVec 10) (s : State) : Host.Outcome State Fault Refusal :=
  if sprSupervisor spr && msrPR s.msr then .next (s.program .privileged s.pc)
  else
    match readableSpr s.params spr with
    | some r =>
      if s.sprUndefined r then .fault .undefinedSrr
      else .next ((s.setGpr rd (s.readSpr r)).advance.retire s.msr (encode (.mfspr rd spr)))
    | none => s.invalidSpr spr

/-- `mtmsr rS` (R93): a reserved bit is refused (10_state.md R11); FE0 or FE1 set with FEX = 1 is the enabled
exception condition at once (60 R138). -/
def execMtmsr (rs : Reg) (s : State) : Host.Outcome State Fault Refusal :=
  if msrPR s.msr then .next (s.program .privileged s.pc)
  else if s.readGpr rs &&& reservedBits s.params ≠ 0 then .refused .reservedMsrBit
  else
    .next (({ s with msr := s.readGpr rs } : State).advance.completeFp s.pc s.msr (encode (.mtmsr rs)))

/-- `mfmsr rD` (R94). -/
def execMfmsr (rd : Reg) (s : State) : Host.Outcome State Fault Refusal :=
  if msrPR s.msr then .next (s.program .privileged s.pc)
  else .next ((s.setGpr rd s.msr).advance.retire s.msr (encode (.mfmsr rd)))

end Sys2Proof.Machine
end

