-- ==== Sys2Proof/Machine/SystemCallTrap.lean ====
section
/-! DEFINITION. `sc`, `twi`, `tw`, `rfi` (40_system_call_and_trap.md R80 to R83). -/

namespace Sys2Proof.Machine

/-- `sc` (R80): the system call exception, SRR0 = CIA + 4, at either privilege level. -/
def execSc (s : State) : Host.Outcome State Fault Refusal :=
  .next (s.takeException .systemCall (s.pc + 4) 0 false)

/-- A trap instruction `w` comparing a with b (R81, R82). -/
def State.trapOn (s : State) (w : Word) (cond : BitVec 5) (a b : Word) : State :=
  if trapCondition cond a b then s.program .trap s.pc else s.advance.retire s.msr w

/-- `twi TO,rA,SIMM` (R81). -/
def execTwi (cond : BitVec 5) (ra : Reg) (simm : BitVec 16) (s : State) : Host.Outcome State Fault Refusal :=
  .next (s.trapOn (encode (.twi cond ra simm)) cond (s.readGpr ra) (simm.signExtend 32))

/-- `tw TO,rA,rB` (R82). -/
def execTw (cond : BitVec 5) (ra rb : Reg) (s : State) : Host.Outcome State Fault Refusal :=
  .next (s.trapOn (encode (.tw cond ra rb)) cond (s.readGpr ra) (s.readGpr rb))

/-- `rfi` (R83), privileged (41 R90). With SRR0 or SRR1 undefined it faults (60 R162). It refuses to set a bit that is
reserved because its function is not implemented (10_state.md R11; notes/assumptions/8.md); a restored FE0 or FE1 with
FEX = 1 is the enabled exception condition, reported at the `rfi` (60 R138; notes/assumptions/9.md). -/
def execRfi (s : State) : Host.Outcome State Fault Refusal :=
  if msrPR s.msr then .next (s.program .privileged s.pc)
  else if s.savedContextUndefined then .fault .undefinedSrr
  else if s.srr1 &&& msrSaved &&& reservedBits s.params ≠ 0 then .refused .reservedMsrBit
  else .next (s.returnFromException.completeFp s.pc s.msr (encode .rfi))

end Sys2Proof.Machine
end

