-- ==== Sys2Proof/Machine/Dispatch.lean ====
section
/-! DEFINITION. The meaning of each instruction, one arm per constructor of Instr. -/

namespace Sys2Proof.Machine

def exec (i : Instr) (s : State) : Host.Outcome State Fault Refusal :=
  match i with
  | .twi cond ra simm => Sys2Proof.Machine.execTwi cond ra simm s
  | .sc => Sys2Proof.Machine.execSc s
  | .rfi => Sys2Proof.Machine.execRfi s
  | .tw cond ra rb => Sys2Proof.Machine.execTw cond ra rb s
  | .lwarx rd ra rb => Sys2Proof.Machine.execLwarx rd ra rb s
  | .mfmsr rd => Sys2Proof.Machine.execMfmsr rd s
  | .mtmsr rs => Sys2Proof.Machine.execMtmsr rs s
  | .stwcx rs ra rb => Sys2Proof.Machine.execStwcx rs ra rb s
  | .eciwx rd ra rb => Sys2Proof.Machine.execEciwx rd ra rb s
  | .mfspr rd spr => Sys2Proof.Machine.execMfspr rd spr s
  | .ecowx rs ra rb => Sys2Proof.Machine.execEcowx rs ra rb s
  | .mtspr spr rs => Sys2Proof.Machine.execMtspr spr rs s
  | .lswx rd ra rb => Sys2Proof.Machine.execLswx rd ra rb s
  | .lswi rd ra nb => Sys2Proof.Machine.execLswi rd ra nb s
  | .stswx rs ra rb => Sys2Proof.Machine.execStswx rs ra rb s
  | .stswi rs ra nb => Sys2Proof.Machine.execStswi rs ra nb s
  | .lmw rd ra d => Sys2Proof.Machine.execLmw rd ra d s
  | .stmw rs ra d => Sys2Proof.Machine.execStmw rs ra d s
  | .mtfsb1 crbd rc => Sys2Proof.Machine.execMtfsb1 crbd rc s
  | .mtfsb0 crbd rc => Sys2Proof.Machine.execMtfsb0 crbd rc s
  | .mtfsfi crfd imm rc => Sys2Proof.Machine.execMtfsfi crfd imm rc s
  | .mtfsf fm frb rc => Sys2Proof.Machine.execMtfsf fm frb rc s

end Sys2Proof.Machine
end

