-- ==== Sys2Proof/Machine/Environment.lean ====
section
/-! DEFINITION. What the environment does between steps (00_scope.md R3, 60_exceptions.md R177) and the exceptions
taken at an instruction boundary, in the order of 60_exceptions.md R171 and R173. -/

namespace Sys2Proof.Machine

/-- One event of the environment. -/
def State.occur (s : State) : EnvEvent → State
  | .externalSignal level => { s with extSignal := level }
  | .systemReset corrupt => { s with sresetPending := true, sresetCorrupt := s.sresetCorrupt || corrupt }
  | .machineCheck corrupt => { s with mcheckPending := true, mcheckCorrupt := s.mcheckCorrupt || corrupt }
  | .decrementerTick => s.setDec (s.dec - 1)

/-- The environment's next batch of events takes effect (notes/assumptions/5.md). -/
def State.deliver (s : State) : State :=
  match s.inputs with
  | [] => s
  | batch :: rest => batch.foldl State.occur { s with inputs := rest }

/-- The exception taken at this instruction boundary, if there is one (60_exceptions.md R173). -/
def State.boundary (s : State) : Option State :=
  if s.sresetPending then
    some (({ s with sresetPending := false, sresetCorrupt := false } : State).takeException
      .systemReset s.pc 0 s.sresetCorrupt)
  else if s.mcheckPending then
    some (({ s with mcheckPending := false, mcheckCorrupt := false } : State).machineCheck s.mcheckCorrupt)
  else if msrEE s.msr && s.extSignal then some (s.takeException .external s.pc 0 false)
  else if msrEE s.msr && s.decPending then
    some (({ s with decPending := false } : State).takeException .decrementer s.pc 0 false)
  else none

/-- Reduced power mode is implemented and on (60_exceptions.md R179). -/
def State.reducedPower (s : State) : Bool := msrPOW s.msr && s.params.pow

/-- In reduced power mode with no exception to take: the processor waits for the environment's coming events, and
has no step when none is to come (60_exceptions.md R179, R209; notes/assumptions/21.md). -/
def State.waitForInput (s : State) : Host.Outcome State Fault Refusal :=
  match s.inputs with
  | [] => .refused .reducedPower
  | _ :: _ => .next s

end Sys2Proof.Machine
end

