-- ==== Sys2Proof/Machine/OtherWords.lean ====
section
/-! DEFINITION. Words that decode to no row of the opcode table: absent words, further privileged words, the
floating-point class, the branch class and the optional no-ops (30_encoding.md R68 to R70, 41 R90, 44 R120 to R122,
R127), in the order of 60_exceptions.md R172. -/

namespace Sys2Proof.Machine

/-- What the parameter `Exec` reports becomes the machine's state: registers, and the FPSCR with VX and FEX
recomputed (44, before R123). -/
def State.applyFp (t : State) (e : FpEffect) : State :=
  { t with gpr := e.gpr, fpr := e.fpr, cr := e.cr, fpscr := fpscrRecompute e.fpscr }

/-- What a floating-point instruction may read. -/
def State.fpView (t : State) (operand : List Byte) : FpView := ⟨t.gpr, t.fpr, t.cr, t.fpscr, operand⟩

/-- `Exec`'s effect takes place: the floating-point assist exception where it is implemented and asked for (60 R148),
else the writes, then the enabled exception or completion (44 R122). -/
def State.completeExec (t : State) (m w : Word) (e : FpEffect) : State :=
  if t.params.fpAssist && e.assist then t.takeException .fpAssist t.pc 0 false
  else (t.applyFp e).advance.completeFp t.pc m w

/-- A floating-point instruction that accesses no memory. -/
def State.fpOperate (t : State) (m w : Word) : Host.Outcome State Fault Refusal :=
  match Config.execFloating w (t.fpView []) with
  | none => .refused (.outsideExec w)
  | some e => .next (t.completeExec m w e)

/-- The bytes of an operand in address order, put most significant first, or back, in the byte order of MSR[LE]
(20_memory.md R41, and R50 for a misaligned one; notes/assumptions/18.md). -/
def State.orderBytes (t : State) (bs : List Byte) : List Byte := if msrLE t.msr then bs.reverse else bs

/-- A floating-point load: its operand's bytes go to `Exec` (44 R121). -/
def State.fpLoad (t : State) (m w ea : Word) (n : Nat) : Host.Outcome State Fault Refusal :=
  match t.readBytes .load ea n with
  | .error f => .next (t.accessException f ea n)
  | .ok bs =>
    match Config.execFloating w (t.fpView (t.orderBytes bs)) with
    | none => .refused (.outsideExec w)
    | some e => .next (t.afterAccess.completeExec m w e)

/-- A floating-point store: a DSI or machine check of its address comes first, then the floating-point assist, where
`Exec` asks for it, then the store of the bytes `Exec` supplies (44 R121, 60_exceptions.md R172). -/
def State.fpStore (t : State) (m w ea : Word) (n : Nat) : Host.Outcome State Fault Refusal :=
  match t.physBytes .store ea n with
  | .error f => .next (t.accessException f ea n)
  | .ok as =>
    match Config.execFloating w (t.fpView []) with
    | none => .refused (.outsideExec w)
    | some e =>
      if t.params.fpAssist && e.assist then .next (t.takeException .fpAssist t.pc 0 false)
      else
        .next (((State.storeBytes as (t.orderBytes (e.operand.toList.take n)) t).afterAccess.applyFp e).advance.completeFp
          t.pc m w)

/-- A word of the floating-point class outside the opcode table, MSR[FP] being 1 (44 R120, R121). -/
def State.execFloating (s : State) (w : Word) : Host.Outcome State Fault Refusal :=
  let ea := s.fpAddress w
  let n := fpOperandSize w
  if isFpLoad w then
    s.withAlignment (s.fpCauses ea n) .load ea n n fun t => t.fpLoad s.msr w ea n
  else if isFpStore w then
    s.withAlignment (s.fpCauses ea n) .store ea n n fun t => t.fpStore s.msr w ea n
  else s.fpOperate s.msr w

/-- A word of the branch class: `Exec` supplies target and link behaviour; the low two bits of the target are
dropped (44 R127, 20_memory.md R51). -/
def State.execBranch (s : State) (w : Word) : Host.Outcome State Fault Refusal :=
  match Config.execBranch w ⟨s.pc, s.cr, s.lr, s.ctr⟩ with
  | none => .refused (.outsideExec w)
  | some e =>
    .next (({ s with pc := e.target &&& ~~~0x00000003, lr := e.lr, ctr := e.ctr } : State).retire s.msr w)

/-- A word in no row of the opcode table, in the order of 60_exceptions.md R172: absent, privileged, floating-point
unavailable, then an optional no-op (30_encoding.md R70) or what the classes do. -/
def State.execUnlisted (s : State) (w : Word) : Host.Outcome State Fault Refusal :=
  if wordIn s.params.optionalAbsent w && !wordIn s.params.optionalNop w then .next (s.program .illegal s.pc)
  else if wordIn s.params.privileged w && msrPR s.msr then .next (s.program .privileged s.pc)
  else if isFloatingPoint w && !msrFP s.msr then .next s.fpUnavailable
  else if wordIn s.params.optionalNop w then .next (s.advance.retire s.msr w)
  else if isFloatingPoint w then s.execFloating w
  else if isBranch w then s.execBranch w
  else .refused (.unknownWord w)

/-- A word that decodes to no instruction of the table; one that matches a row but for its reserved fields is refused
(30_encoding.md R69; notes/assumptions/24.md). -/
def State.execOther (s : State) (w : Word) : DecodeError → Host.Outcome State Fault Refusal
  | .reservedField mnemonic => .refused (.invalidForm mnemonic)
  | .noRow => s.execUnlisted w
  | .tooShort => .refused (.unknownWord w)

end Sys2Proof.Machine
end

