-- ==== Sys2Proof/Machine/Fetch.lean ====
section
/-! DEFINITION. Fetching and running one instruction (60_exceptions.md R173), and storing a word where the next fetch
reads it. -/

namespace Sys2Proof.Machine

/-- The SRR1 bits an ISI reports: 1, 3 and 4 (60_exceptions.md R182). -/
def isiMask : Word := 0x58000000

/-- `Fetch(pc)`: the word, or what the attempt comes to (60_exceptions.md R134, R132; 20_memory.md R57). -/
def State.fetch (s : State) : Except (Host.Outcome State Fault Refusal) Word :=
  match s.physBytes .fetch s.pc 4 with
  | .error .machineCheck => .error (.next s.accessMachineCheck)
  | .error (.storage cause) => .error (.next (s.takeException .isi s.pc (cause &&& isiMask) false))
  | .ok as =>
    if as.any fun a => s.stored.contains a then .error (.refused .fetchOfStoredLocation)
    else .ok (wordOfBytes (msrLE s.msr) (as.map s.mem.read))

/-- A fetch has been made: it disturbs SRR0 and SRR1 when MSR[IR] = 1 (60_exceptions.md R162). -/
def State.afterFetch (s : State) : State := if msrIR s.msr then s.disturbSrr else s

/-- The implementation-specific exception that executing `w` raises, if there is one, and the state after the free
values that decided it (60_exceptions.md R144, R150; notes/assumptions/25.md). -/
def State.raisedVector (w : Word) : List ImplVector → State → Option (BitVec 6) × State
  | [], s => (none, s)
  | v :: vs, s =>
    if v.atImplementationOffset && wordIn v.words w then
      if s.drawnBool then (some v.page, s.skip 1) else State.raisedVector w vs (s.skip 1)
    else State.raisedVector w vs s

/-- What the word means by itself. -/
def State.runDecoded (s : State) (w : Word) : Host.Outcome State Fault Refusal :=
  match decodeWord w with
  | .ok i => exec i s
  | .error e => s.execOther w e

/-- Run the word fetched (60_exceptions.md R173): the illegal program exception exactly for the words `IsIllegal` holds
of (30_encoding.md R68, 60 R172), then an exception the implementation adds, then the word's own meaning. -/
def State.run (s : State) (w : Word) : Host.Outcome State Fault Refusal :=
  if wordIn s.params.illegal w then .next (s.program .illegal s.pc)
  else
    match State.raisedVector w s.params.implVectors s with
    | (some page, t) => .next (t.implementationException page)
    | (none, t) => t.runDecoded w

/-- Fetch the instruction at pc and run it. -/
def State.fetchAndRun (s : State) : Host.Outcome State Fault Refusal :=
  match s.fetch with
  | .error o => o
  | .ok w => s.afterFetch.run w

/-- The step from an instruction boundary, the environment's events having taken effect (60_exceptions.md R173). -/
def State.stepBoundary (s : State) : Host.Outcome State Fault Refusal :=
  match s.boundary with
  | some t => .next t
  | none => if s.reducedPower then s.waitForInput else s.fetchAndRun

/-- Bytes put at physical addresses from outside the machine; they are not stores of the processor. -/
def State.placeBytes : List Nat → List Byte → State → State
  | a :: as, b :: bs, s =>
    State.placeBytes as bs { s with mem := s.mem.write a b, stored := s.stored.filter (· != a) }
  | _, _, s => s

/-- A word put where the next fetch reads it, in the byte order of MSR[LE]. -/
def State.placeWord (s : State) (w : Word) : State :=
  match s.physBytes .fetch s.pc 4 with
  | .ok as => State.placeBytes as (bytesOfWord (msrLE s.msr) w) s
  | .error _ => s

end Sys2Proof.Machine
end

