-- ==== Sys2Proof/Machine/Step.lean ====
section
/-! DEFINITION. One step of the machine (60_exceptions.md R173). -/

namespace Sys2Proof.Machine

/-- One step: none in the checkstop state (R170); else the environment's events take effect, then an exception is
taken at the instruction boundary, or the next instruction is fetched and run (R173). -/
def step (s : State) : Host.Outcome State Fault Refusal :=
  if s.checkstop then .fault .checkstop else s.deliver.stepBoundary

/-- The state with the instruction whose table bits are `w` stored where `step` fetches its next instruction; it
stands for a program loaded from outside the machine (notes/assumptions/20.md). -/
def State.withFetchWord (s : State) (nbits w : Nat) : State := s.placeWord (BitVec.ofNat 32 (w % 2 ^ nbits))

end Sys2Proof.Machine
end

