-- ==== Sys2Proof/Safety.lean ====
section
/-! DEFINITION. What the statements mean by a well-kept state, an instruction that completes, an exception that is
taken, and an access that is performed. -/

namespace Sys2Proof.Machine

/-- The invariant every step keeps. -/
structure Inv (s : State) : Prop where
  /-- Memory is in its canonical form. -/
  mem : Memory.wf s.mem
  /-- The table of an implementation's own special-purpose registers is in its canonical form. -/
  implSprs : Cells.wf 0 1024 s.implSprs
  /-- The list of stored addresses is in its canonical form. -/
  stored : storedWf s.stored
  /-- The pc is a multiple of 4 (10_state.md R35). -/
  pc : s.pc &&& 0x00000003 = 0
  /-- A reserved MSR bit holds 0 (10_state.md R11). -/
  msr : s.msr &&& reservedBits s.params = 0
  /-- FEX and VX are what the other FPSCR bits make them (44, before R123). -/
  fpscr : fpscrRecompute s.fpscr = s.fpscr
  /-- The floating-point enabled condition does not stand at an instruction boundary: the instruction that completes
  it takes the exception (60_exceptions.md R138). -/
  fpEnabled : s.fpEnabledCondition = false

/-- The trace exception is due after instruction `w`, started in this state, has completed (60_exceptions.md R147): it
is implemented, and SE = 1 with `w` not exempt, or BE = 1 with `w` a branch. -/
def State.traced (s : State) (w : Word) : Bool :=
  s.params.trace && ((msrSE s.msr && !wordIn s.params.traceExempt w) || (msrBE s.msr && isBranch w))

/-- The word is left to the rules of the spec: the implementation neither has it as illegal (30_encoding.md R68) nor
raises an exception type of its own on it (60_exceptions.md R144, R150). -/
def State.architected (s : State) (w : Word) : Prop :=
  wordIn s.params.illegal w = false ∧ ∀ v ∈ s.params.implVectors, wordIn v.words w = false

/-- The implementation performs the access under each of these alignment conditions (20_memory.md R50). -/
def State.performs (s : State) (cs : List AlignCause) : Prop := ∀ c ∈ cs, alignPolicy s.params.align c = .perform

/-- Data translation is off and each of the `n` bytes at `ea` has a valid physical address (20_memory.md R48, R49). -/
def State.reaches (s : State) (ea : Word) (n : Nat) : Prop :=
  msrDR s.msr = false ∧ ∀ k < n, isAbsent s.params (ea + BitVec.ofNat 32 k).toNat = false

/-- The k-th byte of the operand at `ea`, translation being off. -/
def State.byteAt (s : State) (ea : Word) (k : Nat) : Byte := s.mem.read (ea + BitVec.ofNat 32 k).toNat

/-- The word of memory at `ea` in the byte order of MSR[LE], translation being off (20_memory.md R41). -/
def State.wordAt (s : State) (ea : Word) : Word :=
  wordOfBytes (msrLE s.msr) [s.byteAt ea 0, s.byteAt ea 1, s.byteAt ea 2, s.byteAt ea 3]

/-- Address `a` is one of the `n` bytes at `ea`. -/
def inOperand (ea : Word) (n a : Nat) : Prop := ∃ k < n, a = (ea + BitVec.ofNat 32 k).toNat

/-- `t` is `s` after an exception of type `T` has been taken with SRR0 = `a` and the information `info`
(60_exceptions.md R158, R161): nothing but SRR0, SRR1, MSR and pc changes (and the model's count of free values); SRR0
and SRR1 are defined (R162). -/
structure TookException (s t : State) (T : ExcType) (a info : Word) : Prop where
  srr0 : t.srr0 = a
  /-- SRR1 bits 1-4 and 10-15. -/
  info : t.srr1 &&& 0x783F0000 = info
  /-- SRR1 bits 16-23, 25-27 and 30-31 are the old MSR's. -/
  saved : t.srr1 &&& 0x0000FF73 = s.msr &&& 0x0000FF73
  /-- ILE and IP are kept, ME too but for a machine check that clears it, LE is ILE, the other defined bits are 0. -/
  msr : t.msr &&& 0x0005FF73 =
    (s.msr &&& (if T = .machineCheck ∧ s.params.mcClearsMe = true then 0x00010040 else 0x00011040)) |||
      (if msrILE s.msr then 0x00000001 else 0)
  /-- Reserved bits are not altered. -/
  reserved : t.msr &&& 0xFFFA008C = s.msr &&& 0xFFFA008C
  pc : t.pc = (if msrIP s.msr then 0xFFF00000 else 0x00000000) + T.offset
  frame : t = { s with
    srr0 := t.srr0, srr1 := t.srr1, srr0Undefined := false, srr1Undefined := false, msr := t.msr, pc := t.pc,
    draws := t.draws }

/-- Instruction `w`, started in `s`, has completed with `t`, and `u` is what the step leaves: `t` itself, or where the
trace exception is due `t` after that exception, SRR0 the address of the next instruction (60_exceptions.md R147). -/
structure Retired (s : State) (w : Word) (t u : State) : Prop where
  plain : s.traced w = false → u = t
  traced : s.traced w = true → TookException t u .trace t.pc 0

/-- `t` is `s` after a DSI or alignment exception `T` of the instruction at pc, whose operand is the `n` bytes at
`ea` (10_state.md R30, R31; 60_exceptions.md R167): as `TookException`, and DAR is an address of the operand. -/
def TookAccessException (s t : State) (T : ExcType) (ea : Word) (n : Nat) : Prop :=
  TookException { s with dar := t.dar, dsisr := t.dsisr } t T s.pc 0 ∧ inOperand ea n t.dar.toNat

/-- `t` is `s` after a machine check condition that an access raised (60_exceptions.md R132, R154, R170): with ME = 1
the exception, SRR0 and the information being free and SRR1[30] = 1 saying that SRR1 saves the MSR (R169, R181, R182);
with ME = 0 the checkstop state and no other change. -/
structure TookMachineCheck (s t : State) : Prop where
  msr : msrME s.msr = true → t.msr = newMsr s.params .machineCheck s.msr
  pc : msrME s.msr = true → t.pc = (if msrIP s.msr then 0xFFF00200 else 0x00000200)
  saved : msrME s.msr = true → t.srr1.getMsbD 30 = true → t.srr1 &&& 0x0000FF73 = s.msr &&& 0x0000FF73
  frame : msrME s.msr = true → t = { s with
    srr0 := t.srr0, srr1 := t.srr1, srr0Undefined := false, srr1Undefined := false, msr := t.msr, pc := t.pc,
    draws := t.draws }
  stops : msrME s.msr = false → t = { s with checkstop := true, draws := t.draws }

/-- `t` is `s` after what a data access of the `n` bytes at `ea` that cannot be made comes to: a DSI where translation
fails (60_exceptions.md R133), a machine check condition at an invalid physical address (R132). -/
def TookAccessFault (s t : State) (f : AccessFault) (ea : Word) (n : Nat) : Prop :=
  match f with
  | .storage _ => TookAccessException s t .dsi ea n
  | .machineCheck => TookMachineCheck s t

/-- What a Move to FPSCR instruction `i` that makes the FPSCR `f` leaves besides (44_floating_point_class.md, before
R123, and R123): VX and FEX computed, CR1 copied with `rc`, and either completion at CIA + 4 or, when FEX = 1 and FE0-FE1
is not 0b00, the floating-point enabled program exception with SRR0 = CIA. -/
structure MovedToFpscr (s : State) (i : Instr) (f : Word) (rc : Bool) (u : State) : Prop where
  vx : f.getMsbD 2 = fpscrInvalid f
  fex : f.getMsbD 1 = fpscrEnabled f
  completes : (msrFE s.msr && f.getMsbD 1) = false →
    Retired s (encode i) { s with
      fpscr := f, pc := s.pc + 4
      cr := if rc then (s.cr &&& 0xF0FFFFFF) ||| ((f &&& 0xF0000000) >>> 4) else s.cr } u
  traps : (msrFE s.msr && f.getMsbD 1) = true →
    TookException { s with
      fpscr := f
      cr := if rc then (s.cr &&& 0xF0FFFFFF) ||| ((f &&& 0xF0000000) >>> 4) else s.cr } u .program s.pc 0x00100000

end Sys2Proof.Machine
end

