-- ==== Sys2Proof/Certificates/Slice0/Obligations.lean ====
section
/-! DEFINITION. The statements for the provers, each with the rule of spec/ it comes from. -/

open Sys2Proof
open Sys2Proof.Machine

/-! ### Encoding -/

/-- Decoding the encoding of any instruction gives it back, from a word and from bytes in either byte order
(30_encoding.md R60 to R67, section 3). -/
def Obligations.DecodeOfEncodeGivesTheInstruction : Prop :=
  ∀ (i : Instr) (le : Bool) (rest : List Byte),
    decodeWord (encode i) = .ok i ∧ decodeBytes le (bytesOfWord le (encode i) ++ rest) = .ok (i, rest)

/-- A word that decodes to an instruction is the encoding of it: no bit of the word is dropped. -/
def Obligations.EncodeOfDecodeGivesTheWord : Prop :=
  ∀ (w : Word) (i : Instr), decodeWord w = .ok i → encode i = w

/-- Words written out from the spec's own examples decode to the instructions they stand for. -/
def Obligations.ExampleWordsDecode : Prop :=
  decodeWord 0x44000002 = .ok .sc ∧ decodeWord 0x4C000064 = .ok .rfi ∧
    decodeWord 0x7E032008 = .ok (.tw 16 3 4) ∧ decodeWord 0x0C83FFFF = .ok (.twi 4 3 0xFFFF) ∧
    decodeWord 0x7C7A02A6 = .ok (.mfspr 3 26) ∧ decodeWord 0x7C7603A6 = .ok (.mtspr 22 3) ∧
    decodeWord 0xBBE1FFFC = .ok (.lmw 31 1 0xFFFC) ∧ decodeWord 0x7CA0212D = .ok (.stwcx 5 0 4) ∧
    decodeWord 0xFF00810C = .ok (.mtfsfi 6 8 false) ∧ decodeWord 0xFDFE0D8E = .ok (.mtfsf 0xFF 1 false)

/-- R66: the SPR field holds the register number with its two 5-bit halves swapped, and spr[0], instruction bit 11,
is (n div 16) mod 2. -/
def Obligations.SprFieldHoldsTheNumberSwapped : Prop :=
  ∀ (r : Reg) (n : BitVec 10),
    ∀ w ∈ [encode (.mfspr r n), encode (.mtspr n r)],
      (field w 11 5).toNat = n.toNat % 32 ∧ (field w 16 5).toNat = n.toNat / 32 ∧
        (w.getMsbD 11 = true ↔ n.toNat / 16 % 2 = 1) ∧ (sprSupervisor n = true ↔ n.toNat / 16 % 2 = 1)

/-- R69: a word that matches a row on its opcodes and has a reserved field that is not the row's is refused, whatever
MSR[FP] is (notes/assumptions/24.md). The premise leaves out words that the implementation has as illegal (R68) or
raises an exception type of its own on (R144, R150). -/
def Obligations.ReservedFieldsAreRefused : Prop :=
  ∀ (s : State) (w : Word), s.architected w →
    ((opcd w = 17 ∧ w ≠ 0x44000002) ∨ (opcd w = 19 ∧ extOpcd w = 50 ∧ w ≠ 0x4C000064) ∨
      (opcd w = 31 ∧ extOpcd w = 150 ∧ w.getMsbD 31 = false) ∨
      (opcd w = 31 ∧ extOpcd w ∈ [4, 20, 83, 146, 310, 339, 438, 467, 533, 597, 661, 725] ∧ w.getMsbD 31 = true) ∨
      (opcd w = 31 ∧ extOpcd w ∈ [83, 146] ∧ field w 11 10 ≠ 0) ∨
      (opcd w = 63 ∧
        ((extOpcd w ∈ [38, 70] ∧ field w 11 10 ≠ 0) ∨ (extOpcd w = 134 ∧ (field w 9 7 ≠ 0 ∨ w.getMsbD 20 = true)) ∨
          (extOpcd w = 711 ∧ (w.getMsbD 6 = true ∨ w.getMsbD 15 = true))))) →
      ∃ m, s.run w = .refused (.invalidForm m)

/-- R41: the four bytes of a word read back as the word in the same byte order; in big-endian mode the first byte is
the most significant, in little-endian mode the least. -/
def Obligations.ByteOrderOfAWord : Prop :=
  ∀ (w : Word) (le : Bool),
    wordOfBytes le (bytesOfWord le w) = w ∧
      (∀ b0 b1 b2 b3 : Byte, wordOfBytes false [b0, b1, b2, b3] = b0 ++ b1 ++ b2 ++ b3 ∧
        wordOfBytes true [b0, b1, b2, b3] = b3 ++ b2 ++ b1 ++ b0)

/-! ### The step, reset and the invariant -/

/-- A step runs the decoded instruction: when the processor is not stopped, no exception is taken at the boundary and
the bytes at pc decode to an instruction that the implementation has neither as illegal nor raises an exception type of
its own on, the step is that instruction's meaning, after the environment's events and after what a translated fetch does
to SRR0 and SRR1 (60_exceptions.md R173). -/
def Obligations.StepRunsTheDecodedInstruction : Prop :=
  ∀ (s : State) (as : List Nat) (i : Instr),
    let w := wordOfBytes (msrLE s.deliver.msr) (as.map s.deliver.mem.read)
    s.checkstop = false → s.deliver.boundary = none → s.deliver.reducedPower = false →
    s.deliver.physBytes .fetch s.deliver.pc 4 = .ok as → (∀ a ∈ as, a ∉ s.deliver.stored) →
    s.deliver.architected w → decodeWord w = .ok i →
      step s = exec i s.deliver.afterFetch ∧ (msrIR s.deliver.msr = false → s.deliver.afterFetch = s.deliver) ∧
        (s.inputs = [] → s.deliver = s)

/-- R134, R162, R57: with no exception at the boundary, a fetch whose translation fails takes the ISI with SRR0 = pc
and the cause in SRR1, a fetch from an invalid physical address takes the machine check or enters the checkstop state
(R132, R154), a fetch of a location this processor has stored to is refused, and any other runs the word. That each
byte is translated on its own is the model's choice (notes/assumptions/10.md), and so is the free corrupt flag of the
machine check (notes/assumptions/22.md). -/
def Obligations.FetchOutcomes : Prop :=
  ∀ s : State, s.checkstop = false → s.deliver.boundary = none → s.deliver.reducedPower = false →
    match s.deliver.physBytes .fetch s.deliver.pc 4 with
    | .error (.storage c) =>
      ∃ t, step s = .next t ∧ TookException s.deliver t .isi s.deliver.pc (c &&& 0x58000000)
    | .error .machineCheck => ∃ t, step s = .next t ∧ TookMachineCheck s.deliver t
    | .ok as =>
      ((∃ a ∈ as, a ∈ s.deliver.stored) → step s = .refused .fetchOfStoredLocation) ∧
        ((∀ a ∈ as, a ∉ s.deliver.stored) →
          step s = s.deliver.afterFetch.run (wordOfBytes (msrLE s.deliver.msr) (as.map s.deliver.mem.read)))

/-- R170, R162, R83: a step from the checkstop state, and from no other, is the checkstop fault; the other fault comes
only at supervisor level, of an `rfi` which finds SRR0 or SRR1 undefined after a translated access, or of an `mfspr` which
reads the one that is (R92 admits a draw there too, and the model takes the fault of R162: notes/assumptions/6.md). -/
def Obligations.StepFaultsOnlyInCheckstopOrOnUndefinedSrr : Prop :=
  ∀ s : State, (step s = .fault .checkstop ↔ s.checkstop = true) ∧
    (step s = .fault .undefinedSrr →
      msrPR s.deliver.msr = false ∧ s.params.srrVolatile = true ∧
        ∃ w, s.deliver.fetch = .ok w ∧
          ((w = encode .rfi ∧ s.deliver.afterFetch.savedContextUndefined = true) ∨
            (∃ r, w = encode (.mfspr r 26) ∧ s.deliver.afterFetch.srr0Undefined = true) ∨
            (∃ r, w = encode (.mfspr r 27) ∧ s.deliver.afterFetch.srr1Undefined = true)))

/-- R200: after power-on reset of an implementation MSR is `P_RESET_MSR`, pc is `P_RESET_PC` and checkstop is 0. With
the default parameters MSR is 0x00000040 and pc is 0xFFF00100, so the processor is at supervisor level, big-endian,
interrupts and machine checks disabled, translation off, floating point unavailable. -/
def Obligations.ResetIsThePowerOnState : Prop :=
  (∀ p : Params, (State.powerOn p).msr = p.resetMsr ∧ (State.powerOn p).pc = p.resetPc ∧
    (State.powerOn p).checkstop = false ∧ (State.powerOn p).params = p) ∧
  State.reset = State.powerOn Params.default ∧
  State.reset.msr = 0x00000040 ∧ State.reset.pc = 0xFFF00100 ∧ State.reset.checkstop = false ∧
    msrPR State.reset.msr = false ∧ msrEE State.reset.msr = false ∧ msrME State.reset.msr = false ∧
    msrIR State.reset.msr = false ∧ msrDR State.reset.msr = false ∧ msrLE State.reset.msr = false ∧
    msrFP State.reset.msr = false ∧ msrIP State.reset.msr = true ∧
    State.reset.pc = vectorAddress (msrIP State.reset.msr) .systemReset

/-- The reset state satisfies the invariant, and so does the power-on state of every implementation whose `P_RESET_PC`
is a multiple of 4 and whose `P_RESET_MSR` has no reserved bit. The FPSCR, memory and the stored addresses there are the
model's choice (notes/assumptions/2.md, 3.md), and so are the implementation's own registers (29.md). -/
def Obligations.ResetSatisfiesTheInvariant : Prop :=
  Inv State.reset ∧
    ∀ p : Params, p.resetPc &&& 0x00000003 = 0 → p.resetMsr &&& reservedBits p = 0 → Inv (State.powerOn p)

/-- Every step keeps the invariant: canonical memory and tables, a pc that is a multiple of 4, reserved MSR bits 0, coherent
FPSCR summary bits, and no floating-point enabled condition standing at a boundary (R11, R35, R138, 44 before R123).
That memory has a canonical form, and that `rfi` reports the enabled condition, are the model's (notes/assumptions/3.md,
9.md). -/
def Obligations.StepKeepsTheInvariant : Prop := ∀ s t : State, Inv s → step s = .next t → Inv t

/-! ### Taking an exception -/

/-- R161, R158, R157: taking an exception of any type writes SRR0, SRR1, MSR and pc, and nothing else: the information
and the saved MSR bits go to SRR1, the implementation's extra MSR bits too, and the MSR is set as R158 says. SRR0 and
SRR1 are defined afterwards (R162). -/
def Obligations.ExceptionEntryTransition : Prop :=
  ∀ (s : State) (T : ExcType) (a info : Word),
    TookException s (s.takeException T a info false) T a (info &&& 0x783F0000) ∧
      (s.takeException T a info false).srr1 &&& (s.params.srr1ExtraMask &&& 0x87C0008C) =
        s.msr &&& (s.params.srr1ExtraMask &&& 0x87C0008C)

/-- R169: the copy of RI in SRR1 is the old MSR[RI], cleared when the processor state is corrupted; with corrupted
state SRR0 and the rest of SRR1 are free values; MSR[RI] is cleared. -/
def Obligations.RecoverableCopy : Prop :=
  ∀ (s : State) (T : ExcType) (a info : Word) (corrupt : Bool),
    (s.takeException T a info corrupt).srr1.getMsbD 30 = (msrRI s.msr && !corrupt) ∧
      msrRI (s.takeException T a info corrupt).msr = false ∧
      (corrupt = true → ∃ v0 v1 : Word, (s.takeException T a info corrupt).srr0 = v0 ∧ v0 = s.drawn 1 ∧
        (s.takeException T a info corrupt).srr1 = v1 &&& ~~~0x00000002 ∧ v1 = s.drawn 0)

/-- R47, R130, R144, R150: the vector address of each exception type under each exception prefix. A type that the
implementation adds lies at 0x00A00 or at 0x01000 to 0x02FFF, none is there unless `P_IMPL_VECTORS` supplies one, and one
that is raised is taken. That a free value decides whether a word raises it, and that SRR0 and the information are free,
is the model's form of it (notes/assumptions/25.md). -/
def Obligations.VectorAddresses : Prop :=
  (∀ ip : Bool,
    [ExcType.systemReset, .machineCheck, .dsi, .isi, .external, .alignment, .program, .fpUnavailable, .decrementer,
        .systemCall, .trace, .fpAssist].map (vectorAddress ip) =
      ([0x00100, 0x00200, 0x00300, 0x00400, 0x00500, 0x00600, 0x00700, 0x00800, 0x00900, 0x00C00, 0x00D00,
        (0x00E00 : Word)].map fun o => (if ip then 0xFFF00000 else 0x00000000) + o) ∧
    ∀ page : BitVec 6, vectorAddress ip (.implementation page) =
      (if ip then 0xFFF00000 else 0x00000000) + BitVec.ofNat 32 (0x100 * page.toNat)) ∧
  ∀ (s : State) (w : Word),
    (s.params.implVectors = [] → State.raisedVector w s.params.implVectors s = (none, s)) ∧
    match State.raisedVector w s.params.implVectors s with
    | (none, t) => t = { s with draws := t.draws } ∧ (wordIn s.params.illegal w = false → s.run w = t.runDecoded w)
    | (some page, _) =>
      (∃ v ∈ s.params.implVectors, v.page = page ∧ wordIn v.words w = true) ∧
        (page.toNat = 0x0A ∨ (0x10 ≤ page.toNat ∧ page.toNat ≤ 0x2F)) ∧
        (wordIn s.params.illegal w = false →
          ∃ t a info, s.run w = .next t ∧ TookException s t (.implementation page) a info)

/-- R165, R166, R164, R143: with EE = 1 and no system reset or machine check pending, the step takes the external
interrupt when the signal is asserted, SRR0 the address of the next instruction, SRR1's information bits cleared, the
request not cancelled; else the decrementer exception when it is pending, which clears the pending bit. -/
def Obligations.EnabledInterruptsAreTaken : Prop :=
  ∀ s : State, s.checkstop = false → s.deliver.sresetPending = false → s.deliver.mcheckPending = false →
    msrEE s.deliver.msr = true →
      (s.deliver.extSignal = true →
        ∃ t, step s = .next t ∧ TookException s.deliver t .external s.deliver.pc 0 ∧
          t.pc = (if msrIP s.deliver.msr then 0xFFF00500 else 0x00000500) ∧ t.extSignal = true) ∧
      (s.deliver.extSignal = false → s.deliver.decPending = true →
        ∃ t, step s = .next t ∧
          TookException { s.deliver with decPending := false } t .decrementer s.deliver.pc 0)

/-- R177, R143: a tick counts the decrementer down by one modulo 2^32 and sets the pending bit exactly when it passes
from 0x00000000 to 0xFFFFFFFF; whatever a step does, a pending decrementer exception stays pending unless the step
takes that exception. -/
def Obligations.DecrementerPendsUntilTaken : Prop :=
  (∀ s : State, s.occur .decrementerTick =
    { s with dec := s.dec - 1, decPending := s.decPending || s.dec == 0x00000000 }) ∧
  ∀ s t : State, step s = .next t → s.decPending = true →
    t.decPending = true ∨
      (msrEE s.deliver.msr = true ∧ t.srr0 = s.deliver.pc ∧
        t.pc = vectorAddress (msrIP s.deliver.msr) .decrementer ∧ msrEE t.msr = false)

/-- R153, R14: at an instruction boundary an exception is taken exactly when a system reset or machine check condition
is pending, or EE = 1 and the external signal or the decrementer is pending. -/
def Obligations.BoundaryExceptionsAreExactlyTheEnabledOnes : Prop :=
  ∀ s : State, s.boundary = none ↔
    (s.sresetPending = false ∧ s.mcheckPending = false ∧
      (msrEE s.msr = false ∨ (s.extSignal = false ∧ s.decPending = false)))

/-- R131, R171: a system reset condition is taken first, whatever else is pending, and the rest stays pending. -/
def Obligations.SystemResetTakenFirst : Prop :=
  ∀ s : State, s.checkstop = false → s.deliver.sresetPending = true →
    ∃ t, step s = .next t ∧ t.pc = (if msrIP s.deliver.msr then 0xFFF00100 else 0x00000100) ∧
      t.sresetPending = false ∧ t.mcheckPending = s.deliver.mcheckPending ∧ t.extSignal = s.deliver.extSignal ∧
      t.decPending = s.deliver.decPending ∧ t.gpr = s.deliver.gpr ∧ t.mem = s.deliver.mem ∧
      (s.deliver.sresetCorrupt = false →
        TookException { s.deliver with sresetPending := false, sresetCorrupt := false } t .systemReset s.deliver.pc 0)

/-- R154, R170: a machine check condition with ME = 1 is taken: MSR and pc are the entry's, ME cleared where the
implementation does so, SRR1 saves the MSR bits unless the processor state is corrupted (R169), and nothing else changes.
With ME = 0 the processor enters the checkstop state, no register changes, and it has no further step. -/
def Obligations.MachineCheckTakenOrCheckstop : Prop :=
  ∀ s : State, s.checkstop = false → s.deliver.sresetPending = false → s.deliver.mcheckPending = true →
    let b : State := { s.deliver with mcheckPending := false, mcheckCorrupt := false }
    (msrME s.deliver.msr = true →
      ∃ t, step s = .next t ∧ t.pc = (if msrIP s.deliver.msr then 0xFFF00200 else 0x00000200) ∧
        t.mcheckPending = false ∧ msrME t.msr = !s.deliver.params.mcClearsMe ∧ t.checkstop = s.deliver.checkstop ∧
        TookMachineCheck b t ∧
        (s.deliver.mcheckCorrupt = false → ∃ a info, TookException b t .machineCheck a info) ∧
        (s.deliver.mcheckCorrupt = true → t.srr1.getMsbD 30 = false)) ∧
    (msrME s.deliver.msr = false →
      ∃ t, t = { b with checkstop := true } ∧ step s = .next t ∧ step t = .fault .checkstop)

/-- R179: in reduced power mode, where it is implemented, with no exception to take, no instruction is run: the step is
refused where the environment has no further events. That it waits for them, leaving the state as it is, where there are
some is the model's choice: R173 and R179 refuse the step there too (notes/assumptions/21.md, DESIGN CHOICE). -/
def Obligations.ReducedPowerRunsNoInstruction : Prop :=
  ∀ s : State, s.checkstop = false → s.deliver.boundary = none → msrPOW s.deliver.msr = true →
    s.deliver.params.pow = true →
      (s.deliver.inputs = [] → step s = .refused .reducedPower) ∧
        (s.deliver.inputs ≠ [] → step s = .next s.deliver)

/-- R176, R90, R15: a step from user level either leaves the whole MSR as it was, so stays at user level, or enters an
exception handler: the MSR is the one an entry sets and pc is a vector address. It changes no supervisor register but
those an entry writes: without an entry DAR and DSISR, and where no translated access may change them (R162) SRR0 and
SRR1, are as before; with one DAR and DSISR are as before unless it is a DSI or alignment exception. The decrementer's
pending bit may be cleared by taking its exception. The vectors are the twelve of R130 and those of the members of
`P_IMPL_VECTORS` at an implementation's offset (notes/assumptions/25.md); that an instruction executed by the parameter `Exec` changes no supervisor register is the
model's choice (notes/assumptions/19.md). -/
def Obligations.UserLevelIsLeftOnlyThroughAVector : Prop :=
  ∀ s t : State, msrPR s.deliver.msr = true → step s = .next t →
    t.sprg = s.deliver.sprg ∧ t.sdr1 = s.deliver.sdr1 ∧ t.tbl = s.deliver.tbl ∧ t.tbu = s.deliver.tbu ∧
      t.pvr = s.deliver.pvr ∧ t.bat = s.deliver.bat ∧ t.ear = s.deliver.ear ∧ t.dec = s.deliver.dec ∧
      (∀ n, sprSupervisor n = true → t.readSpr (.impl n) = s.deliver.readSpr (.impl n)) ∧
      t.params = s.deliver.params ∧
      ((t.msr = s.deliver.msr ∧ t.dar = s.deliver.dar ∧ t.dsisr = s.deliver.dsisr ∧
          t.decPending = s.deliver.decPending ∧
          ((s.deliver.params.srrVolatile = false ∨ (msrIR s.deliver.msr = false ∧ msrDR s.deliver.msr = false)) →
            t.srr0 = s.deliver.srr0 ∧ t.srr1 = s.deliver.srr1)) ∨
        ∃ T, t.msr = newMsr s.deliver.params T s.deliver.msr ∧ t.pc = vectorAddress (msrIP s.deliver.msr) T ∧
          msrPR t.msr = false ∧
          (∀ page, T = .implementation page →
            ∃ v ∈ s.deliver.params.implVectors, v.page = page ∧ v.atImplementationOffset = true) ∧
          (T ≠ .dsi → T ≠ .alignment → t.dar = s.deliver.dar ∧ t.dsisr = s.deliver.dsisr))

/-- R147: with the trace exception implemented and SE = 1, an instruction outside the exempt set that completes is
followed by the trace exception, SRR0 the address of the next instruction: here `mfmsr`, `mtmsr`, `rfi`, `mtspr`,
`mfspr` at the levels that may run them, and trap instructions at either level that do not trap. The statements below on
every other instruction's completion say the same of it (`Retired`). A branch that completes is followed by the trace
exception with BE = 1 whether it is taken or not, SRR0 the address it went to; what it computes is the parameter `Exec`
(notes/assumptions/19.md). `rfi` and `sc` are exempt by default. -/
def Obligations.TraceFollowsCompletion : Prop :=
  (∀ (s : State) (r ra rb : Reg) (cond : BitVec 5) (spr : BitVec 10) (simm : BitVec 16),
    s.params.trace = true → msrSE s.msr = true →
    let exempt (i : Instr) : Prop := wordIn s.params.traceExempt (encode i) = true
    (msrPR s.msr = false → ¬exempt (.mfmsr r) →
      ∃ t, exec (.mfmsr r) s = .next t ∧ TookException (s.setGpr r s.msr) t .trace (s.pc + 4) 0) ∧
    (msrPR s.msr = false → s.readGpr r &&& reservedBits s.params = 0 →
      (s.fpscr.getMsbD 1 && msrFE (s.readGpr r)) = false → ¬exempt (.mtmsr r) →
      ∃ t, exec (.mtmsr r) s = .next t ∧ TookException { s with msr := s.readGpr r } t .trace (s.pc + 4) 0) ∧
    (msrPR s.msr = false → s.savedContextUndefined = false → s.srr1 &&& 0x0000FF73 &&& reservedBits s.params = 0 →
      (s.fpscr.getMsbD 1 && msrFE s.srr1) = false → ¬exempt .rfi →
      ∃ t, exec .rfi s = .next t ∧
        TookException { s with msr := (s.msr &&& ~~~0x0000FF73) ||| (s.srr1 &&& 0x0000FF73) } t .trace
          (s.srr0 &&& ~~~0x00000003) 0) ∧
    ((sprSupervisor spr && msrPR s.msr) = false →
      (∀ q, writableSpr s.params spr = some q → ¬exempt (.mtspr spr r) →
        ∃ t, exec (.mtspr spr r) s = .next t ∧
          TookException (s.writeSpr q (s.readGpr r)) t .trace (s.pc + 4) 0) ∧
      (∀ q, readableSpr s.params spr = some q → s.sprUndefined q = false → ¬exempt (.mfspr r spr) →
        ∃ t, exec (.mfspr r spr) s = .next t ∧
          TookException (s.setGpr r (s.readSpr q)) t .trace (s.pc + 4) 0)) ∧
    (trapCondition cond (s.readGpr ra) (simm.signExtend 32) = false → ¬exempt (.twi cond ra simm) →
      ∃ t, exec (.twi cond ra simm) s = .next t ∧ TookException s t .trace (s.pc + 4) 0) ∧
    (trapCondition cond (s.readGpr ra) (s.readGpr rb) = false → ¬exempt (.tw cond ra rb) →
      ∃ t, exec (.tw cond ra rb) s = .next t ∧ TookException s t .trace (s.pc + 4) 0)) ∧
  (∀ (s : State) (w : Word), isBranch w = true → s.architected w → wordIn s.params.optionalAbsent w = false →
    wordIn s.params.optionalNop w = false → (wordIn s.params.privileged w && msrPR s.msr) = false →
    match Config.execBranch w ⟨s.pc, s.cr, s.lr, s.ctr⟩ with
    | none => s.run w = .refused (.outsideExec w)
    | some e =>
      let t : State := { s with pc := e.target &&& ~~~0x00000003, lr := e.lr, ctr := e.ctr }
      ∃ u, s.run w = .next u ∧ Retired s w t u ∧
        (s.params.trace = true → msrBE s.msr = true → TookException t u .trace t.pc 0)) ∧
  wordIn Params.default.traceExempt (encode .rfi) = true ∧ wordIn Params.default.traceExempt (encode .sc) = true

/-! ### System call, traps, return, special registers -/

/-- R80: `sc`, the word 0x44000002, takes the system call exception with SRR0 = CIA + 4 and the information bits 0,
whatever the state, so at either privilege level and masked by no MSR bit; no flag, no general register and no byte of
memory changes, and no trace exception follows it. -/
def Obligations.ScTakesTheSystemCall : Prop :=
  encode .sc = 0x44000002 ∧
    ∀ s : State, ∃ t, exec .sc s = .next t ∧ TookException s t .systemCall (s.pc + 4) 0

/-- R81, R82: a trap instruction takes the program exception (trap) with SRR0 = CIA when any condition that TO selects
holds, and otherwise only advances. TO[0] selects signed less, TO[1] signed greater, TO[2] equal, TO[3] unsigned less,
TO[4] unsigned greater. -/
def Obligations.TrapInstructions : Prop :=
  ∀ (s : State) (cond : BitVec 5) (ra rb : Reg) (simm : BitVec 16),
    ∀ p ∈ [(Instr.twi cond ra simm, BitVec.ofInt 32 simm.toInt), (Instr.tw cond ra rb, s.readGpr rb)],
      let a := s.readGpr ra
      let b : Word := p.2
      let met := (cond.getMsbD 0 = true ∧ a.toInt < b.toInt) ∨ (cond.getMsbD 1 = true ∧ b.toInt < a.toInt) ∨
        (cond.getMsbD 2 = true ∧ a = b) ∨ (cond.getMsbD 3 = true ∧ a.toNat < b.toNat) ∨
        (cond.getMsbD 4 = true ∧ b.toNat < a.toNat)
      (met → ∃ t, exec p.1 s = .next t ∧ TookException s t .program s.pc 0x00020000) ∧
        (¬met → ∃ t, exec p.1 s = .next t ∧ Retired s (encode p.1) { s with pc := s.pc + 4 } t)

/-- R83, R162: `rfi` at supervisor level restores the MSR bits an entry saves from SRR1 and goes on at SRR0, its low two
bits dropped; nothing else changes. With SRR0 or SRR1 undefined it faults, which they are after a translated fetch or
data access where `P_SRR_VOLATILE` holds (the values they then hold are free: notes/assumptions/6.md). The premises of
the first clause leave out, besides, the restored bits the model refuses as reserved (R11, notes/assumptions/8.md) and a
restored FE0 or FE1 with FEX = 1 (R138). -/
def Obligations.RfiRestoresTheSavedContext : Prop :=
  ∀ s : State,
    (msrPR s.msr = false → s.savedContextUndefined = false → s.srr1 &&& 0x0000FF73 &&& reservedBits s.params = 0 →
      (s.fpscr.getMsbD 1 && (s.srr1.getMsbD 20 || s.srr1.getMsbD 23)) = false →
      ∃ t, exec .rfi s = .next t ∧ Retired s (encode .rfi) { s with
        msr := (s.msr &&& ~~~0x0000FF73) ||| (s.srr1 &&& 0x0000FF73), pc := s.srr0 &&& ~~~0x00000003 } t) ∧
    (msrPR s.msr = false → s.savedContextUndefined = true → exec .rfi s = .fault .undefinedSrr) ∧
    (s.params.srrVolatile = true →
      (msrIR s.msr = true → s.afterFetch.savedContextUndefined = true) ∧
        (msrDR s.msr = true → s.afterAccess.savedContextUndefined = true))

/-- R93, R94: at supervisor level `mtmsr` writes the MSR and `mfmsr` copies it to x[rD]; each advances and changes
nothing else. The premises on `mtmsr` leave out reserved bits (refused, R11) and FE0 or FE1 set with FEX = 1 (R138). -/
def Obligations.MtmsrAndMfmsrAccessTheMsr : Prop :=
  ∀ (s : State) (r : Reg), msrPR s.msr = false →
    (s.readGpr r &&& reservedBits s.params = 0 → (s.fpscr.getMsbD 1 && msrFE (s.readGpr r)) = false →
      ∃ t, exec (.mtmsr r) s = .next t ∧
        Retired s (encode (.mtmsr r)) { s with msr := s.readGpr r, pc := s.pc + 4 } t) ∧
    ∃ t, exec (.mfmsr r) s = .next t ∧
      Retired s (encode (.mfmsr r)) { s with gpr := s.gpr.set r.toNat s.msr r.isLt, pc := s.pc + 4 } t

/-- R11: an `mtmsr` or `rfi` that would set a reserved MSR bit is refused. That `rfi` counts as such a write for bits
SE and BE that are not implemented is the model's reading (notes/assumptions/8.md). -/
def Obligations.ReservedMsrBitsAreRefused : Prop :=
  ∀ (s : State) (rs : Reg), msrPR s.msr = false →
    (s.readGpr rs &&& reservedBits s.params ≠ 0 → exec (.mtmsr rs) s = .refused .reservedMsrBit) ∧
      (s.savedContextUndefined = false → s.srr1 &&& 0x0000FF73 &&& reservedBits s.params ≠ 0 →
        exec .rfi s = .refused .reservedMsrBit)

/-- R138, R93: software that sets FE0 or FE1 while FEX = 1 takes the floating-point enabled program exception at that
instruction: the new MSR is what SRR1 saves, and SRR0 is the instruction's own address. For `rfi` this is the model's
reading of R138 (notes/assumptions/9.md). -/
def Obligations.EnablingFpExceptionsWithFexTraps : Prop :=
  ∀ (s : State) (rs : Reg), msrPR s.msr = false → s.fpscr.getMsbD 1 = true →
    (s.readGpr rs &&& reservedBits s.params = 0 → msrFE (s.readGpr rs) = true →
      ∃ t, exec (.mtmsr rs) s = .next t ∧
        TookException { s with msr := s.readGpr rs } t .program s.pc 0x00100000) ∧
    (s.savedContextUndefined = false → s.srr1 &&& 0x0000FF73 &&& reservedBits s.params = 0 → msrFE s.srr1 = true →
      ∃ t, exec .rfi s = .next t ∧
        TookException { s with msr := (s.msr &&& ~~~0x0000FF73) ||| (s.srr1 &&& 0x0000FF73) } t .program s.pc
          0x00100000)

/-- R90, R140: at user level a privileged instruction takes the program exception (privileged) with SRR0 = CIA, and
has no other effect: `rfi`, `mtmsr`, `mfmsr`, and `mtspr` and `mfspr` whose SPR field has spr[0] = 1, valid or not. -/
def Obligations.PrivilegedInstructionsTrapAtUserLevel : Prop :=
  ∀ (s : State) (r : Reg) (spr : BitVec 10), msrPR s.msr = true →
    (∀ i ∈ [Instr.rfi, .mtmsr r, .mfmsr r],
      ∃ t, exec i s = .next t ∧ TookException s t .program s.pc 0x00040000) ∧
    (spr.getLsbD 4 = true → ∀ i ∈ [Instr.mtspr spr r, .mfspr r spr],
      ∃ t, exec i s = .next t ∧ TookException s t .program s.pc 0x00040000)

/-- R39: the special-purpose register numbers; spr[0] marks exactly the supervisor-only ones, all but XER, LR and CTR. By
default `mfspr` reads exactly these but TBL and TBU, and `mtspr` writes exactly these but PVR (R91). What is readable and
writable is a parameter (93_implementation_defined.md U18), and that a number R39 does not list is then a register of its
own is the model's choice (notes/assumptions/29.md). -/
def Obligations.SprNumbers : Prop :=
  ([1, 8, 9, 18, 19, 22, 25, 26, 27, 282, 284, 285, 287].map fun n => sprOf (BitVec.ofNat 10 n)) =
      [Spr.xer, .lr, .ctr, .dsisr, .dar, .dec, .sdr1, .srr0, .srr1, .ear, .tbl, .tbu, .pvr].map some ∧
    (∀ i : Fin 4, sprOf (BitVec.ofNat 10 (272 + i)) = some (.sprg i)) ∧
    (∀ i : Fin 16, sprOf (BitVec.ofNat 10 (528 + i)) = some (.bat i)) ∧
    (∀ (n : BitVec 10) (r : Spr), sprOf n = some r → (sprSupervisor n = true ↔ r ∉ [Spr.xer, .lr, .ctr])) ∧
    (∀ n : BitVec 10,
      readableSpr Params.default n = (if n = 284 ∨ n = 285 then none else sprOf n) ∧
        writableSpr Params.default n = (if n = 287 then none else sprOf n)) ∧
    ∀ (p : Params) (n : BitVec 10) (r : Spr), readableSpr p n = some r ∨ writableSpr p n = some r →
      sprOf n = some r ∨ (sprOf n = none ∧ r = .impl n)

/-- R91: `mtspr` of a writable register, where the privilege allows it, writes x[rS] to it and advances; no other
special-purpose register, no general register and no memory changes. A write of DEC that takes its top bit from 0 to 1
sets the decrementer's pending bit, and a write of SRR0 or SRR1 makes that register defined (R162). A register that an
implementation has besides those of R39 is written and read as plain storage (notes/assumptions/29.md). -/
def Obligations.MtsprWritesTheRegister : Prop :=
  ∀ (s : State) (spr : BitVec 10) (rs : Reg) (q : Spr),
    writableSpr s.params spr = some q → (sprSupervisor spr && msrPR s.msr) = false → Cells.wf 0 1024 s.implSprs →
      ∃ t u, exec (.mtspr spr rs) s = .next u ∧ Retired s (encode (.mtspr spr rs)) t u ∧
        t.readSpr q = s.readGpr rs ∧ (∀ q', q' ≠ q → t.readSpr q' = s.readSpr q') ∧ t.pc = s.pc + 4 ∧
        t.decPending = (s.decPending ||
          (decide (q = .dec) && !s.dec.getMsbD 0 && (s.readGpr rs).getMsbD 0)) ∧
        t.srr0Undefined = (s.srr0Undefined && decide (q ≠ .srr0)) ∧
        t.srr1Undefined = (s.srr1Undefined && decide (q ≠ .srr1)) ∧
        t = { s with
          xer := t.xer, lr := t.lr, ctr := t.ctr, dsisr := t.dsisr, dar := t.dar, dec := t.dec, sdr1 := t.sdr1,
          srr0 := t.srr0, srr1 := t.srr1, srr0Undefined := t.srr0Undefined, srr1Undefined := t.srr1Undefined,
          sprg := t.sprg, ear := t.ear, tbl := t.tbl, tbu := t.tbu, pvr := t.pvr, bat := t.bat,
          implSprs := t.implSprs, decPending := t.decPending,
          pc := t.pc }

/-- R92, R162: `mfspr` of a readable register, where the privilege allows it, copies it to x[rD] and advances; nothing
else changes. Of SRR0 or SRR1 where a translated access has made it undefined it faults, as R162 says; that R92 admits a
draw too is settled in favour of R162 (notes/assumptions/6.md). -/
def Obligations.MfsprReadsTheRegister : Prop :=
  ∀ (s : State) (spr : BitVec 10) (rd : Reg) (q : Spr),
    readableSpr s.params spr = some q → (sprSupervisor spr && msrPR s.msr) = false →
      let undefined : Prop := s.params.srrVolatile = true ∧
        ((q = .srr0 ∧ s.srr0Undefined = true) ∨ (q = .srr1 ∧ s.srr1Undefined = true))
      (¬undefined → ∃ t, exec (.mfspr rd spr) s = .next t ∧ Retired s (encode (.mfspr rd spr))
        { s with gpr := s.gpr.set rd.toNat (s.readSpr q) rd.isLt, pc := s.pc + 4 } t) ∧
      (undefined → exec (.mfspr rd spr) s = .fault .undefinedSrr)

/-- R71: `mtspr` and `mfspr` with an invalid SPR field: the privileged program exception with spr[0] = 1 and PR = 1,
the illegal program exception with spr[0] = 0 at either level, refused with spr[0] = 1 and PR = 0. Which fields are invalid
is the implementation's: its parameters `ReadableSPR` and `WritableSPR` (93_implementation_defined.md U18). -/
def Obligations.InvalidSprField : Prop :=
  ∀ (s : State) (spr : BitVec 10) (r : Reg) (i : Instr),
    ((i = .mtspr spr r ∧ writableSpr s.params spr = none) ∨ (i = .mfspr r spr ∧ readableSpr s.params spr = none)) →
      (spr.getLsbD 4 = true → msrPR s.msr = true →
        ∃ t, exec i s = .next t ∧ TookException s t .program s.pc 0x00040000) ∧
      (spr.getLsbD 4 = false → ∃ t, exec i s = .next t ∧ TookException s t .program s.pc 0x00080000) ∧
      (spr.getLsbD 4 = true → msrPR s.msr = false → exec i s = .refused (.invalidSpr spr))

/-! ### Load and store multiple and string -/

/-- R101: `lmw` loads the words from the effective address on into rD to r31, in the byte order of the mode, and
advances; nothing else changes. Stated, as the statements on memory below but for those on accesses that cannot be made,
with data translation off, for a valid form and a reachable operand, where the implementation performs the access under
every alignment condition that holds. That each word is little-endian in little-endian mode, of a misaligned operand too,
is the model's reading (notes/assumptions/18.md, DEDUCED: R50 gives the result as without the condition, and R41 the byte
order of aligned accesses only). -/
def Obligations.LmwLoadsWords : Prop :=
  ∀ (s : State) (rd ra : Reg) (d : BitVec 16),
    let ea := (if ra = 0 then 0 else s.readGpr ra) + BitVec.ofInt 32 d.toInt
    let n := 4 * (32 - rd.toNat)
    ra.toNat < rd.toNat → s.reaches ea n → s.performs (s.multipleCauses ea n) →
      ∃ t u, exec (.lmw rd ra d) s = .next u ∧ Retired s (encode (.lmw rd ra d)) t u ∧
        t = { s with gpr := t.gpr, pc := s.pc + 4 } ∧
        ∀ r : Reg, t.readGpr r =
          if rd.toNat ≤ r.toNat then s.wordAt (ea + BitVec.ofNat 32 (4 * (r.toNat - rd.toNat))) else s.readGpr r

/-- R102: `stmw` stores rS to r31 as words from the effective address on; every byte outside the operand is as before,
and nothing else changes. The order of the bytes of each word in little-endian mode is the model's reading, as for `lmw`
(notes/assumptions/18.md). -/
def Obligations.StmwStoresWords : Prop :=
  ∀ (s : State) (rs ra : Reg) (d : BitVec 16),
    let ea := (if ra = 0 then 0 else s.readGpr ra) + BitVec.ofInt 32 d.toInt
    let n := 4 * (32 - rs.toNat)
    s.reaches ea n → s.performs (s.multipleCauses ea n) → Memory.wf s.mem →
      ∃ t u, exec (.stmw rs ra d) s = .next u ∧ Retired s (encode (.stmw rs ra d)) t u ∧
        t = { s with mem := t.mem, stored := t.stored, pc := s.pc + 4 } ∧
        (∀ r : Reg, rs.toNat ≤ r.toNat →
          t.wordAt (ea + BitVec.ofNat 32 (4 * (r.toNat - rs.toNat))) = s.readGpr r) ∧
        (∀ a, ¬inOperand ea n a → t.mem.read a = s.mem.read a) ∧
        (∀ a, a ∈ t.stored ↔ a ∈ s.stored ∨ inOperand ea n a)

/-- R103, R104: a string load fills registers from rD on with the bytes at the address, each register from its most
significant byte, the unfilled low bytes of the last register 0, the register numbers wrapping from 31 to 0. `lswi`
reads at (rA|0), NB bytes, 0 meaning 32; `lswx` at (rA|0) + x[rB], XER[25-31] bytes, here not 0. Nothing else
changes. -/
def Obligations.StringLoadsLoadBytes : Prop :=
  ∀ (s : State) (rd ra rb : Reg) (nb : BitVec 5),
    let base : Word := if ra = 0 then 0 else s.readGpr ra
    ∀ p ∈ [(Instr.lswi rd ra nb, base, if nb = 0 then 32 else nb.toNat),
        (Instr.lswx rd ra rb, base + s.readGpr rb, s.xer.toNat % 128)],
      let ea : Word := p.2.1
      let n : Nat := p.2.2
      n ≠ 0 → loadedByString rd ra n = false →
      p.1 ∉ [Instr.lswx rd ra rb] ∨ (rd ≠ ra ∧ rd ≠ rb ∧ loadedByString rd rb n = false) →
      s.reaches ea n → s.performs (s.stringCauses ea n) →
        ∃ t u, exec p.1 s = .next u ∧ Retired s (encode p.1) t u ∧ t = { s with gpr := t.gpr, pc := s.pc + 4 } ∧
          (∀ k < n, selectByte (t.readGpr (rd + BitVec.ofNat 5 (k / 4))) (k % 4) = s.byteAt ea k) ∧
          (∀ k, n ≤ k → k < 4 * ((n + 3) / 4) → selectByte (t.readGpr (rd + BitVec.ofNat 5 (k / 4))) (k % 4) = 0) ∧
          (∀ r : Reg, (n + 3) / 4 ≤ (r - rd).toNat → t.readGpr r = s.readGpr r)

/-- R104: `lswx` of zero bytes makes no access and advances; x[rD] takes a free value, every other register and all
memory are as before. That the undefined x[rD] takes a free value is the model's form of it (notes/assumptions/7.md). -/
def Obligations.LswxOfZeroBytes : Prop :=
  ∀ (s : State) (rd ra rb : Reg), s.xer.toNat % 128 = 0 → rd ≠ ra → rd ≠ rb →
    s.performs (s.stringCauses ((if ra = 0 then 0 else s.readGpr ra) + s.readGpr rb) 0) →
      ∃ (v : Word) (t : State), exec (.lswx rd ra rb) s = .next t ∧ Retired s (encode (.lswx rd ra rb))
        { s with gpr := s.gpr.set rd.toNat v rd.isLt, pc := s.pc + 4, draws := s.draws + 1 } t

/-- R105, R106: a string store puts the bytes of the registers from rS on, most significant byte first, at the
address; every byte outside the operand is as before, and nothing else changes. -/
def Obligations.StringStoresStoreBytes : Prop :=
  ∀ (s : State) (rs ra rb : Reg) (nb : BitVec 5),
    let base : Word := if ra = 0 then 0 else s.readGpr ra
    ∀ p ∈ [(Instr.stswi rs ra nb, base, if nb = 0 then 32 else nb.toNat),
        (Instr.stswx rs ra rb, base + s.readGpr rb, s.xer.toNat % 128)],
      let ea : Word := p.2.1
      let n : Nat := p.2.2
      s.reaches ea n → s.performs (s.stringCauses ea n) → Memory.wf s.mem →
        ∃ t u, exec p.1 s = .next u ∧ Retired s (encode p.1) t u ∧
          t = { s with mem := t.mem, stored := t.stored, pc := s.pc + 4 } ∧
          (∀ k < n, t.byteAt ea k = selectByte (s.readGpr (rs + BitVec.ofNat 5 (k / 4))) (k % 4)) ∧
          (∀ a, ¬inOperand ea n a → t.mem.read a = s.mem.read a) ∧
          (∀ a, a ∈ t.stored ↔ a ∈ s.stored ∨ inOperand ea n a)

/-- R101, R103, R104: the invalid forms of the multiple and string loads, in which rA (or rB) is among the registers
loaded or is rD, are refused. That this is decided by register number, for `lswi` and `lswx` also where the rA field is 0
and stands for the value 0, is the model's reading (notes/assumptions/23.md, DEDUCED). -/
def Obligations.InvalidLoadFormsAreRefused : Prop :=
  ∀ (s : State) (rd ra rb : Reg) (d : BitVec 16) (nb : BitVec 5),
    (rd.toNat ≤ ra.toNat → exec (.lmw rd ra d) s = .refused (.invalidForm "lmw")) ∧
      ((ra - rd).toNat < ((if nb = 0 then 32 else nb.toNat) + 3) / 4 →
        exec (.lswi rd ra nb) s = .refused (.invalidForm "lswi")) ∧
      ((rd = ra ∨ rd = rb ∨ (ra - rd).toNat < (s.xer.toNat % 128 + 3) / 4 ∨
          (rb - rd).toNat < (s.xer.toNat % 128 + 3) / 4) →
        exec (.lswx rd ra rb) s = .refused (.invalidForm "lswx"))

/-- R110: where no alignment exception is taken, `lwarx` of a misaligned word is refused, in either byte order: what it
would reserve is not defined. That the refusal comes before a DSI or machine check of the word is the model's choice
(notes/assumptions/28.md). -/
def Obligations.LwarxOfAMisalignedWordIsRefused : Prop :=
  ∀ (s : State) (rd ra rb : Reg),
    let ea := (if ra = 0 then 0 else s.readGpr ra) + s.readGpr rb
    ea.toNat % 4 ≠ 0 → s.performs (s.elementaryCauses ea) →
      exec (.lwarx rd ra rb) s = .refused .misalignedReservation

/-- R45, R50, R100: with MSR[LE] = 1 and an implementation that traps on condition A3, a multiple or string
instruction takes the alignment exception with SRR0 = CIA and DAR within the operand, whatever the address, and loads
and stores nothing. The range of DAR is the whole operand (notes/assumptions/13.md). -/
def Obligations.LittleEndianMultiplesTrap : Prop :=
  ∀ (s : State) (r ra rb : Reg) (d : BitVec 16) (nb : BitVec 5),
    let base : Word := if ra = 0 then 0 else s.readGpr ra
    let nw := 4 * (32 - r.toNat)
    let ni := if nb = 0 then 32 else nb.toNat
    let nx := s.xer.toNat % 128
    msrLE s.msr = true → s.params.align.a3 = .trap →
    ∀ p ∈ [(Instr.lmw r ra d, base + BitVec.ofInt 32 d.toInt, nw), (.stmw r ra d, base + BitVec.ofInt 32 d.toInt, nw),
        (.lswi r ra nb, base, ni), (.stswi r ra nb, base, ni),
        (.lswx r ra rb, base + s.readGpr rb, nx), (.stswx r ra rb, base + s.readGpr rb, nx)],
      p.1 ∉ [Instr.lmw r ra d] ∨ ra.toNat < r.toNat →
      p.1 ∉ [Instr.lswi r ra nb] ∨ loadedByString r ra ni = false →
      p.1 ∉ [Instr.lswx r ra rb] ∨
        (r ≠ ra ∧ r ≠ rb ∧ loadedByString r ra nx = false ∧ loadedByString r rb nx = false) →
      p.2.2 ≠ 0 → s.reaches p.2.1 p.2.2 →
        ∃ t, exec p.1 s = .next t ∧ TookAccessException s t .alignment p.2.1 p.2.2

/-- R44, R50: with an operand that is not aligned and an implementation that traps on condition A2, `lmw`, `stmw`,
`lwarx`, `stwcx.`, `eciwx` and `ecowx` take the alignment exception with SRR0 = CIA in either byte order, whatever else
the implementation does under condition A3, and DAR is within the whole operand (notes/assumptions/13.md); no other
register and no memory changes. -/
def Obligations.MisalignedWordsTrap : Prop :=
  ∀ (s : State) (r ra rb : Reg) (d : BitVec 16),
    let base : Word := if ra = 0 then 0 else s.readGpr ra
    let nw := 4 * (32 - r.toNat)
    s.params.align.a2 = .trap →
    ∀ p ∈ [(Instr.lmw r ra d, base + BitVec.ofInt 32 d.toInt, nw), (.stmw r ra d, base + BitVec.ofInt 32 d.toInt, nw),
        (.lwarx r ra rb, base + s.readGpr rb, 4), (.stwcx r ra rb, base + s.readGpr rb, 4),
        (.eciwx r ra rb, base + s.readGpr rb, 4), (.ecowx r ra rb, base + s.readGpr rb, 4)],
      p.1 ∉ [Instr.lmw r ra d] ∨ ra.toNat < r.toNat →
      p.1 ∉ [Instr.eciwx r ra rb, .ecowx r ra rb] ∨
        (wordIn s.params.optionalNop (encode p.1) = false ∧ wordIn s.params.optionalAbsent (encode p.1) = false ∧
          s.ear.getMsbD 0 = true) →
      p.2.1.toNat % 4 ≠ 0 → s.reaches p.2.1 p.2.2 →
        ∃ t, exec p.1 s = .next t ∧ TookAccessException s t .alignment p.2.1 p.2.2

/-! ### Accesses that cannot be made -/

/-- R133, R132, R110 to R113: where no alignment exception is taken, `lwarx` of an aligned word, a `stwcx.` under the
reservation of its own word, `eciwx` and `ecowx` whose word cannot be accessed take the DSI with SRR0 = CIA and DAR within
the operand when its translation fails, and when it has an invalid physical address the machine check, or the checkstop
state with ME = 0; no register is loaded, nothing is stored or sent, the reservation is kept. That each byte is translated
on its own, and that the corrupt flag is free, are the model's choice (notes/assumptions/10.md, 22.md). -/
def Obligations.WordAccessesThatFail : Prop :=
  ∀ (s : State) (r ra rb : Reg) (f : AccessFault),
    let ea := (if ra = 0 then 0 else s.readGpr ra) + s.readGpr rb
    s.performs (s.elementaryCauses ea) →
    ∀ p ∈ [(Instr.lwarx r ra rb, AccessKind.load), (.stwcx r ra rb, .store), (.eciwx r ra rb, .load),
        (.ecowx r ra rb, .store)],
      p.1 ∉ [Instr.lwarx r ra rb] ∨ ea.toNat % 4 = 0 →
      p.1 ∉ [Instr.stwcx r ra rb] ∨ (s.reservation ≠ none ∧ s.reservation = s.physicalAddress .store ea) →
      p.1 ∉ [Instr.eciwx r ra rb, .ecowx r ra rb] ∨
        (wordIn s.params.optionalNop (encode p.1) = false ∧ wordIn s.params.optionalAbsent (encode p.1) = false ∧
          s.ear.getMsbD 0 = true) →
      s.physBytes p.2 ea 4 = .error f →
        ∃ t, exec p.1 s = .next t ∧ TookAccessFault s t f ea 4

/-- R100, R101, R103, R104: a multiple or string load whose element `k` cannot be accessed, the elements before it being
accessible, loads those, `b` being the state it leaves them in, and takes the DSI with SRR0 = CIA, or the machine check or
the checkstop state; what was loaded stays. SRR0 and SRR1 may have been changed before by the translated accesses (R162).
Stated where no alignment exception is taken, for a valid form; what is accessed at once is a word or a byte
(notes/assumptions/10.md, 12.md), and a word is little-endian in little-endian mode (notes/assumptions/18.md). -/
def Obligations.LoadsStoppedPartWayKeepWhatTheyLoaded : Prop :=
  ∀ (s : State) (rd ra rb : Reg) (d : BitVec 16) (nb : BitVec 5) (k : Nat) (as : Nat → List Nat) (f : AccessFault),
    let base : Word := if ra = 0 then 0 else s.readGpr ra
    let ed : Word := base + BitVec.ofInt 32 d.toInt
    let part (b : State) : Prop := b = { s with
      gpr := b.gpr, srr0 := b.srr0, srr1 := b.srr1, srr0Undefined := b.srr0Undefined,
      srr1Undefined := b.srr1Undefined, draws := b.draws }
    (ra.toNat < rd.toNat → s.performs (s.multipleCauses ed (4 * (32 - rd.toNat))) →
      k < 32 - rd.toNat →
      (∀ j < k, s.physBytes .load (ed + BitVec.ofNat 32 (4 * j)) 4 = .ok (as j)) →
      s.physBytes .load (ed + BitVec.ofNat 32 (4 * k)) 4 = .error f →
        ∃ b t, exec (.lmw rd ra d) s = .next t ∧ part b ∧ TookAccessFault b t f ed (4 * (32 - rd.toNat)) ∧
          (∀ j < k, b.readGpr (rd + BitVec.ofNat 5 j) = wordOfBytes (msrLE s.msr) ((as j).map s.mem.read)) ∧
          (∀ q : Reg, q.toNat < rd.toNat ∨ rd.toNat + k ≤ q.toNat → b.readGpr q = s.readGpr q)) ∧
    ∀ p ∈ [(Instr.lswi rd ra nb, base, if nb = 0 then 32 else nb.toNat),
        (Instr.lswx rd ra rb, base + s.readGpr rb, s.xer.toNat % 128)],
      let ea : Word := p.2.1
      let n : Nat := p.2.2
      loadedByString rd ra n = false →
      p.1 ∉ [Instr.lswx rd ra rb] ∨ (rd ≠ ra ∧ rd ≠ rb ∧ loadedByString rd rb n = false) →
      s.performs (s.stringCauses ea n) → k < n →
      (∀ j < k, s.physBytes .load (ea + BitVec.ofNat 32 j) 1 = .ok (as j)) →
      s.physBytes .load (ea + BitVec.ofNat 32 k) 1 = .error f →
        ∃ b t, exec p.1 s = .next t ∧ part b ∧ TookAccessFault b t f ea n ∧
          (∀ j < k, [selectByte (b.readGpr (rd + BitVec.ofNat 5 (j / 4))) (j % 4)] = (as j).map s.mem.read) ∧
          (∀ j, k ≤ j → j < 4 * ((k + 3) / 4) → selectByte (b.readGpr (rd + BitVec.ofNat 5 (j / 4))) (j % 4) = 0) ∧
          (∀ q : Reg, (k + 3) / 4 ≤ (q - rd).toNat → b.readGpr q = s.readGpr q)

/-- R100, R102, R105, R106: a multiple or string store whose element `k` cannot be accessed, the elements before it being
accessible at physical addresses that differ, stores those, `b` being the state it leaves them in, and takes the DSI with
SRR0 = CIA, or the machine check or the checkstop state; what was stored stays, and every other byte is as before. The
other premises and the model's choices are those of the loads. -/
def Obligations.StoresStoppedPartWayKeepWhatTheyStored : Prop :=
  ∀ (s : State) (rs ra rb : Reg) (d : BitVec 16) (nb : BitVec 5) (k : Nat) (as : Nat → List Nat) (f : AccessFault),
    let base : Word := if ra = 0 then 0 else s.readGpr ra
    let ed : Word := base + BitVec.ofInt 32 d.toInt
    let part (b : State) : Prop :=
      b = { s with
        mem := b.mem, stored := b.stored, srr0 := b.srr0, srr1 := b.srr1, srr0Undefined := b.srr0Undefined,
        srr1Undefined := b.srr1Undefined, draws := b.draws } ∧
      (∀ a, (∀ j < k, a ∉ as j) → b.mem.read a = s.mem.read a) ∧
      (∀ a, a ∈ b.stored ↔ a ∈ s.stored ∨ ∃ j < k, a ∈ as j)
    Memory.wf s.mem → ((List.range k).flatMap as).Nodup →
    (s.performs (s.multipleCauses ed (4 * (32 - rs.toNat))) →
      k < 32 - rs.toNat →
      (∀ j < k, s.physBytes .store (ed + BitVec.ofNat 32 (4 * j)) 4 = .ok (as j)) →
      s.physBytes .store (ed + BitVec.ofNat 32 (4 * k)) 4 = .error f →
        ∃ b t, exec (.stmw rs ra d) s = .next t ∧ part b ∧ TookAccessFault b t f ed (4 * (32 - rs.toNat)) ∧
          ∀ j < k, wordOfBytes (msrLE s.msr) ((as j).map b.mem.read) = s.readGpr (rs + BitVec.ofNat 5 j)) ∧
    ∀ p ∈ [(Instr.stswi rs ra nb, base, if nb = 0 then 32 else nb.toNat),
        (Instr.stswx rs ra rb, base + s.readGpr rb, s.xer.toNat % 128)],
      let ea : Word := p.2.1
      let n : Nat := p.2.2
      s.performs (s.stringCauses ea n) → k < n →
      (∀ j < k, s.physBytes .store (ea + BitVec.ofNat 32 j) 1 = .ok (as j)) →
      s.physBytes .store (ea + BitVec.ofNat 32 k) 1 = .error f →
        ∃ b t, exec p.1 s = .next t ∧ part b ∧ TookAccessFault b t f ea n ∧
          ∀ j < k, (as j).map b.mem.read = [selectByte (s.readGpr (rs + BitVec.ofNat 5 (j / 4))) (j % 4)]

/-! ### Reservation and external control -/

/-- R110: `lwarx` of an aligned word loads it, sets the reservation to its physical address, replacing any other, and
advances; nothing else changes. Stated with data translation off. -/
def Obligations.LwarxLoadsAndReserves : Prop :=
  ∀ (s : State) (rd ra rb : Reg),
    let ea := (if ra = 0 then 0 else s.readGpr ra) + s.readGpr rb
    ea.toNat % 4 = 0 → s.reaches ea 4 →
      ∃ t, exec (.lwarx rd ra rb) s = .next t ∧ Retired s (encode (.lwarx rd ra rb)) { s with
        gpr := s.gpr.set rd.toNat (s.wordAt ea) rd.isLt, reservation := some ea, pc := s.pc + 4 } t

/-- R111: `stwcx.` with a reservation at its own address stores the word, sets CR0 to 0b001 and SO, clears the
reservation and advances; every byte outside the word is as before, and nothing else changes. A misaligned word that the
implementation accesses all the same is stored in the byte order of the mode, which for little-endian mode is the model's
reading (notes/assumptions/18.md). -/
def Obligations.StwcxStoresUnderItsReservation : Prop :=
  ∀ (s : State) (rs ra rb : Reg),
    let ea := (if ra = 0 then 0 else s.readGpr ra) + s.readGpr rb
    s.reservation = some ea → s.performs (s.elementaryCauses ea) → s.reaches ea 4 → Memory.wf s.mem →
      ∃ t u, exec (.stwcx rs ra rb) s = .next u ∧ Retired s (encode (.stwcx rs ra rb)) t u ∧
        t.wordAt ea = s.readGpr rs ∧ (∀ a, ¬inOperand ea 4 a → t.mem.read a = s.mem.read a) ∧
        (∀ a, a ∈ t.stored ↔ a ∈ s.stored ∨ inOperand ea 4 a) ∧
        t = { s with
          mem := t.mem, stored := t.stored, reservation := none, pc := s.pc + 4, draws := t.draws,
          cr := (s.cr &&& 0x0FFFFFFF) ||| 0x20000000 ||| (if s.xer.getMsbD 0 then 0x10000000 else 0) }

/-- R111: `stwcx.` without a reservation stores nothing, sets CR0 to 0b000 and SO, and advances. With a reservation at
another address both outcomes are admitted, and no third: the word is stored and CR0 is 0b001 and SO, or nothing is stored
and CR0 is 0b000 and SO; the reservation is cleared either way. The second is stated with data translation off, for an
aligned word or one accessed all the same; which outcome it is, a free value decides (notes/assumptions/17.md), and the byte order of a misaligned
word stored in little-endian mode is the model's reading (notes/assumptions/18.md, DEDUCED). -/
def Obligations.StwcxWithoutItsOwnReservation : Prop :=
  ∀ (s : State) (rs ra rb : Reg),
    let ea := (if ra = 0 then 0 else s.readGpr ra) + s.readGpr rb
    let so : Word := if s.xer.getMsbD 0 then 0x10000000 else 0
    let notStored (t : State) : Prop :=
      t = { s with reservation := none, pc := s.pc + 4, draws := t.draws, cr := (s.cr &&& 0x0FFFFFFF) ||| so }
    (s.reservation = none → s.performs (s.elementaryCauses ea) →
      ∃ t u, exec (.stwcx rs ra rb) s = .next u ∧ Retired s (encode (.stwcx rs ra rb)) t u ∧ notStored t) ∧
    ∀ a : Word, s.reservation = some a → a ≠ ea → s.performs (s.elementaryCauses ea) → s.reaches ea 4 → Memory.wf s.mem →
      ∃ t u, exec (.stwcx rs ra rb) s = .next u ∧ Retired s (encode (.stwcx rs ra rb)) t u ∧
        ((t = { s with mem := t.mem, stored := t.stored, reservation := none, pc := s.pc + 4, draws := t.draws,
                       cr := (s.cr &&& 0x0FFFFFFF) ||| 0x20000000 ||| so } ∧
            t.wordAt ea = s.readGpr rs ∧ (∀ b, ¬inOperand ea 4 b → t.mem.read b = s.mem.read b) ∧
            ∀ b, b ∈ t.stored ↔ b ∈ s.stored ∨ inOperand ea 4 b) ∨ notStored t)

/-- R112, R113: where they are provided and EAR[E] = 1, `eciwx` loads a word the device supplies into x[rD], and
`ecowx` sends x[rS] to the device EAR[RID] at the physical address; each advances and nothing else changes. Stated
with data translation off, for an aligned word or one accessed all the same. The output record and the free word are
the model's form of the device (notes/assumptions/16.md). -/
def Obligations.ExternalControlTransfers : Prop :=
  ∀ (s : State) (r ra rb : Reg),
    let ea := (if ra = 0 then 0 else s.readGpr ra) + s.readGpr rb
    let provided (i : Instr) : Prop :=
      wordIn s.params.optionalNop (encode i) = false ∧ wordIn s.params.optionalAbsent (encode i) = false
    s.ear.getMsbD 0 = true → s.performs (s.elementaryCauses ea) → s.reaches ea 4 →
      (provided (.eciwx r ra rb) → ∃ (v : Word) (t : State), exec (.eciwx r ra rb) s = .next t ∧
        Retired s (encode (.eciwx r ra rb))
          { s with gpr := s.gpr.set r.toNat v r.isLt, pc := s.pc + 4, draws := s.draws + 1 } t) ∧
      (provided (.ecowx r ra rb) → ∃ t, exec (.ecowx r ra rb) s = .next t ∧
        Retired s (encode (.ecowx r ra rb)) { s with
          pc := s.pc + 4, extOut := s.extOut ++ [⟨BitVec.ofNat 6 (s.ear.toNat % 64), ea, s.readGpr r⟩] } t)

/-- R112, R70: `eciwx` and `ecowx` only advance where the implementation treats them as no-ops, take the illegal
program exception where it does not provide them, and take the DSI with EAR[E] = 0. -/
def Obligations.ExternalControlNotAvailable : Prop :=
  ∀ (s : State) (r ra rb : Reg), ∀ i ∈ [Instr.eciwx r ra rb, .ecowx r ra rb],
    let ea := (if ra = 0 then 0 else s.readGpr ra) + s.readGpr rb
    (wordIn s.params.optionalNop (encode i) = true →
        ∃ t, exec i s = .next t ∧ Retired s (encode i) { s with pc := s.pc + 4 } t) ∧
      (wordIn s.params.optionalNop (encode i) = false → wordIn s.params.optionalAbsent (encode i) = true →
        ∃ t, exec i s = .next t ∧ TookException s t .program s.pc 0x00080000) ∧
      (wordIn s.params.optionalNop (encode i) = false → wordIn s.params.optionalAbsent (encode i) = false →
        s.ear.getMsbD 0 = false → ∃ t, exec i s = .next t ∧ TookAccessException s t .dsi ea 4)

/-! ### Move to FPSCR -/

/-- 44, before R123: VX is the or of bits 7-12 and 21-23, FEX the or of each condition with its enable, and no other
bit changes when they are recomputed; recomputing again changes nothing. -/
def Obligations.FpscrSummaryBits : Prop :=
  ∀ f : Word,
    (fpscrRecompute f).getMsbD 2 =
        [7, 8, 9, 10, 11, 12, 21, 22, 23].any (fun j => f.getMsbD j) ∧
      (fpscrRecompute f).getMsbD 1 =
        (((fpscrRecompute f).getMsbD 2 && f.getMsbD 24) || (f.getMsbD 3 && f.getMsbD 25) ||
          (f.getMsbD 4 && f.getMsbD 26) || (f.getMsbD 5 && f.getMsbD 27) || (f.getMsbD 6 && f.getMsbD 28)) ∧
      (∀ j, j ≠ 1 → j ≠ 2 → (fpscrRecompute f).getMsbD j = f.getMsbD j) ∧
      fpscrRecompute (fpscrRecompute f) = fpscrRecompute f

/-- R123, R124: with MSR[FP] = 1 `mtfsf` moves the fields FM selects from the low word of f[frB], and `mtfsfi` moves
IMM to field crfD, but for FEX and VX; each completes or raises the enabled exception as `MovedToFpscr` says. -/
def Obligations.MtfsfAndMtfsfiMoveFields : Prop :=
  ∀ (s : State) (fm : BitVec 8) (frb : Reg) (crfd : BitVec 3) (imm : BitVec 4) (rc : Bool), msrFP s.msr = true →
    (∃ f t, exec (.mtfsf fm frb rc) s = .next t ∧ MovedToFpscr s (.mtfsf fm frb rc) f rc t ∧
      ∀ j < 32, j ≠ 1 → j ≠ 2 →
        f.getMsbD j = if fm.getMsbD (j / 4) then (s.readFpr frb).getMsbD (32 + j) else s.fpscr.getMsbD j) ∧
    ∃ f t, exec (.mtfsfi crfd imm rc) s = .next t ∧ MovedToFpscr s (.mtfsfi crfd imm rc) f rc t ∧
      ∀ j < 32, j ≠ 1 → j ≠ 2 →
        f.getMsbD j = if j / 4 = crfd.toNat then imm.getMsbD (j % 4) else s.fpscr.getMsbD j

/-- R126: `mtfsb1` with MSR[FP] = 1 sets bit crbD, but for FEX and VX, and FX too when it sets an exception condition
bit that was 0. -/
def Obligations.Mtfsb1SetsABit : Prop :=
  ∀ (s : State) (crbd : BitVec 5) (rc : Bool), msrFP s.msr = true →
    ∃ f t, exec (.mtfsb1 crbd rc) s = .next t ∧ MovedToFpscr s (.mtfsb1 crbd rc) f rc t ∧
      ∀ j < 32, j ≠ 1 → j ≠ 2 →
        f.getMsbD j =
          (s.fpscr.getMsbD j || decide (j = crbd.toNat) ||
            (decide (j = 0) && !s.fpscr.getMsbD crbd.toNat &&
              decide ((3 ≤ crbd.toNat ∧ crbd.toNat ≤ 12) ∨ (21 ≤ crbd.toNat ∧ crbd.toNat ≤ 23))))

/-- R125: `mtfsb0` with MSR[FP] = 1 clears bit crbD, but for FEX and VX, which are recomputed, copies CR1 with Rc and
advances, raising no floating-point enabled exception. -/
def Obligations.Mtfsb0ClearsABit : Prop :=
  ∀ (s : State) (crbd : BitVec 5) (rc : Bool), msrFP s.msr = true →
    ∃ t u, exec (.mtfsb0 crbd rc) s = .next u ∧ Retired s (encode (.mtfsb0 crbd rc)) t u ∧
      t = { s with
        fpscr := t.fpscr, pc := s.pc + 4,
        cr := if rc then (s.cr &&& 0xF0FFFFFF) ||| ((t.fpscr &&& 0xF0000000) >>> 4) else s.cr } ∧
      t.fpscr.getMsbD 2 = fpscrInvalid t.fpscr ∧ t.fpscr.getMsbD 1 = fpscrEnabled t.fpscr ∧
      ∀ j < 32, j ≠ 1 → j ≠ 2 → t.fpscr.getMsbD j = (s.fpscr.getMsbD j && decide (j ≠ crbd.toNat))

/-- R120, R142: with MSR[FP] = 0 a word of the floating-point class, in the opcode table or not, takes the floating-point
unavailable exception with SRR0 = CIA and has no other effect. The premises leave out words that the implementation has as
illegal, absent or privileged, which rank higher (R172), those it raises an exception type of its own on, and those with a
reserved field set, which R69 refuses (notes/assumptions/24.md). -/
def Obligations.FloatingPointUnavailable : Prop :=
  ∀ (s : State) (w : Word), isFloatingPoint w = true → msrFP s.msr = false → s.architected w →
    (∀ m, decodeWord w ≠ .error (.reservedField m)) →
    (wordIn s.params.optionalAbsent w && !wordIn s.params.optionalNop w) = false →
    (wordIn s.params.privileged w && msrPR s.msr) = false →
      ∃ t, s.run w = .next t ∧ TookException s t .fpUnavailable s.pc 0

/-- R68, R139, R70: a word that is known to be illegal takes the illegal program exception with SRR0 = CIA, whatever it
decodes to; the all-zero word is one. Of the words in no row of the table, an optional one that is absent takes the same
exception, one treated as a no-op only advances, of whatever class it is (but a privileged one at user level, and a
floating-point one with FP = 0, take the exceptions that rank higher, R172), and one in no class and none of the
implementation's sets is refused. -/
def Obligations.IllegalOptionalAndUnknownWords : Prop :=
  (∀ (s : State) (w : Word), wordIn s.params.illegal w = true →
    ∃ t, s.run w = .next t ∧ TookException s t .program s.pc 0x00080000) ∧
  (∀ (s : State) (w : Word), decodeWord w = .error .noRow → s.architected w →
    (wordIn s.params.optionalAbsent w = true → wordIn s.params.optionalNop w = false →
      ∃ t, s.run w = .next t ∧ TookException s t .program s.pc 0x00080000) ∧
    (wordIn s.params.optionalNop w = true → (wordIn s.params.privileged w && msrPR s.msr) = false →
      (isFloatingPoint w && !msrFP s.msr) = false →
      ∃ t, s.run w = .next t ∧ Retired s w { s with pc := s.pc + 4 } t) ∧
    (wordIn s.params.optionalAbsent w = false → wordIn s.params.optionalNop w = false →
      wordIn s.params.privileged w = false → isFloatingPoint w = false → isBranch w = false →
        s.run w = .refused (.unknownWord w))) ∧
  wordIn Params.default.illegal 0x00000000 = true ∧ decodeWord 0x00000000 = .error .noRow

/-! ### Frames over every path -/

/-- An instruction that stores nothing leaves every byte of memory as it was, whatever it does, taking an exception
included: all but `stmw`, `stswi`, `stswx` and `stwcx.`. -/
def Obligations.OnlyStoresChangeMemory : Prop :=
  ∀ (i : Instr) (s t : State),
    (∀ r ra d, i ≠ .stmw r ra d) → (∀ r ra nb, i ≠ .stswi r ra nb) → (∀ r ra rb, i ≠ .stswx r ra rb) →
    (∀ r ra rb, i ≠ .stwcx r ra rb) → exec i s = .next t →
      (∀ a, t.mem.read a = s.mem.read a) ∧ t.mem = s.mem ∧ t.stored = s.stored

/-- A storing instruction changes, on every path, partial stores before an exception included, only bytes at the
physical addresses of its operand, and no general or floating-point register. That each byte of the operand is translated
on its own, so that these are its addresses, is the model's choice (notes/assumptions/10.md). -/
def Obligations.StoresChangeOnlyTheirOperand : Prop :=
  ∀ (s t : State) (r ra rb : Reg) (d : BitVec 16) (nb : BitVec 5),
    let base : Word := if ra = 0 then 0 else s.readGpr ra
    ∀ p ∈ [(Instr.stmw r ra d, base + BitVec.ofInt 32 d.toInt, 4 * (32 - r.toNat)),
        (.stswi r ra nb, base, if nb = 0 then 32 else nb.toNat),
        (.stswx r ra rb, base + s.readGpr rb, s.xer.toNat % 128), (.stwcx r ra rb, base + s.readGpr rb, 4)],
      exec p.1 s = .next t →
        t.gpr = s.gpr ∧ t.fpr = s.fpr ∧
          ∀ a, (∀ k < p.2.2, (s.physicalAddress .store (p.2.1 + BitVec.ofNat 32 k)).map BitVec.toNat ≠ some a) →
            t.mem.read a = s.mem.read a

/-- Every instruction leaves, on every path, each general register as it was that is not one of its destination
registers: rD for `mfmsr`, `mfspr`, `lwarx` and `eciwx`, rD to r31 for `lmw`, the registers the count reaches for the
string loads (at least rD for `lswx`), none for the others; floating-point registers are never changed. -/
def Obligations.OnlyDestinationRegistersChange : Prop :=
  ∀ (i : Instr) (s t : State) (q : Reg), exec i s = .next t →
    (match i with
      | .mfmsr rd => q ≠ rd
      | .mfspr rd _ => q ≠ rd
      | .lwarx rd _ _ => q ≠ rd
      | .eciwx rd _ _ => q ≠ rd
      | .lmw rd _ _ => q.toNat < rd.toNat
      | .lswi rd _ nb => ((if nb = 0 then 32 else nb.toNat) + 3) / 4 ≤ (q - rd).toNat
      | .lswx rd _ _ => (s.xer.toNat % 128 + 3) / 4 ≤ (q - rd).toNat ∧ q ≠ rd
      | _ => True) →
      t.readGpr q = s.readGpr q ∧ t.fpr = s.fpr
end

