-- ==== Sys2Proof/Laws/State.lean ====
section
/-! SUPPORT. One lemma per field for each named update of the state, true by rfl, so that no proof unfolds one. -/

namespace Sys2Proof.Machine

variable (s : State)

@[simp] theorem setGpr_gpr (r : Reg) (v : Word) : (s.setGpr r v).gpr = s.gpr.set r.toNat v r.isLt := rfl
@[simp] theorem setGpr_fpr (r : Reg) (v : Word) : (s.setGpr r v).fpr = s.fpr := rfl
@[simp] theorem setGpr_pc (r : Reg) (v : Word) : (s.setGpr r v).pc = s.pc := rfl
@[simp] theorem setGpr_msr (r : Reg) (v : Word) : (s.setGpr r v).msr = s.msr := rfl
@[simp] theorem setGpr_srr0 (r : Reg) (v : Word) : (s.setGpr r v).srr0 = s.srr0 := rfl
@[simp] theorem setGpr_srr1 (r : Reg) (v : Word) : (s.setGpr r v).srr1 = s.srr1 := rfl
@[simp] theorem setGpr_srr0Undefined (r : Reg) (v : Word) : (s.setGpr r v).srr0Undefined = s.srr0Undefined := rfl
@[simp] theorem setGpr_srr1Undefined (r : Reg) (v : Word) : (s.setGpr r v).srr1Undefined = s.srr1Undefined := rfl
@[simp] theorem setGpr_dar (r : Reg) (v : Word) : (s.setGpr r v).dar = s.dar := rfl
@[simp] theorem setGpr_dsisr (r : Reg) (v : Word) : (s.setGpr r v).dsisr = s.dsisr := rfl
@[simp] theorem setGpr_fpscr (r : Reg) (v : Word) : (s.setGpr r v).fpscr = s.fpscr := rfl
@[simp] theorem setGpr_cr (r : Reg) (v : Word) : (s.setGpr r v).cr = s.cr := rfl
@[simp] theorem setGpr_xer (r : Reg) (v : Word) : (s.setGpr r v).xer = s.xer := rfl
@[simp] theorem setGpr_lr (r : Reg) (v : Word) : (s.setGpr r v).lr = s.lr := rfl
@[simp] theorem setGpr_ctr (r : Reg) (v : Word) : (s.setGpr r v).ctr = s.ctr := rfl
@[simp] theorem setGpr_dec (r : Reg) (v : Word) : (s.setGpr r v).dec = s.dec := rfl
@[simp] theorem setGpr_ear (r : Reg) (v : Word) : (s.setGpr r v).ear = s.ear := rfl
@[simp] theorem setGpr_sprg (r : Reg) (v : Word) : (s.setGpr r v).sprg = s.sprg := rfl
@[simp] theorem setGpr_sdr1 (r : Reg) (v : Word) : (s.setGpr r v).sdr1 = s.sdr1 := rfl
@[simp] theorem setGpr_tbl (r : Reg) (v : Word) : (s.setGpr r v).tbl = s.tbl := rfl
@[simp] theorem setGpr_tbu (r : Reg) (v : Word) : (s.setGpr r v).tbu = s.tbu := rfl
@[simp] theorem setGpr_pvr (r : Reg) (v : Word) : (s.setGpr r v).pvr = s.pvr := rfl
@[simp] theorem setGpr_bat (r : Reg) (v : Word) : (s.setGpr r v).bat = s.bat := rfl
@[simp] theorem setGpr_implSprs (r : Reg) (v : Word) : (s.setGpr r v).implSprs = s.implSprs := rfl
@[simp] theorem setGpr_extSignal (r : Reg) (v : Word) : (s.setGpr r v).extSignal = s.extSignal := rfl
@[simp] theorem setGpr_sresetPending (r : Reg) (v : Word) : (s.setGpr r v).sresetPending = s.sresetPending := rfl
@[simp] theorem setGpr_sresetCorrupt (r : Reg) (v : Word) : (s.setGpr r v).sresetCorrupt = s.sresetCorrupt := rfl
@[simp] theorem setGpr_mcheckPending (r : Reg) (v : Word) : (s.setGpr r v).mcheckPending = s.mcheckPending := rfl
@[simp] theorem setGpr_mcheckCorrupt (r : Reg) (v : Word) : (s.setGpr r v).mcheckCorrupt = s.mcheckCorrupt := rfl
@[simp] theorem setGpr_decPending (r : Reg) (v : Word) : (s.setGpr r v).decPending = s.decPending := rfl
@[simp] theorem setGpr_checkstop (r : Reg) (v : Word) : (s.setGpr r v).checkstop = s.checkstop := rfl
@[simp] theorem setGpr_reservation (r : Reg) (v : Word) : (s.setGpr r v).reservation = s.reservation := rfl
@[simp] theorem setGpr_mem (r : Reg) (v : Word) : (s.setGpr r v).mem = s.mem := rfl
@[simp] theorem setGpr_stored (r : Reg) (v : Word) : (s.setGpr r v).stored = s.stored := rfl
@[simp] theorem setGpr_extOut (r : Reg) (v : Word) : (s.setGpr r v).extOut = s.extOut := rfl
@[simp] theorem setGpr_params (r : Reg) (v : Word) : (s.setGpr r v).params = s.params := rfl
@[simp] theorem setGpr_inputs (r : Reg) (v : Word) : (s.setGpr r v).inputs = s.inputs := rfl
@[simp] theorem setGpr_draws (r : Reg) (v : Word) : (s.setGpr r v).draws = s.draws := rfl

@[simp] theorem advance_gpr : s.advance.gpr = s.gpr := rfl
@[simp] theorem advance_fpr : s.advance.fpr = s.fpr := rfl
@[simp] theorem advance_pc : s.advance.pc = s.pc + 4 := rfl
@[simp] theorem advance_msr : s.advance.msr = s.msr := rfl
@[simp] theorem advance_srr0 : s.advance.srr0 = s.srr0 := rfl
@[simp] theorem advance_srr1 : s.advance.srr1 = s.srr1 := rfl
@[simp] theorem advance_srr0Undefined : s.advance.srr0Undefined = s.srr0Undefined := rfl
@[simp] theorem advance_srr1Undefined : s.advance.srr1Undefined = s.srr1Undefined := rfl
@[simp] theorem advance_dar : s.advance.dar = s.dar := rfl
@[simp] theorem advance_dsisr : s.advance.dsisr = s.dsisr := rfl
@[simp] theorem advance_fpscr : s.advance.fpscr = s.fpscr := rfl
@[simp] theorem advance_cr : s.advance.cr = s.cr := rfl
@[simp] theorem advance_xer : s.advance.xer = s.xer := rfl
@[simp] theorem advance_lr : s.advance.lr = s.lr := rfl
@[simp] theorem advance_ctr : s.advance.ctr = s.ctr := rfl
@[simp] theorem advance_dec : s.advance.dec = s.dec := rfl
@[simp] theorem advance_ear : s.advance.ear = s.ear := rfl
@[simp] theorem advance_sprg : s.advance.sprg = s.sprg := rfl
@[simp] theorem advance_sdr1 : s.advance.sdr1 = s.sdr1 := rfl
@[simp] theorem advance_tbl : s.advance.tbl = s.tbl := rfl
@[simp] theorem advance_tbu : s.advance.tbu = s.tbu := rfl
@[simp] theorem advance_pvr : s.advance.pvr = s.pvr := rfl
@[simp] theorem advance_bat : s.advance.bat = s.bat := rfl
@[simp] theorem advance_implSprs : s.advance.implSprs = s.implSprs := rfl
@[simp] theorem advance_extSignal : s.advance.extSignal = s.extSignal := rfl
@[simp] theorem advance_sresetPending : s.advance.sresetPending = s.sresetPending := rfl
@[simp] theorem advance_sresetCorrupt : s.advance.sresetCorrupt = s.sresetCorrupt := rfl
@[simp] theorem advance_mcheckPending : s.advance.mcheckPending = s.mcheckPending := rfl
@[simp] theorem advance_mcheckCorrupt : s.advance.mcheckCorrupt = s.mcheckCorrupt := rfl
@[simp] theorem advance_decPending : s.advance.decPending = s.decPending := rfl
@[simp] theorem advance_checkstop : s.advance.checkstop = s.checkstop := rfl
@[simp] theorem advance_reservation : s.advance.reservation = s.reservation := rfl
@[simp] theorem advance_mem : s.advance.mem = s.mem := rfl
@[simp] theorem advance_stored : s.advance.stored = s.stored := rfl
@[simp] theorem advance_extOut : s.advance.extOut = s.extOut := rfl
@[simp] theorem advance_params : s.advance.params = s.params := rfl
@[simp] theorem advance_inputs : s.advance.inputs = s.inputs := rfl
@[simp] theorem advance_draws : s.advance.draws = s.draws := rfl

@[simp] theorem skip_gpr (k : Nat) : (s.skip k).gpr = s.gpr := rfl
@[simp] theorem skip_fpr (k : Nat) : (s.skip k).fpr = s.fpr := rfl
@[simp] theorem skip_pc (k : Nat) : (s.skip k).pc = s.pc := rfl
@[simp] theorem skip_msr (k : Nat) : (s.skip k).msr = s.msr := rfl
@[simp] theorem skip_srr0 (k : Nat) : (s.skip k).srr0 = s.srr0 := rfl
@[simp] theorem skip_srr1 (k : Nat) : (s.skip k).srr1 = s.srr1 := rfl
@[simp] theorem skip_srr0Undefined (k : Nat) : (s.skip k).srr0Undefined = s.srr0Undefined := rfl
@[simp] theorem skip_srr1Undefined (k : Nat) : (s.skip k).srr1Undefined = s.srr1Undefined := rfl
@[simp] theorem skip_dar (k : Nat) : (s.skip k).dar = s.dar := rfl
@[simp] theorem skip_dsisr (k : Nat) : (s.skip k).dsisr = s.dsisr := rfl
@[simp] theorem skip_fpscr (k : Nat) : (s.skip k).fpscr = s.fpscr := rfl
@[simp] theorem skip_cr (k : Nat) : (s.skip k).cr = s.cr := rfl
@[simp] theorem skip_xer (k : Nat) : (s.skip k).xer = s.xer := rfl
@[simp] theorem skip_lr (k : Nat) : (s.skip k).lr = s.lr := rfl
@[simp] theorem skip_ctr (k : Nat) : (s.skip k).ctr = s.ctr := rfl
@[simp] theorem skip_dec (k : Nat) : (s.skip k).dec = s.dec := rfl
@[simp] theorem skip_ear (k : Nat) : (s.skip k).ear = s.ear := rfl
@[simp] theorem skip_sprg (k : Nat) : (s.skip k).sprg = s.sprg := rfl
@[simp] theorem skip_sdr1 (k : Nat) : (s.skip k).sdr1 = s.sdr1 := rfl
@[simp] theorem skip_tbl (k : Nat) : (s.skip k).tbl = s.tbl := rfl
@[simp] theorem skip_tbu (k : Nat) : (s.skip k).tbu = s.tbu := rfl
@[simp] theorem skip_pvr (k : Nat) : (s.skip k).pvr = s.pvr := rfl
@[simp] theorem skip_bat (k : Nat) : (s.skip k).bat = s.bat := rfl
@[simp] theorem skip_implSprs (k : Nat) : (s.skip k).implSprs = s.implSprs := rfl
@[simp] theorem skip_extSignal (k : Nat) : (s.skip k).extSignal = s.extSignal := rfl
@[simp] theorem skip_sresetPending (k : Nat) : (s.skip k).sresetPending = s.sresetPending := rfl
@[simp] theorem skip_sresetCorrupt (k : Nat) : (s.skip k).sresetCorrupt = s.sresetCorrupt := rfl
@[simp] theorem skip_mcheckPending (k : Nat) : (s.skip k).mcheckPending = s.mcheckPending := rfl
@[simp] theorem skip_mcheckCorrupt (k : Nat) : (s.skip k).mcheckCorrupt = s.mcheckCorrupt := rfl
@[simp] theorem skip_decPending (k : Nat) : (s.skip k).decPending = s.decPending := rfl
@[simp] theorem skip_checkstop (k : Nat) : (s.skip k).checkstop = s.checkstop := rfl
@[simp] theorem skip_reservation (k : Nat) : (s.skip k).reservation = s.reservation := rfl
@[simp] theorem skip_mem (k : Nat) : (s.skip k).mem = s.mem := rfl
@[simp] theorem skip_stored (k : Nat) : (s.skip k).stored = s.stored := rfl
@[simp] theorem skip_extOut (k : Nat) : (s.skip k).extOut = s.extOut := rfl
@[simp] theorem skip_params (k : Nat) : (s.skip k).params = s.params := rfl
@[simp] theorem skip_inputs (k : Nat) : (s.skip k).inputs = s.inputs := rfl
@[simp] theorem skip_draws (k : Nat) : (s.skip k).draws = s.draws + k := rfl

@[simp] theorem setDec_gpr (v : Word) : (s.setDec v).gpr = s.gpr := rfl
@[simp] theorem setDec_fpr (v : Word) : (s.setDec v).fpr = s.fpr := rfl
@[simp] theorem setDec_pc (v : Word) : (s.setDec v).pc = s.pc := rfl
@[simp] theorem setDec_msr (v : Word) : (s.setDec v).msr = s.msr := rfl
@[simp] theorem setDec_srr0 (v : Word) : (s.setDec v).srr0 = s.srr0 := rfl
@[simp] theorem setDec_srr1 (v : Word) : (s.setDec v).srr1 = s.srr1 := rfl
@[simp] theorem setDec_srr0Undefined (v : Word) : (s.setDec v).srr0Undefined = s.srr0Undefined := rfl
@[simp] theorem setDec_srr1Undefined (v : Word) : (s.setDec v).srr1Undefined = s.srr1Undefined := rfl
@[simp] theorem setDec_dar (v : Word) : (s.setDec v).dar = s.dar := rfl
@[simp] theorem setDec_dsisr (v : Word) : (s.setDec v).dsisr = s.dsisr := rfl
@[simp] theorem setDec_fpscr (v : Word) : (s.setDec v).fpscr = s.fpscr := rfl
@[simp] theorem setDec_cr (v : Word) : (s.setDec v).cr = s.cr := rfl
@[simp] theorem setDec_xer (v : Word) : (s.setDec v).xer = s.xer := rfl
@[simp] theorem setDec_lr (v : Word) : (s.setDec v).lr = s.lr := rfl
@[simp] theorem setDec_ctr (v : Word) : (s.setDec v).ctr = s.ctr := rfl
@[simp] theorem setDec_dec (v : Word) : (s.setDec v).dec = v := rfl
@[simp] theorem setDec_ear (v : Word) : (s.setDec v).ear = s.ear := rfl
@[simp] theorem setDec_sprg (v : Word) : (s.setDec v).sprg = s.sprg := rfl
@[simp] theorem setDec_sdr1 (v : Word) : (s.setDec v).sdr1 = s.sdr1 := rfl
@[simp] theorem setDec_tbl (v : Word) : (s.setDec v).tbl = s.tbl := rfl
@[simp] theorem setDec_tbu (v : Word) : (s.setDec v).tbu = s.tbu := rfl
@[simp] theorem setDec_pvr (v : Word) : (s.setDec v).pvr = s.pvr := rfl
@[simp] theorem setDec_bat (v : Word) : (s.setDec v).bat = s.bat := rfl
@[simp] theorem setDec_implSprs (v : Word) : (s.setDec v).implSprs = s.implSprs := rfl
@[simp] theorem setDec_extSignal (v : Word) : (s.setDec v).extSignal = s.extSignal := rfl
@[simp] theorem setDec_sresetPending (v : Word) : (s.setDec v).sresetPending = s.sresetPending := rfl
@[simp] theorem setDec_sresetCorrupt (v : Word) : (s.setDec v).sresetCorrupt = s.sresetCorrupt := rfl
@[simp] theorem setDec_mcheckPending (v : Word) : (s.setDec v).mcheckPending = s.mcheckPending := rfl
@[simp] theorem setDec_mcheckCorrupt (v : Word) : (s.setDec v).mcheckCorrupt = s.mcheckCorrupt := rfl
@[simp] theorem setDec_decPending (v : Word) : (s.setDec v).decPending = (s.decPending || (!s.dec.getMsbD 0 && v.getMsbD 0)) := rfl
@[simp] theorem setDec_checkstop (v : Word) : (s.setDec v).checkstop = s.checkstop := rfl
@[simp] theorem setDec_reservation (v : Word) : (s.setDec v).reservation = s.reservation := rfl
@[simp] theorem setDec_mem (v : Word) : (s.setDec v).mem = s.mem := rfl
@[simp] theorem setDec_stored (v : Word) : (s.setDec v).stored = s.stored := rfl
@[simp] theorem setDec_extOut (v : Word) : (s.setDec v).extOut = s.extOut := rfl
@[simp] theorem setDec_params (v : Word) : (s.setDec v).params = s.params := rfl
@[simp] theorem setDec_inputs (v : Word) : (s.setDec v).inputs = s.inputs := rfl
@[simp] theorem setDec_draws (v : Word) : (s.setDec v).draws = s.draws := rfl

@[simp] theorem setCr0_gpr (b : Bool) : (s.setCr0 b).gpr = s.gpr := rfl
@[simp] theorem setCr0_fpr (b : Bool) : (s.setCr0 b).fpr = s.fpr := rfl
@[simp] theorem setCr0_pc (b : Bool) : (s.setCr0 b).pc = s.pc := rfl
@[simp] theorem setCr0_msr (b : Bool) : (s.setCr0 b).msr = s.msr := rfl
@[simp] theorem setCr0_srr0 (b : Bool) : (s.setCr0 b).srr0 = s.srr0 := rfl
@[simp] theorem setCr0_srr1 (b : Bool) : (s.setCr0 b).srr1 = s.srr1 := rfl
@[simp] theorem setCr0_srr0Undefined (b : Bool) : (s.setCr0 b).srr0Undefined = s.srr0Undefined := rfl
@[simp] theorem setCr0_srr1Undefined (b : Bool) : (s.setCr0 b).srr1Undefined = s.srr1Undefined := rfl
@[simp] theorem setCr0_dar (b : Bool) : (s.setCr0 b).dar = s.dar := rfl
@[simp] theorem setCr0_dsisr (b : Bool) : (s.setCr0 b).dsisr = s.dsisr := rfl
@[simp] theorem setCr0_fpscr (b : Bool) : (s.setCr0 b).fpscr = s.fpscr := rfl
@[simp] theorem setCr0_xer (b : Bool) : (s.setCr0 b).xer = s.xer := rfl
@[simp] theorem setCr0_lr (b : Bool) : (s.setCr0 b).lr = s.lr := rfl
@[simp] theorem setCr0_ctr (b : Bool) : (s.setCr0 b).ctr = s.ctr := rfl
@[simp] theorem setCr0_dec (b : Bool) : (s.setCr0 b).dec = s.dec := rfl
@[simp] theorem setCr0_ear (b : Bool) : (s.setCr0 b).ear = s.ear := rfl
@[simp] theorem setCr0_sprg (b : Bool) : (s.setCr0 b).sprg = s.sprg := rfl
@[simp] theorem setCr0_sdr1 (b : Bool) : (s.setCr0 b).sdr1 = s.sdr1 := rfl
@[simp] theorem setCr0_tbl (b : Bool) : (s.setCr0 b).tbl = s.tbl := rfl
@[simp] theorem setCr0_tbu (b : Bool) : (s.setCr0 b).tbu = s.tbu := rfl
@[simp] theorem setCr0_pvr (b : Bool) : (s.setCr0 b).pvr = s.pvr := rfl
@[simp] theorem setCr0_bat (b : Bool) : (s.setCr0 b).bat = s.bat := rfl
@[simp] theorem setCr0_implSprs (b : Bool) : (s.setCr0 b).implSprs = s.implSprs := rfl
@[simp] theorem setCr0_extSignal (b : Bool) : (s.setCr0 b).extSignal = s.extSignal := rfl
@[simp] theorem setCr0_sresetPending (b : Bool) : (s.setCr0 b).sresetPending = s.sresetPending := rfl
@[simp] theorem setCr0_sresetCorrupt (b : Bool) : (s.setCr0 b).sresetCorrupt = s.sresetCorrupt := rfl
@[simp] theorem setCr0_mcheckPending (b : Bool) : (s.setCr0 b).mcheckPending = s.mcheckPending := rfl
@[simp] theorem setCr0_mcheckCorrupt (b : Bool) : (s.setCr0 b).mcheckCorrupt = s.mcheckCorrupt := rfl
@[simp] theorem setCr0_decPending (b : Bool) : (s.setCr0 b).decPending = s.decPending := rfl
@[simp] theorem setCr0_checkstop (b : Bool) : (s.setCr0 b).checkstop = s.checkstop := rfl
@[simp] theorem setCr0_reservation (b : Bool) : (s.setCr0 b).reservation = s.reservation := rfl
@[simp] theorem setCr0_mem (b : Bool) : (s.setCr0 b).mem = s.mem := rfl
@[simp] theorem setCr0_stored (b : Bool) : (s.setCr0 b).stored = s.stored := rfl
@[simp] theorem setCr0_extOut (b : Bool) : (s.setCr0 b).extOut = s.extOut := rfl
@[simp] theorem setCr0_params (b : Bool) : (s.setCr0 b).params = s.params := rfl
@[simp] theorem setCr0_inputs (b : Bool) : (s.setCr0 b).inputs = s.inputs := rfl
@[simp] theorem setCr0_draws (b : Bool) : (s.setCr0 b).draws = s.draws := rfl

@[simp] theorem setCr1_gpr : s.setCr1.gpr = s.gpr := rfl
@[simp] theorem setCr1_fpr : s.setCr1.fpr = s.fpr := rfl
@[simp] theorem setCr1_pc : s.setCr1.pc = s.pc := rfl
@[simp] theorem setCr1_msr : s.setCr1.msr = s.msr := rfl
@[simp] theorem setCr1_srr0 : s.setCr1.srr0 = s.srr0 := rfl
@[simp] theorem setCr1_srr1 : s.setCr1.srr1 = s.srr1 := rfl
@[simp] theorem setCr1_srr0Undefined : s.setCr1.srr0Undefined = s.srr0Undefined := rfl
@[simp] theorem setCr1_srr1Undefined : s.setCr1.srr1Undefined = s.srr1Undefined := rfl
@[simp] theorem setCr1_dar : s.setCr1.dar = s.dar := rfl
@[simp] theorem setCr1_dsisr : s.setCr1.dsisr = s.dsisr := rfl
@[simp] theorem setCr1_fpscr : s.setCr1.fpscr = s.fpscr := rfl
@[simp] theorem setCr1_cr : s.setCr1.cr = (s.cr &&& 0xF0FFFFFF) ||| ((s.fpscr &&& 0xF0000000) >>> 4) := rfl
@[simp] theorem setCr1_xer : s.setCr1.xer = s.xer := rfl
@[simp] theorem setCr1_lr : s.setCr1.lr = s.lr := rfl
@[simp] theorem setCr1_ctr : s.setCr1.ctr = s.ctr := rfl
@[simp] theorem setCr1_dec : s.setCr1.dec = s.dec := rfl
@[simp] theorem setCr1_ear : s.setCr1.ear = s.ear := rfl
@[simp] theorem setCr1_sprg : s.setCr1.sprg = s.sprg := rfl
@[simp] theorem setCr1_sdr1 : s.setCr1.sdr1 = s.sdr1 := rfl
@[simp] theorem setCr1_tbl : s.setCr1.tbl = s.tbl := rfl
@[simp] theorem setCr1_tbu : s.setCr1.tbu = s.tbu := rfl
@[simp] theorem setCr1_pvr : s.setCr1.pvr = s.pvr := rfl
@[simp] theorem setCr1_bat : s.setCr1.bat = s.bat := rfl
@[simp] theorem setCr1_implSprs : s.setCr1.implSprs = s.implSprs := rfl
@[simp] theorem setCr1_extSignal : s.setCr1.extSignal = s.extSignal := rfl
@[simp] theorem setCr1_sresetPending : s.setCr1.sresetPending = s.sresetPending := rfl
@[simp] theorem setCr1_sresetCorrupt : s.setCr1.sresetCorrupt = s.sresetCorrupt := rfl
@[simp] theorem setCr1_mcheckPending : s.setCr1.mcheckPending = s.mcheckPending := rfl
@[simp] theorem setCr1_mcheckCorrupt : s.setCr1.mcheckCorrupt = s.mcheckCorrupt := rfl
@[simp] theorem setCr1_decPending : s.setCr1.decPending = s.decPending := rfl
@[simp] theorem setCr1_checkstop : s.setCr1.checkstop = s.checkstop := rfl
@[simp] theorem setCr1_reservation : s.setCr1.reservation = s.reservation := rfl
@[simp] theorem setCr1_mem : s.setCr1.mem = s.mem := rfl
@[simp] theorem setCr1_stored : s.setCr1.stored = s.stored := rfl
@[simp] theorem setCr1_extOut : s.setCr1.extOut = s.extOut := rfl
@[simp] theorem setCr1_params : s.setCr1.params = s.params := rfl
@[simp] theorem setCr1_inputs : s.setCr1.inputs = s.inputs := rfl
@[simp] theorem setCr1_draws : s.setCr1.draws = s.draws := rfl

@[simp] theorem takeException_gpr (t : ExcType) (a info : Word) (c : Bool) : (s.takeException t a info c).gpr = s.gpr := rfl
@[simp] theorem takeException_fpr (t : ExcType) (a info : Word) (c : Bool) : (s.takeException t a info c).fpr = s.fpr := rfl
@[simp] theorem takeException_pc (t : ExcType) (a info : Word) (c : Bool) : (s.takeException t a info c).pc = vectorAddress (msrIP s.msr) t := rfl
@[simp] theorem takeException_msr (t : ExcType) (a info : Word) (c : Bool) : (s.takeException t a info c).msr = newMsr s.params t s.msr := rfl
@[simp] theorem takeException_srr0 (t : ExcType) (a info : Word) (c : Bool) : (s.takeException t a info c).srr0 = if c then s.drawn 1 else a := rfl
@[simp] theorem takeException_srr1 (t : ExcType) (a info : Word) (c : Bool) : (s.takeException t a info c).srr1 = if c then s.drawn 0 &&& ~~~0x00000002 else savedStatus s.params s.msr info (s.drawn 0) := rfl
@[simp] theorem takeException_srr0Undefined (t : ExcType) (a info : Word) (c : Bool) : (s.takeException t a info c).srr0Undefined = false := rfl
@[simp] theorem takeException_srr1Undefined (t : ExcType) (a info : Word) (c : Bool) : (s.takeException t a info c).srr1Undefined = false := rfl
@[simp] theorem takeException_dar (t : ExcType) (a info : Word) (c : Bool) : (s.takeException t a info c).dar = s.dar := rfl
@[simp] theorem takeException_dsisr (t : ExcType) (a info : Word) (c : Bool) : (s.takeException t a info c).dsisr = s.dsisr := rfl
@[simp] theorem takeException_fpscr (t : ExcType) (a info : Word) (c : Bool) : (s.takeException t a info c).fpscr = s.fpscr := rfl
@[simp] theorem takeException_cr (t : ExcType) (a info : Word) (c : Bool) : (s.takeException t a info c).cr = s.cr := rfl
@[simp] theorem takeException_xer (t : ExcType) (a info : Word) (c : Bool) : (s.takeException t a info c).xer = s.xer := rfl
@[simp] theorem takeException_lr (t : ExcType) (a info : Word) (c : Bool) : (s.takeException t a info c).lr = s.lr := rfl
@[simp] theorem takeException_ctr (t : ExcType) (a info : Word) (c : Bool) : (s.takeException t a info c).ctr = s.ctr := rfl
@[simp] theorem takeException_dec (t : ExcType) (a info : Word) (c : Bool) : (s.takeException t a info c).dec = s.dec := rfl
@[simp] theorem takeException_ear (t : ExcType) (a info : Word) (c : Bool) : (s.takeException t a info c).ear = s.ear := rfl
@[simp] theorem takeException_sprg (t : ExcType) (a info : Word) (c : Bool) : (s.takeException t a info c).sprg = s.sprg := rfl
@[simp] theorem takeException_sdr1 (t : ExcType) (a info : Word) (c : Bool) : (s.takeException t a info c).sdr1 = s.sdr1 := rfl
@[simp] theorem takeException_tbl (t : ExcType) (a info : Word) (c : Bool) : (s.takeException t a info c).tbl = s.tbl := rfl
@[simp] theorem takeException_tbu (t : ExcType) (a info : Word) (c : Bool) : (s.takeException t a info c).tbu = s.tbu := rfl
@[simp] theorem takeException_pvr (t : ExcType) (a info : Word) (c : Bool) : (s.takeException t a info c).pvr = s.pvr := rfl
@[simp] theorem takeException_bat (t : ExcType) (a info : Word) (c : Bool) : (s.takeException t a info c).bat = s.bat := rfl
@[simp] theorem takeException_implSprs (t : ExcType) (a info : Word) (c : Bool) : (s.takeException t a info c).implSprs = s.implSprs := rfl
@[simp] theorem takeException_extSignal (t : ExcType) (a info : Word) (c : Bool) : (s.takeException t a info c).extSignal = s.extSignal := rfl
@[simp] theorem takeException_sresetPending (t : ExcType) (a info : Word) (c : Bool) : (s.takeException t a info c).sresetPending = s.sresetPending := rfl
@[simp] theorem takeException_sresetCorrupt (t : ExcType) (a info : Word) (c : Bool) : (s.takeException t a info c).sresetCorrupt = s.sresetCorrupt := rfl
@[simp] theorem takeException_mcheckPending (t : ExcType) (a info : Word) (c : Bool) : (s.takeException t a info c).mcheckPending = s.mcheckPending := rfl
@[simp] theorem takeException_mcheckCorrupt (t : ExcType) (a info : Word) (c : Bool) : (s.takeException t a info c).mcheckCorrupt = s.mcheckCorrupt := rfl
@[simp] theorem takeException_decPending (t : ExcType) (a info : Word) (c : Bool) : (s.takeException t a info c).decPending = s.decPending := rfl
@[simp] theorem takeException_checkstop (t : ExcType) (a info : Word) (c : Bool) : (s.takeException t a info c).checkstop = s.checkstop := rfl
@[simp] theorem takeException_reservation (t : ExcType) (a info : Word) (c : Bool) : (s.takeException t a info c).reservation = s.reservation := rfl
@[simp] theorem takeException_mem (t : ExcType) (a info : Word) (c : Bool) : (s.takeException t a info c).mem = s.mem := rfl
@[simp] theorem takeException_stored (t : ExcType) (a info : Word) (c : Bool) : (s.takeException t a info c).stored = s.stored := rfl
@[simp] theorem takeException_extOut (t : ExcType) (a info : Word) (c : Bool) : (s.takeException t a info c).extOut = s.extOut := rfl
@[simp] theorem takeException_params (t : ExcType) (a info : Word) (c : Bool) : (s.takeException t a info c).params = s.params := rfl
@[simp] theorem takeException_inputs (t : ExcType) (a info : Word) (c : Bool) : (s.takeException t a info c).inputs = s.inputs := rfl
@[simp] theorem takeException_draws (t : ExcType) (a info : Word) (c : Bool) : (s.takeException t a info c).draws = s.draws + 2 := rfl

@[simp] theorem faultRegisters_gpr (ea : Word) (n : Nat) : (s.faultRegisters ea n).gpr = s.gpr := rfl
@[simp] theorem faultRegisters_fpr (ea : Word) (n : Nat) : (s.faultRegisters ea n).fpr = s.fpr := rfl
@[simp] theorem faultRegisters_pc (ea : Word) (n : Nat) : (s.faultRegisters ea n).pc = s.pc := rfl
@[simp] theorem faultRegisters_msr (ea : Word) (n : Nat) : (s.faultRegisters ea n).msr = s.msr := rfl
@[simp] theorem faultRegisters_srr0 (ea : Word) (n : Nat) : (s.faultRegisters ea n).srr0 = s.srr0 := rfl
@[simp] theorem faultRegisters_srr1 (ea : Word) (n : Nat) : (s.faultRegisters ea n).srr1 = s.srr1 := rfl
@[simp] theorem faultRegisters_srr0Undefined (ea : Word) (n : Nat) : (s.faultRegisters ea n).srr0Undefined = s.srr0Undefined := rfl
@[simp] theorem faultRegisters_srr1Undefined (ea : Word) (n : Nat) : (s.faultRegisters ea n).srr1Undefined = s.srr1Undefined := rfl
@[simp] theorem faultRegisters_dar (ea : Word) (n : Nat) : (s.faultRegisters ea n).dar = ea + s.drawn 1 % BitVec.ofNat 32 n := rfl
@[simp] theorem faultRegisters_dsisr (ea : Word) (n : Nat) : (s.faultRegisters ea n).dsisr = s.drawn 0 := rfl
@[simp] theorem faultRegisters_fpscr (ea : Word) (n : Nat) : (s.faultRegisters ea n).fpscr = s.fpscr := rfl
@[simp] theorem faultRegisters_cr (ea : Word) (n : Nat) : (s.faultRegisters ea n).cr = s.cr := rfl
@[simp] theorem faultRegisters_xer (ea : Word) (n : Nat) : (s.faultRegisters ea n).xer = s.xer := rfl
@[simp] theorem faultRegisters_lr (ea : Word) (n : Nat) : (s.faultRegisters ea n).lr = s.lr := rfl
@[simp] theorem faultRegisters_ctr (ea : Word) (n : Nat) : (s.faultRegisters ea n).ctr = s.ctr := rfl
@[simp] theorem faultRegisters_dec (ea : Word) (n : Nat) : (s.faultRegisters ea n).dec = s.dec := rfl
@[simp] theorem faultRegisters_ear (ea : Word) (n : Nat) : (s.faultRegisters ea n).ear = s.ear := rfl
@[simp] theorem faultRegisters_sprg (ea : Word) (n : Nat) : (s.faultRegisters ea n).sprg = s.sprg := rfl
@[simp] theorem faultRegisters_sdr1 (ea : Word) (n : Nat) : (s.faultRegisters ea n).sdr1 = s.sdr1 := rfl
@[simp] theorem faultRegisters_tbl (ea : Word) (n : Nat) : (s.faultRegisters ea n).tbl = s.tbl := rfl
@[simp] theorem faultRegisters_tbu (ea : Word) (n : Nat) : (s.faultRegisters ea n).tbu = s.tbu := rfl
@[simp] theorem faultRegisters_pvr (ea : Word) (n : Nat) : (s.faultRegisters ea n).pvr = s.pvr := rfl
@[simp] theorem faultRegisters_bat (ea : Word) (n : Nat) : (s.faultRegisters ea n).bat = s.bat := rfl
@[simp] theorem faultRegisters_implSprs (ea : Word) (n : Nat) : (s.faultRegisters ea n).implSprs = s.implSprs := rfl
@[simp] theorem faultRegisters_extSignal (ea : Word) (n : Nat) : (s.faultRegisters ea n).extSignal = s.extSignal := rfl
@[simp] theorem faultRegisters_sresetPending (ea : Word) (n : Nat) : (s.faultRegisters ea n).sresetPending = s.sresetPending := rfl
@[simp] theorem faultRegisters_sresetCorrupt (ea : Word) (n : Nat) : (s.faultRegisters ea n).sresetCorrupt = s.sresetCorrupt := rfl
@[simp] theorem faultRegisters_mcheckPending (ea : Word) (n : Nat) : (s.faultRegisters ea n).mcheckPending = s.mcheckPending := rfl
@[simp] theorem faultRegisters_mcheckCorrupt (ea : Word) (n : Nat) : (s.faultRegisters ea n).mcheckCorrupt = s.mcheckCorrupt := rfl
@[simp] theorem faultRegisters_decPending (ea : Word) (n : Nat) : (s.faultRegisters ea n).decPending = s.decPending := rfl
@[simp] theorem faultRegisters_checkstop (ea : Word) (n : Nat) : (s.faultRegisters ea n).checkstop = s.checkstop := rfl
@[simp] theorem faultRegisters_reservation (ea : Word) (n : Nat) : (s.faultRegisters ea n).reservation = s.reservation := rfl
@[simp] theorem faultRegisters_mem (ea : Word) (n : Nat) : (s.faultRegisters ea n).mem = s.mem := rfl
@[simp] theorem faultRegisters_stored (ea : Word) (n : Nat) : (s.faultRegisters ea n).stored = s.stored := rfl
@[simp] theorem faultRegisters_extOut (ea : Word) (n : Nat) : (s.faultRegisters ea n).extOut = s.extOut := rfl
@[simp] theorem faultRegisters_params (ea : Word) (n : Nat) : (s.faultRegisters ea n).params = s.params := rfl
@[simp] theorem faultRegisters_inputs (ea : Word) (n : Nat) : (s.faultRegisters ea n).inputs = s.inputs := rfl
@[simp] theorem faultRegisters_draws (ea : Word) (n : Nat) : (s.faultRegisters ea n).draws = s.draws + 2 := rfl

@[simp] theorem returnFromException_gpr : s.returnFromException.gpr = s.gpr := rfl
@[simp] theorem returnFromException_fpr : s.returnFromException.fpr = s.fpr := rfl
@[simp] theorem returnFromException_pc : s.returnFromException.pc = s.srr0 &&& ~~~0x00000003 := rfl
@[simp] theorem returnFromException_msr : s.returnFromException.msr = (s.msr &&& ~~~msrSaved) ||| (s.srr1 &&& msrSaved) := rfl
@[simp] theorem returnFromException_srr0 : s.returnFromException.srr0 = s.srr0 := rfl
@[simp] theorem returnFromException_srr1 : s.returnFromException.srr1 = s.srr1 := rfl
@[simp] theorem returnFromException_srr0Undefined : s.returnFromException.srr0Undefined = s.srr0Undefined := rfl
@[simp] theorem returnFromException_srr1Undefined : s.returnFromException.srr1Undefined = s.srr1Undefined := rfl
@[simp] theorem returnFromException_dar : s.returnFromException.dar = s.dar := rfl
@[simp] theorem returnFromException_dsisr : s.returnFromException.dsisr = s.dsisr := rfl
@[simp] theorem returnFromException_fpscr : s.returnFromException.fpscr = s.fpscr := rfl
@[simp] theorem returnFromException_cr : s.returnFromException.cr = s.cr := rfl
@[simp] theorem returnFromException_xer : s.returnFromException.xer = s.xer := rfl
@[simp] theorem returnFromException_lr : s.returnFromException.lr = s.lr := rfl
@[simp] theorem returnFromException_ctr : s.returnFromException.ctr = s.ctr := rfl
@[simp] theorem returnFromException_dec : s.returnFromException.dec = s.dec := rfl
@[simp] theorem returnFromException_ear : s.returnFromException.ear = s.ear := rfl
@[simp] theorem returnFromException_sprg : s.returnFromException.sprg = s.sprg := rfl
@[simp] theorem returnFromException_sdr1 : s.returnFromException.sdr1 = s.sdr1 := rfl
@[simp] theorem returnFromException_tbl : s.returnFromException.tbl = s.tbl := rfl
@[simp] theorem returnFromException_tbu : s.returnFromException.tbu = s.tbu := rfl
@[simp] theorem returnFromException_pvr : s.returnFromException.pvr = s.pvr := rfl
@[simp] theorem returnFromException_bat : s.returnFromException.bat = s.bat := rfl
@[simp] theorem returnFromException_implSprs : s.returnFromException.implSprs = s.implSprs := rfl
@[simp] theorem returnFromException_extSignal : s.returnFromException.extSignal = s.extSignal := rfl
@[simp] theorem returnFromException_sresetPending : s.returnFromException.sresetPending = s.sresetPending := rfl
@[simp] theorem returnFromException_sresetCorrupt : s.returnFromException.sresetCorrupt = s.sresetCorrupt := rfl
@[simp] theorem returnFromException_mcheckPending : s.returnFromException.mcheckPending = s.mcheckPending := rfl
@[simp] theorem returnFromException_mcheckCorrupt : s.returnFromException.mcheckCorrupt = s.mcheckCorrupt := rfl
@[simp] theorem returnFromException_decPending : s.returnFromException.decPending = s.decPending := rfl
@[simp] theorem returnFromException_checkstop : s.returnFromException.checkstop = s.checkstop := rfl
@[simp] theorem returnFromException_reservation : s.returnFromException.reservation = s.reservation := rfl
@[simp] theorem returnFromException_mem : s.returnFromException.mem = s.mem := rfl
@[simp] theorem returnFromException_stored : s.returnFromException.stored = s.stored := rfl
@[simp] theorem returnFromException_extOut : s.returnFromException.extOut = s.extOut := rfl
@[simp] theorem returnFromException_params : s.returnFromException.params = s.params := rfl
@[simp] theorem returnFromException_inputs : s.returnFromException.inputs = s.inputs := rfl
@[simp] theorem returnFromException_draws : s.returnFromException.draws = s.draws := rfl

@[simp] theorem applyFp_gpr (e : FpEffect) : (s.applyFp e).gpr = e.gpr := rfl
@[simp] theorem applyFp_fpr (e : FpEffect) : (s.applyFp e).fpr = e.fpr := rfl
@[simp] theorem applyFp_pc (e : FpEffect) : (s.applyFp e).pc = s.pc := rfl
@[simp] theorem applyFp_msr (e : FpEffect) : (s.applyFp e).msr = s.msr := rfl
@[simp] theorem applyFp_srr0 (e : FpEffect) : (s.applyFp e).srr0 = s.srr0 := rfl
@[simp] theorem applyFp_srr1 (e : FpEffect) : (s.applyFp e).srr1 = s.srr1 := rfl
@[simp] theorem applyFp_srr0Undefined (e : FpEffect) : (s.applyFp e).srr0Undefined = s.srr0Undefined := rfl
@[simp] theorem applyFp_srr1Undefined (e : FpEffect) : (s.applyFp e).srr1Undefined = s.srr1Undefined := rfl
@[simp] theorem applyFp_dar (e : FpEffect) : (s.applyFp e).dar = s.dar := rfl
@[simp] theorem applyFp_dsisr (e : FpEffect) : (s.applyFp e).dsisr = s.dsisr := rfl
@[simp] theorem applyFp_fpscr (e : FpEffect) : (s.applyFp e).fpscr = fpscrRecompute e.fpscr := rfl
@[simp] theorem applyFp_cr (e : FpEffect) : (s.applyFp e).cr = e.cr := rfl
@[simp] theorem applyFp_xer (e : FpEffect) : (s.applyFp e).xer = s.xer := rfl
@[simp] theorem applyFp_lr (e : FpEffect) : (s.applyFp e).lr = s.lr := rfl
@[simp] theorem applyFp_ctr (e : FpEffect) : (s.applyFp e).ctr = s.ctr := rfl
@[simp] theorem applyFp_dec (e : FpEffect) : (s.applyFp e).dec = s.dec := rfl
@[simp] theorem applyFp_ear (e : FpEffect) : (s.applyFp e).ear = s.ear := rfl
@[simp] theorem applyFp_sprg (e : FpEffect) : (s.applyFp e).sprg = s.sprg := rfl
@[simp] theorem applyFp_sdr1 (e : FpEffect) : (s.applyFp e).sdr1 = s.sdr1 := rfl
@[simp] theorem applyFp_tbl (e : FpEffect) : (s.applyFp e).tbl = s.tbl := rfl
@[simp] theorem applyFp_tbu (e : FpEffect) : (s.applyFp e).tbu = s.tbu := rfl
@[simp] theorem applyFp_pvr (e : FpEffect) : (s.applyFp e).pvr = s.pvr := rfl
@[simp] theorem applyFp_bat (e : FpEffect) : (s.applyFp e).bat = s.bat := rfl
@[simp] theorem applyFp_implSprs (e : FpEffect) : (s.applyFp e).implSprs = s.implSprs := rfl
@[simp] theorem applyFp_extSignal (e : FpEffect) : (s.applyFp e).extSignal = s.extSignal := rfl
@[simp] theorem applyFp_sresetPending (e : FpEffect) : (s.applyFp e).sresetPending = s.sresetPending := rfl
@[simp] theorem applyFp_sresetCorrupt (e : FpEffect) : (s.applyFp e).sresetCorrupt = s.sresetCorrupt := rfl
@[simp] theorem applyFp_mcheckPending (e : FpEffect) : (s.applyFp e).mcheckPending = s.mcheckPending := rfl
@[simp] theorem applyFp_mcheckCorrupt (e : FpEffect) : (s.applyFp e).mcheckCorrupt = s.mcheckCorrupt := rfl
@[simp] theorem applyFp_decPending (e : FpEffect) : (s.applyFp e).decPending = s.decPending := rfl
@[simp] theorem applyFp_checkstop (e : FpEffect) : (s.applyFp e).checkstop = s.checkstop := rfl
@[simp] theorem applyFp_reservation (e : FpEffect) : (s.applyFp e).reservation = s.reservation := rfl
@[simp] theorem applyFp_mem (e : FpEffect) : (s.applyFp e).mem = s.mem := rfl
@[simp] theorem applyFp_stored (e : FpEffect) : (s.applyFp e).stored = s.stored := rfl
@[simp] theorem applyFp_extOut (e : FpEffect) : (s.applyFp e).extOut = s.extOut := rfl
@[simp] theorem applyFp_params (e : FpEffect) : (s.applyFp e).params = s.params := rfl
@[simp] theorem applyFp_inputs (e : FpEffect) : (s.applyFp e).inputs = s.inputs := rfl
@[simp] theorem applyFp_draws (e : FpEffect) : (s.applyFp e).draws = s.draws := rfl

end Sys2Proof.Machine
end

