-- ==== Sys2Proof/Laws/Memory.lean ====
section
/-! SUPPORT. The laws of sparse tables and of memory: reading after a write, and the canonical form kept by every operation. -/

namespace Sys2Proof.Machine

section Cells

variable {α : Type} [DecidableEq α] (d : α)

omit [DecidableEq α] in
/-- A key that no pair has holds `d`. -/
theorem Cells.read_absent (m : List (Nat × α)) (a : Nat) (h : ∀ c ∈ m, c.1 ≠ a) : Cells.read d m a = d := by
  induction m with
  | nil => rfl
  | cons c m ih =>
    have hc : c.1 ≠ a := h c (by simp)
    simp only [Cells.read, hc, if_false]
    exact ih fun e hd => h e (List.mem_cons_of_mem _ hd)

/-- A pair put at the head reads as its value at its own key, where no later pair has that key. -/
theorem Cells.read_cons_same (a : Nat) (v : α) (m : List (Nat × α)) (h : ∀ c ∈ m, c.1 ≠ a) :
    Cells.read d (Cells.cons d a v m) a = v := by
  unfold Cells.cons
  split
  · next hv => rw [Cells.read_absent d m a h, hv]
  · simp [Cells.read]

theorem Cells.read_cons_other (a b : Nat) (v : α) (m : List (Nat × α)) (h : a ≠ b) :
    Cells.read d (Cells.cons d a v m) b = Cells.read d m b := by
  unfold Cells.cons
  split
  · rfl
  · simp [Cells.read, h]

omit [DecidableEq α] in
/-- In a table whose keys lie above `a`, no pair has key `a`. -/
theorem Cells.above (m : List (Nat × α)) (a : Nat) (h : ∀ c ∈ m, a < c.1) : ∀ c ∈ m, c.1 ≠ a :=
  fun c hc => Nat.ne_of_gt (h c hc)

/-- A value that is written reads back, in a table in canonical form. -/
theorem Cells.read_write_same (m : List (Nat × α)) (a : Nat) (v : α) (h : m.Pairwise (fun c e => c.1 < e.1)) :
    Cells.read d (Cells.write d m a v) a = v := by
  induction m with
  | nil => exact Cells.read_cons_same d a v [] (by simp)
  | cons c m ih =>
    obtain ⟨hc, hm⟩ := List.pairwise_cons.mp h
    unfold Cells.write
    split
    · next hlt =>
      refine Cells.read_cons_same d a v _ fun e hd => ?_
      rcases List.mem_cons.mp hd with rfl | hd
      · exact Nat.ne_of_gt hlt
      · exact Nat.ne_of_gt (Nat.lt_trans hlt (hc e hd))
    · next hge =>
      split
      · next heq => exact Cells.read_cons_same d a v m fun e hd => Nat.ne_of_gt (heq ▸ hc e hd)
      · next hne =>
        simp only [Cells.read, Ne.symm hne, if_false]
        exact ih hm

/-- A write leaves every other key as it was, in any table. -/
theorem Cells.read_write_other (m : List (Nat × α)) (a b : Nat) (v : α) (h : a ≠ b) :
    Cells.read d (Cells.write d m a v) b = Cells.read d m b := by
  induction m with
  | nil => exact Cells.read_cons_other d a b v [] h
  | cons c m ih =>
    unfold Cells.write
    split
    · exact Cells.read_cons_other d a b v _ h
    · split
      · next heq =>
        rw [Cells.read_cons_other d a b v m h]
        have : c.1 ≠ b := heq ▸ h
        simp [Cells.read, this]
      · simp only [Cells.read, ih]

/-- The pairs of a table after a write are those before it, and the one written. -/
theorem Cells.mem_write (m : List (Nat × α)) (a : Nat) (v : α) (c : Nat × α) (hc : c ∈ Cells.write d m a v) :
    c ∈ m ∨ (c = (a, v) ∧ v ≠ d) := by
  induction m with
  | nil =>
    simp only [Cells.write, Cells.cons] at hc
    split at hc
    · simp at hc
    · next h => exact .inr ⟨by simpa using hc, h⟩
  | cons e m ih =>
    have key : ∀ l : List (Nat × α), c ∈ Cells.cons d a v l → c ∈ l ∨ (c = (a, v) ∧ v ≠ d) := by
      intro l hl
      unfold Cells.cons at hl
      split at hl
      · exact .inl hl
      · next h => rcases List.mem_cons.mp hl with h1 | h1
                  · exact .inr ⟨h1, h⟩
                  · exact .inl h1
    unfold Cells.write at hc
    split at hc
    · exact key _ hc
    · split at hc
      · rcases key _ hc with h | h
        · exact .inl (List.mem_cons_of_mem _ h)
        · exact .inr h
      · rcases List.mem_cons.mp hc with h | h
        · exact .inl (by simp [h])
        · rcases ih h with h | h
          · exact .inl (List.mem_cons_of_mem _ h)
          · exact .inr h

/-- A write keeps the keys strictly rising. -/
theorem Cells.write_sorted (m : List (Nat × α)) (a : Nat) (v : α) (h : m.Pairwise (fun c e => c.1 < e.1)) :
    (Cells.write d m a v).Pairwise (fun c e => c.1 < e.1) := by
  induction m with
  | nil => simp only [Cells.write, Cells.cons]; split <;> simp
  | cons e m ih =>
    obtain ⟨he, hm⟩ := List.pairwise_cons.mp h
    unfold Cells.write
    split
    · next hlt =>
      unfold Cells.cons
      split
      · exact h
      · refine List.pairwise_cons.mpr ⟨fun c hc => ?_, h⟩
        rcases List.mem_cons.mp hc with rfl | hc
        · exact hlt
        · exact Nat.lt_trans hlt (he c hc)
    · split
      · next heq =>
        unfold Cells.cons
        split
        · exact hm
        · exact List.pairwise_cons.mpr ⟨fun c hc => heq ▸ he c hc, hm⟩
      · next hge hne =>
        refine List.pairwise_cons.mpr ⟨fun c hc => ?_, ih hm⟩
        rcases Cells.mem_write d m a v c hc with h1 | ⟨h1, -⟩
        · exact he c h1
        · subst h1; omega

/-- A write of a key below the bound keeps the canonical form. -/
theorem Cells.write_wf (bound : Nat) (m : List (Nat × α)) (a : Nat) (v : α) (h : Cells.wf d bound m) (ha : a < bound) :
    Cells.wf d bound (Cells.write d m a v) := by
  refine ⟨Cells.write_sorted d m a v h.1, fun c hc => ?_⟩
  rcases Cells.mem_write d m a v c hc with h1 | ⟨h1, hv⟩
  · exact h.2 c h1
  · subst h1; exact ⟨hv, ha⟩

end Cells

/-- A byte that is written reads back, in a memory in canonical form. -/
theorem Memory.read_write_same (m : Memory) (a : Nat) (v : Byte) (h : m.Pairwise (fun c e => c.1 < e.1)) :
    Memory.read (Memory.write m a v) a = v := Cells.read_write_same _ m a v h

/-- A write leaves every other address as it was, in any memory. -/
theorem Memory.read_write_other (m : Memory) (a b : Nat) (v : Byte) (h : a ≠ b) :
    Memory.read (Memory.write m a v) b = Memory.read m b := Cells.read_write_other _ m a b v h

/-- A write within 32 bits of address keeps the canonical form. -/
theorem Memory.write_wf (m : Memory) (a : Nat) (v : Byte) (h : Memory.wf m) (ha : a < 2 ^ 32) :
    Memory.wf (Memory.write m a v) := Cells.write_wf _ _ m a v h ha

/-- The memory of the reset state is in canonical form. -/
theorem Memory.wf_reset : Memory.wf State.reset.mem := ⟨List.Pairwise.nil, fun _ h => by cases h⟩

theorem mem_insertAddress (a b : Nat) (l : List Nat) : b ∈ insertAddress a l ↔ b = a ∨ b ∈ l := by
  induction l with
  | nil => simp [insertAddress]
  | cons c l ih =>
    unfold insertAddress
    split
    · simp
    · split
      · next h => subst h; simp
      · simp only [List.mem_cons, ih]; tauto

/-- Recording an address within 32 bits keeps the canonical form of the list. -/
theorem insertAddress_wf (a : Nat) (l : List Nat) (h : storedWf l) (ha : a < 2 ^ 32) : storedWf (insertAddress a l) := by
  refine ⟨?_, fun b hb => ?_⟩
  · obtain ⟨hp, -⟩ := h
    induction l with
    | nil => simp [insertAddress]
    | cons c l ih =>
      obtain ⟨hc, hl⟩ := List.pairwise_cons.mp hp
      unfold insertAddress
      split
      · next hlt =>
        refine List.pairwise_cons.mpr ⟨fun b hb => ?_, hp⟩
        rcases List.mem_cons.mp hb with rfl | hb
        · exact hlt
        · exact Nat.lt_trans hlt (hc b hb)
      · split
        · exact hp
        · refine List.pairwise_cons.mpr ⟨fun b hb => ?_, ih hl⟩
          rcases (mem_insertAddress a b l).mp hb with rfl | hb
          · omega
          · exact hc b hb
  · rcases (mem_insertAddress a b l).mp hb with rfl | hb
    · exact ha
    · exact h.2 b hb

/-- Storing bytes changes memory and the list of stored addresses only. -/
theorem storeBytes_eq (as : List Nat) (bs : List Byte) (s : State) :
    ∃ m l, State.storeBytes as bs s = { s with mem := m, stored := l } := by
  induction as generalizing bs s with
  | nil => exact ⟨s.mem, s.stored, by unfold State.storeBytes; rfl⟩
  | cons a as ih =>
    cases bs with
    | nil => exact ⟨s.mem, s.stored, by unfold State.storeBytes; rfl⟩
    | cons b bs =>
      obtain ⟨m, l, h⟩ := ih bs { s with mem := s.mem.write a b, stored := insertAddress a s.stored }
      exact ⟨m, l, by unfold State.storeBytes; rw [h]⟩

/-- Storing bytes leaves every address outside the list as it was. -/
theorem storeBytes_read_other (as : List Nat) (bs : List Byte) (s : State) (a : Nat) (h : a ∉ as) :
    (State.storeBytes as bs s).mem.read a = s.mem.read a := by
  induction as generalizing bs s with
  | nil => unfold State.storeBytes; rfl
  | cons b as ih =>
    cases bs with
    | nil => unfold State.storeBytes; rfl
    | cons v bs =>
      have hne : b ≠ a := fun e => h (by simp [e])
      unfold State.storeBytes
      rw [ih bs _ (fun hm => h (List.mem_cons_of_mem _ hm))]
      exact Memory.read_write_other s.mem b a v hne

/-- Storing bytes at distinct addresses puts each byte at its own address. -/
theorem storeBytes_read_same (as : List Nat) (bs : List Byte) (s : State) (k : Nat) (hm : Memory.wf s.mem)
    (ha : ∀ a ∈ as, a < 2 ^ 32) (hd : as.Nodup) (hk : k < as.length) (hb : k < bs.length) :
    (State.storeBytes as bs s).mem.read as[k] = bs[k] := by
  induction as generalizing bs s k with
  | nil => simp at hk
  | cons a as ih =>
    cases bs with
    | nil => simp at hb
    | cons b bs =>
      obtain ⟨hna, hd'⟩ := List.nodup_cons.mp hd
      have h1 := ha a (by simp)
      have h2 : ∀ c ∈ as, c < 2 ^ 32 := fun c hc => ha c (List.mem_cons_of_mem _ hc)
      unfold State.storeBytes
      cases k with
      | zero =>
        simp only [List.getElem_cons_zero]
        rw [storeBytes_read_other as bs _ a hna]
        exact Memory.read_write_same s.mem a b hm.1
      | succ k =>
        simp only [List.getElem_cons_succ]
        exact ih bs _ k (Memory.write_wf _ _ _ hm h1) h2 hd' (by simpa using hk) (by simpa using hb)

/-- Storing bytes keeps memory and the list of stored addresses in canonical form. -/
theorem storeBytes_wf (as : List Nat) (bs : List Byte) (s : State) (hm : Memory.wf s.mem) (hs : storedWf s.stored)
    (ha : ∀ a ∈ as, a < 2 ^ 32) :
    Memory.wf (State.storeBytes as bs s).mem ∧ storedWf (State.storeBytes as bs s).stored := by
  induction as generalizing bs s with
  | nil => unfold State.storeBytes; exact ⟨hm, hs⟩
  | cons a as ih =>
    cases bs with
    | nil => unfold State.storeBytes; exact ⟨hm, hs⟩
    | cons v bs =>
      unfold State.storeBytes
      have h1 := ha a (by simp)
      exact ih bs _ (Memory.write_wf _ _ _ hm h1) (insertAddress_wf _ _ hs h1)
        fun b hb => ha b (List.mem_cons_of_mem _ hb)

end Sys2Proof.Machine
end

