-- ==== Sys2Proof/Laws/Ops.lean ====
section
/-! SUPPORT. For each shared operation, once, everything it can do. -/

namespace Sys2Proof.Machine

/-! ### Addresses -/

theorem collectAddresses_ok (ts : List Translation) (as : List Nat) (h : collectAddresses ts = .ok as) :
    as.length = ts.length ∧ ∀ a ∈ as, ∃ pa, Translation.mapped pa ∈ ts ∧ a = pa.toNat := by
  induction ts generalizing as with
  | nil => simp only [collectAddresses, Except.ok.injEq] at h; subst h; simp
  | cons t ts ih =>
    cases t with
    | fails c => simp [collectAddresses] at h
    | mapped pa =>
      simp only [collectAddresses] at h
      split at h
      · next l hl =>
        simp only [Except.ok.injEq] at h
        subst h
        obtain ⟨h1, h2⟩ := ih l hl
        refine ⟨by simp [h1], fun a ha => ?_⟩
        rcases List.mem_cons.mp ha with rfl | ha
        · exact ⟨pa, by simp, rfl⟩
        · obtain ⟨q, hq, e⟩ := h2 a ha
          exact ⟨q, List.mem_cons_of_mem _ hq, e⟩
      · simp at h

theorem collectAddresses_mapped (l : List Word) :
    collectAddresses (l.map Translation.mapped) = .ok (l.map BitVec.toNat) := by
  induction l with
  | nil => rfl
  | cons a l ih => simp [collectAddresses, ih]

/-- The physical addresses of an access that can be made: one a byte, each valid and within 32 bits. -/
theorem physBytes_ok (s : State) (k : AccessKind) (ea : Word) (n : Nat) (as : List Nat)
    (h : s.physBytes k ea n = .ok as) :
    as.length = n ∧ ∀ a ∈ as, a < 2 ^ 32 ∧ isAbsent s.params a = false := by
  unfold State.physBytes at h
  simp only at h
  split at h
  · simp at h
  · next hn =>
    obtain ⟨h1, h2⟩ := collectAddresses_ok _ _ h
    refine ⟨by simpa using h1, fun a ha => ?_⟩
    obtain ⟨pa, hm, rfl⟩ := h2 a ha
    refine ⟨pa.isLt, ?_⟩
    have := List.any_eq_true.not.mp hn
    simp only [not_exists, not_and, Bool.not_eq_true] at this
    exact this _ hm

theorem translate_off (s : State) (k : AccessKind) (ea : Word)
    (h : translationOn s.msr k = false) :
    s.translate k ea = .mapped ea := by
  unfold State.translate
  simp [h]

/-- With translation off and every byte at a valid address, the physical addresses are the effective ones. -/
theorem physBytes_off (s : State) (k : AccessKind) (ea : Word) (n : Nat)
    (h : translationOn s.msr k = false)
    (hv : ∀ i < n, isAbsent s.params (ea + BitVec.ofNat 32 i).toNat = false) :
    s.physBytes k ea n = .ok ((List.range n).map fun i => (ea + BitVec.ofNat 32 i).toNat) := by
  have ht : (List.range n).map (fun i => s.translate k (ea + BitVec.ofNat 32 i)) =
      ((List.range n).map fun i => ea + BitVec.ofNat 32 i).map Translation.mapped := by
    rw [List.map_map]
    exact List.map_congr_left fun i _ => translate_off s k _ h
  unfold State.physBytes
  simp only [ht, collectAddresses_mapped]
  rw [if_neg]
  · rw [List.map_map]; rfl
  · simp only [List.any_map, Bool.not_eq_true, List.any_eq_false]
    intro i hi
    simpa [hitsAbsent] using hv i (List.mem_range.mp hi)

/-- A data access that reaches its operand. -/
theorem physBytes_reaches (s : State) (k : AccessKind) (hk : k ≠ .fetch) (ea : Word) (n : Nat) (h : s.reaches ea n) :
    s.physBytes k ea n = .ok ((List.range n).map fun i => (ea + BitVec.ofNat 32 i).toNat) := by
  cases k with
  | fetch => exact absurd rfl hk
  | load => exact physBytes_off s .load ea n h.1 h.2
  | store => exact physBytes_off s .store ea n h.1 h.2

/-! ### Special-purpose registers -/

/-- A number names a register only through its entry of the table. -/
theorem sprOf_mem (n : BitVec 10) (r : Spr) (h : sprOf n = some r) : (n.toNat, r) ∈ sprTable := by
  unfold sprOf at h
  rw [Option.map_eq_some_iff] at h
  obtain ⟨e, he, rfl⟩ := h
  have h1 := List.find?_some he
  rw [beq_iff_eq] at h1
  rw [← h1]
  exact List.mem_of_find?_eq_some he

theorem sprSupervisor_iff (n : BitVec 10) : sprSupervisor n = true ↔ n.toNat / 16 % 2 = 1 := by
  simp [sprSupervisor, BitVec.getLsbD, Nat.testBit, Nat.shiftRight_eq_div_pow]

/-! ### Exception entry -/

/-- What an exception entry of type `T` leaves: MSR and pc as 60_exceptions.md R158 and R159 say, SRR0 and SRR1 defined
(R162), and nothing changed but those, the fault registers and the count of free values. -/
def Entered (s t : State) : Prop :=
  ∃ T srr0 srr1 dar dsisr draws,
    t = { s with srr0 := srr0, srr1 := srr1, srr0Undefined := false, srr1Undefined := false,
                 msr := newMsr s.params T s.msr, pc := vectorAddress (msrIP s.msr) T,
                 dar := dar, dsisr := dsisr, draws := draws }

/-- The checkstop state is entered, nothing else changes but the count of free values. -/
def Stopped (s t : State) : Prop := ∃ draws, t = { s with checkstop := true, draws := draws }

theorem takeException_entered (s : State) (T : ExcType) (a info : Word) (c : Bool) :
    Entered s (s.takeException T a info c) := ⟨T, _, _, s.dar, s.dsisr, _, rfl⟩

theorem program_entered (s : State) (k : ProgramKind) (a : Word) : Entered s (s.program k a) :=
  takeException_entered s _ _ _ _

theorem implementationException_entered (s : State) (page : BitVec 6) :
    Entered s (s.implementationException page) := ⟨.implementation page, _, _, s.dar, s.dsisr, _, rfl⟩

theorem fpUnavailable_entered (s : State) : Entered s s.fpUnavailable := takeException_entered s _ _ _ _

theorem dsi_entered (s : State) (ea : Word) (n : Nat) : Entered s (s.dsi ea n) := ⟨.dsi, _, _, _, _, _, rfl⟩

theorem alignment_entered (s : State) (ea : Word) (n : Nat) : Entered s (s.alignment ea n) :=
  ⟨.alignment, _, _, _, _, _, rfl⟩

theorem machineCheck_cases (s : State) (c : Bool) : Entered s (s.machineCheck c) ∨ Stopped s (s.machineCheck c) := by
  unfold State.machineCheck
  split
  · exact .inl ⟨.machineCheck, _, _, _, _, _, rfl⟩
  · exact .inr ⟨s.draws, rfl⟩

theorem entered_skip (s t : State) (k : Nat) (h : Entered (s.skip k) t) : Entered s t := by
  obtain ⟨T, a, b, c, d, e, rfl⟩ := h
  exact ⟨T, a, b, c, d, e, rfl⟩

theorem stopped_skip (s t : State) (k : Nat) (h : Stopped (s.skip k) t) : Stopped s t := by
  obtain ⟨d, rfl⟩ := h
  exact ⟨d, rfl⟩

theorem accessMachineCheck_cases (s : State) : Entered s s.accessMachineCheck ∨ Stopped s s.accessMachineCheck :=
  (machineCheck_cases (s.skip 1) s.drawnBool).imp (entered_skip s _ 1) (stopped_skip s _ 1)

theorem accessException_cases (s : State) (f : AccessFault) (ea : Word) (n : Nat) :
    Entered s (s.accessException f ea n) ∨ Stopped s (s.accessException f ea n) := by
  cases f with
  | machineCheck => exact accessMachineCheck_cases s
  | storage c => exact .inl (dsi_entered s ea n)

theorem alignmentOr_cases (s : State) (k : AccessKind) (ea : Word) (scan n : Nat) :
    Entered s (s.alignmentOr k ea scan n) ∨ Stopped s (s.alignmentOr k ea scan n) := by
  unfold State.alignmentOr
  split
  · exact accessMachineCheck_cases s
  · split
    · exact .inl (entered_skip s _ 1 (dsi_entered _ ea n))
    · exact .inl (entered_skip s _ 1 (alignment_entered _ ea n))
  · exact .inl (alignment_entered s ea n)

/-! ### Completion -/

/-- A completed instruction is left as it is, or traced. -/
theorem retire_cases (t : State) (m w : Word) : t.retire m w = t ∨ Entered t (t.retire m w) := by
  unfold State.retire
  split
  · exact .inr (takeException_entered t _ _ _ _)
  · exact .inl rfl

/-- An instruction that has completed is left as it is, or where the trace exception is due that exception is taken. -/
theorem retire_eq (s t : State) (w : Word) (h : t.params = s.params) :
    (s.traced w = false → t.retire s.msr w = t) ∧
      (s.traced w = true → t.retire s.msr w = t.takeException .trace t.pc 0 false) := by
  have e : traceDue t.params s.msr w = s.traced w := by rw [h, traceDue, State.traced, Bool.and_comm]
  unfold State.retire
  rw [e]
  constructor <;> intro h <;> simp [h]

theorem completeFp_cases (t : State) (cia m w : Word) : t.completeFp cia m w = t ∨ Entered t (t.completeFp cia m w) := by
  unfold State.completeFp
  split
  · exact .inr (program_entered t _ _)
  · exact retire_cases t m w

/-- What survives `completeFp` as it is raises no enabled exception. -/
theorem completeFp_condition (t : State) (cia m w : Word) :
    (t.completeFp cia m w = t ∧ t.fpEnabledCondition = false) ∨ Entered t (t.completeFp cia m w) := by
  unfold State.completeFp
  split
  · exact .inr (program_entered t _ _)
  · next h =>
    rcases retire_cases t m w with h1 | h1
    · exact .inl ⟨h1, by simpa using h⟩
    · exact .inr h1

theorem setFpscr_eq (s : State) (f : Word) (rc : Bool) :
    ∃ c, s.setFpscr f rc = { s with fpscr := fpscrRecompute f, cr := c } := by
  unfold State.setFpscr
  simp only
  split
  · exact ⟨_, rfl⟩
  · exact ⟨s.cr, rfl⟩

/-! ### Accesses -/

/-- SRR0 and SRR1, and whether they are defined, may have changed, and the count of free values; nothing else has. -/
def Disturbed (s t : State) : Prop :=
  ∃ srr0 srr1 undef0 undef1 draws, t = { s with
    srr0 := srr0, srr1 := srr1, srr0Undefined := undef0, srr1Undefined := undef1, draws := draws }

/-- Besides what a translated access disturbs, general registers may have changed. -/
def Loaded (s t : State) : Prop := ∃ g, Disturbed { s with gpr := g } t

/-- Besides what a translated access disturbs, memory and the list of stored addresses may have changed. -/
def Stored (s t : State) : Prop := ∃ m l, Disturbed { s with mem := m, stored := l } t

theorem disturbed_refl (s : State) : Disturbed s s := ⟨_, _, _, _, _, rfl⟩

theorem loaded_trans (s t u : State) (h : Loaded s t) (k : Loaded t u) : Loaded s u := by
  obtain ⟨g, _, _, _, _, _, rfl⟩ := h
  obtain ⟨g', a, b, c, d, e, rfl⟩ := k
  exact ⟨g', a, b, c, d, e, rfl⟩

theorem stored_trans (s t u : State) (h : Stored s t) (k : Stored t u) : Stored s u := by
  obtain ⟨m, l, _, _, _, _, _, rfl⟩ := h
  obtain ⟨m', l', a, b, c, d, e, rfl⟩ := k
  exact ⟨m', l', a, b, c, d, e, rfl⟩

theorem disturbSrr_eq (s : State) : Disturbed s s.disturbSrr := by
  unfold State.disturbSrr
  split
  · exact ⟨_, _, _, _, _, rfl⟩
  · exact disturbed_refl s

theorem afterAccess_eq (s : State) : Disturbed s s.afterAccess := by
  unfold State.afterAccess
  split
  · exact disturbSrr_eq s
  · exact disturbed_refl s

theorem afterFetch_eq (s : State) : Disturbed s s.afterFetch := by
  unfold State.afterFetch
  split
  · exact disturbSrr_eq s
  · exact disturbed_refl s

theorem afterAccess_off (s : State) (h : msrDR s.msr = false) : s.afterAccess = s := by
  unfold State.afterAccess
  simp [h]

theorem afterFetch_off (s : State) (h : msrIR s.msr = false) : s.afterFetch = s := by
  unfold State.afterFetch
  simp [h]

/-- The return reads both saved registers: it finds one undefined exactly when reading one of them would fault. -/
theorem savedContextUndefined_eq (s : State) :
    s.savedContextUndefined = (s.sprUndefined .srr0 || s.sprUndefined .srr1) := by
  simp [State.savedContextUndefined, State.sprUndefined, Bool.and_or_distrib_left]

/-- Reading any register but SRR0 and SRR1 never faults. -/
theorem sprUndefined_other (s : State) (r : Spr) (h0 : r ≠ .srr0) (h1 : r ≠ .srr1) : s.sprUndefined r = false := by
  simp [State.sprUndefined, h0, h1]

/-- Checking alignment conditions uses free values and changes nothing else. -/
theorem alignCheck_eq (cs : List AlignCause) (s : State) : ∃ b d, State.alignCheck cs s = (b, { s with draws := d }) := by
  induction cs generalizing s with
  | nil => exact ⟨false, s.draws, rfl⟩
  | cons c cs ih =>
    unfold State.alignCheck
    split
    · exact ⟨true, s.draws, rfl⟩
    · exact ih s
    · split
      · exact ⟨true, _, rfl⟩
      · obtain ⟨b, d, h⟩ := ih (s.skip 1)
        exact ⟨b, d, h⟩

/-- Where every condition that holds is performed, no alignment exception is taken and nothing is drawn. -/
theorem alignCheck_performs (cs : List AlignCause) (s : State) (h : s.performs cs) :
    State.alignCheck cs s = (false, s) := by
  induction cs with
  | nil => rfl
  | cons c cs ih =>
    unfold State.alignCheck
    rw [h c (by simp)]
    exact ih fun d hd => h d (List.mem_cons_of_mem _ hd)

theorem withAlignment_performs (s : State) (cs : List AlignCause) (k : AccessKind) (ea : Word) (scan n : Nat)
    (perform : State → Host.Outcome State Fault Refusal) (h : s.performs cs) :
    s.withAlignment cs k ea scan n perform = perform s := by
  unfold State.withAlignment
  rw [alignCheck_performs cs s h]

/-- An access under alignment conditions: an exception or checkstop, or it is performed after some free values. -/
theorem withAlignment_cases (s : State) (cs : List AlignCause) (k : AccessKind) (ea : Word) (scan n : Nat)
    (perform : State → Host.Outcome State Fault Refusal) :
    (∃ t, s.withAlignment cs k ea scan n perform = .next t ∧ (Entered s t ∨ Stopped s t)) ∨
      ∃ d, s.withAlignment cs k ea scan n perform = perform { s with draws := d } := by
  obtain ⟨b, d, h⟩ := alignCheck_eq cs s
  unfold State.withAlignment
  rw [h]
  cases b with
  | true =>
    refine .inl ⟨_, rfl, ?_⟩
    rcases alignmentOr_cases { s with draws := d } k ea scan n with ⟨T, a, b, c, e, g, h1⟩ | ⟨e, h1⟩
    · exact .inl ⟨T, a, b, c, e, g, h1⟩
    · exact .inr ⟨e, h1⟩
  | false => exact .inr ⟨d, rfl⟩

/-- A store that can be made: it changes memory, the list of stored addresses, and SRR0 and SRR1 where they are
volatile. -/
theorem writeBytes_eq (s t : State) (ea : Word) (bs : List Byte) (h : s.writeBytes ea bs = .ok t) : Stored s t := by
  unfold State.writeBytes at h
  split at h
  · next as _ =>
    simp only [Except.ok.injEq] at h
    obtain ⟨m, l, h1⟩ := storeBytes_eq as bs s
    exact ⟨m, l, h1 ▸ h ▸ afterAccess_eq (State.storeBytes as bs s)⟩
  · simp at h

/-- A store that can be made keeps memory and the list of stored addresses in canonical form. -/
theorem writeBytes_wf (s t : State) (ea : Word) (bs : List Byte) (h : s.writeBytes ea bs = .ok t)
    (hm : Memory.wf s.mem) (hs : storedWf s.stored) : Memory.wf t.mem ∧ storedWf t.stored := by
  unfold State.writeBytes at h
  split at h
  · next as hp =>
    simp only [Except.ok.injEq] at h
    obtain ⟨_, _, _, _, _, h2⟩ := afterAccess_eq (State.storeBytes as bs s)
    have := storeBytes_wf as bs s hm hs fun a ha => ((physBytes_ok s _ _ _ as hp).2 a ha).1
    rw [← h, h2]
    exact this
  · simp at h

/-- Loading words changes general registers, and SRR0 and SRR1 where they are volatile. -/
theorem loadWords_eq (rs : List Reg) (ea : Word) (s : State) : Loaded s (State.loadWords rs ea s).1 := by
  induction rs generalizing ea s with
  | nil => exact ⟨s.gpr, disturbed_refl s⟩
  | cons r rs ih =>
    unfold State.loadWords
    split
    · next v _ => exact loaded_trans _ _ _ ⟨_, afterAccess_eq (s.setGpr r v)⟩ (ih (ea + 4) _)
    · exact ⟨s.gpr, disturbed_refl s⟩

/-- Loading a string changes general registers, and SRR0 and SRR1 where they are volatile. -/
theorem loadString_eq (rd : Reg) (ea : Word) (n k : Nat) (s : State) :
    Loaded s (State.loadString rd ea n k s).1 := by
  induction n generalizing k s with
  | zero => exact ⟨s.gpr, disturbed_refl s⟩
  | succ n ih =>
    unfold State.loadString
    split
    · exact loaded_trans _ _ _ ⟨_, afterAccess_eq (s.setGpr _ _)⟩ (ih (k + 1) _)
    · exact ⟨s.gpr, disturbed_refl s⟩

/-- Storing words changes memory, the list of stored addresses, and SRR0 and SRR1 where they are volatile; the
canonical forms are kept. -/
theorem storeWords_eq (rs : List Reg) (ea : Word) (s : State) :
    Stored s (State.storeWords rs ea s).1 ∧ (Memory.wf s.mem → storedWf s.stored →
      Memory.wf (State.storeWords rs ea s).1.mem ∧ storedWf (State.storeWords rs ea s).1.stored) := by
  induction rs generalizing ea s with
  | nil => exact ⟨⟨s.mem, s.stored, disturbed_refl s⟩, fun h1 h2 => ⟨h1, h2⟩⟩
  | cons r rs ih =>
    unfold State.storeWords
    split
    · next t ht =>
      refine ⟨stored_trans _ _ _ (writeBytes_eq s t ea _ ht) (ih (ea + 4) t).1, fun h1 h2 => ?_⟩
      obtain ⟨h3, h4⟩ := writeBytes_wf s t ea _ ht h1 h2
      exact (ih (ea + 4) t).2 h3 h4
    · exact ⟨⟨s.mem, s.stored, disturbed_refl s⟩, fun h1 h2 => ⟨h1, h2⟩⟩

/-- Storing a string likewise. -/
theorem storeString_eq (r : Reg) (ea : Word) (n k : Nat) (s : State) :
    Stored s (State.storeString r ea n k s).1 ∧ (Memory.wf s.mem → storedWf s.stored →
      Memory.wf (State.storeString r ea n k s).1.mem ∧ storedWf (State.storeString r ea n k s).1.stored) := by
  induction n generalizing k s with
  | zero => exact ⟨⟨s.mem, s.stored, disturbed_refl s⟩, fun h1 h2 => ⟨h1, h2⟩⟩
  | succ n ih =>
    unfold State.storeString
    split
    · next t ht =>
      refine ⟨stored_trans _ _ _ (writeBytes_eq s t _ _ ht) (ih (k + 1) t).1, fun h1 h2 => ?_⟩
      obtain ⟨h3, h4⟩ := writeBytes_wf s t _ _ ht h1 h2
      exact (ih (k + 1) t).2 h3 h4
    · exact ⟨⟨s.mem, s.stored, disturbed_refl s⟩, fun h1 h2 => ⟨h1, h2⟩⟩

/-! ### Exception types of the implementation -/

/-- Whether a word raises an exception type of the implementation: the one it raises is a member at an implementation's
offset that covers the word, and only the count of free values changes. -/
theorem raisedVector_cases (w : Word) (vs : List ImplVector) (s : State) :
    (∃ d, (State.raisedVector w vs s).2 = { s with draws := d }) ∧
      ∀ page, (State.raisedVector w vs s).1 = some page →
        ∃ v ∈ vs, v.page = page ∧ v.atImplementationOffset = true ∧ wordIn v.words w = true := by
  induction vs generalizing s with
  | nil => exact ⟨⟨s.draws, rfl⟩, fun _ h => by cases h⟩
  | cons v vs ih =>
    have tail : ∀ page, (∃ u ∈ vs, u.page = page ∧ u.atImplementationOffset = true ∧ wordIn u.words w = true) →
        ∃ u ∈ v :: vs, u.page = page ∧ u.atImplementationOffset = true ∧ wordIn u.words w = true :=
      fun _ ⟨u, hu, h⟩ => ⟨u, List.mem_cons_of_mem _ hu, h⟩
    unfold State.raisedVector
    split
    · next hv =>
      obtain ⟨h1, h2⟩ := Bool.and_eq_true_iff.mp hv
      split
      · exact ⟨⟨_, rfl⟩, fun page h => ⟨v, by simp, Option.some.inj h, h1, h2⟩⟩
      · obtain ⟨⟨d, hd⟩, h⟩ := ih (s.skip 1)
        exact ⟨⟨d, hd⟩, fun page hp => tail page (h page hp)⟩
    · obtain ⟨hd, h⟩ := ih s
      exact ⟨hd, fun page hp => tail page (h page hp)⟩

/-- A word that the implementation's vectors do not cover raises none of them. -/
theorem raisedVector_none (w : Word) (vs : List ImplVector) (s : State) (h : ∀ v ∈ vs, wordIn v.words w = false) :
    State.raisedVector w vs s = (none, s) := by
  induction vs with
  | nil => rfl
  | cons v vs ih =>
    unfold State.raisedVector
    rw [h v (by simp), Bool.and_false]
    exact ih fun u hu => h u (List.mem_cons_of_mem _ hu)

/-- A word left to the rules of the spec means what it decodes to. -/
theorem run_architected (s : State) (w : Word) (h : s.architected w) : s.run w = s.runDecoded w := by
  unfold State.run
  rw [h.1, raisedVector_none w _ s h.2]
  rfl

end Sys2Proof.Machine
end

