-- ==== Sys2Proof/Laws/Access.lean ====
section
/-! SUPPORT. Memory accesses with data translation off and a reachable operand: what each loads or stores. -/

namespace Sys2Proof.Machine

/-! ### Addresses -/

/-- The address of a byte within a part of an operand. -/
theorem operandAddress_add (ea : Word) (i k : Nat) : ea + BitVec.ofNat 32 i + BitVec.ofNat 32 k = ea + BitVec.ofNat
    32 (i + k) := by
  rw [BitVec.add_assoc, ← BitVec.ofNat_add]

/-- A word within a reachable operand is reachable. -/
theorem reaches_part (s : State) (ea : Word) (n i : Nat) (h : s.reaches ea n) (hi : i + 4 ≤ n) : s.reaches
    (ea + BitVec.ofNat 32 i) 4 := by
  refine ⟨h.1, fun k hk => ?_⟩
  rw [operandAddress_add]; exact h.2 _ (by omega)

/-- The bytes of an operand of at most 2^32 bytes have different addresses. -/
theorem operandAddress_injective (ea : Word) (i j : Nat) (hi : i < 2^32) (hj : j < 2^32) (h :
    (ea + BitVec.ofNat 32 i).toNat = (ea + BitVec.ofNat 32 j).toNat) : i = j := by
  have h1 := BitVec.eq_of_toNat_eq h
  have h2 : BitVec.ofNat 32 i = BitVec.ofNat 32 j := by
    have := congrArg (fun x => x - ea) h1
    simpa [BitVec.add_comm ea, BitVec.add_sub_cancel] using this
  have := congrArg BitVec.toNat h2
  simp at this; omega

/-- The addresses of the `n` bytes at `ea`. -/
def operandAddresses (ea : Word) (n : Nat) : List Nat := (List.range n).map fun i => (ea + BitVec.ofNat 32 i).toNat
theorem mem_operandAddresses (ea : Word) (n a : Nat) : a ∈ operandAddresses ea n ↔ inOperand ea n a := by
  simp [operandAddresses, inOperand]
  constructor <;> rintro ⟨k, h1, h2⟩ <;> exact ⟨k, h1, by rw [h2]⟩
theorem operandAddresses_nodup (ea : Word) (n : Nat) (hn : n ≤ 2^32) : (operandAddresses ea n).Nodup := by
  refine List.Nodup.map_on (fun i hi j hj h => ?_) List.nodup_range
  have hi := List.mem_range.mp hi
  have hj := List.mem_range.mp hj
  exact operandAddress_injective ea _ _ (by omega) (by omega) h

/-- A byte of a part of an operand is a byte of the operand. -/
theorem inOperand_of_part (ea : Word) (i j n a : Nat) (h : inOperand (ea + BitVec.ofNat 32 i) j a) (hn : i + j ≤ n)
    : inOperand ea n a := by
  obtain ⟨k, hk, rfl⟩ := h
  exact ⟨i + k, by omega, by rw [operandAddress_add]⟩

theorem physicalAddress_off (s : State) (k : AccessKind) (hk : k ≠ .fetch) (ea : Word) (h : msrDR s.msr = false) :
    s.physicalAddress k ea = some ea := by
  unfold State.physicalAddress
  rw [translate_off]
  cases k <;> first | exact absurd rfl hk | exact h

/-- An address is misaligned when it is not a multiple of 4. -/
theorem misaligned_iff (ea : Word) : misaligned ea = true ↔ ea.toNat % 4 ≠ 0 := by
  have h : (ea &&& 3).toNat = ea.toNat % 4 := by
    rw [BitVec.toNat_and]
    exact Nat.and_two_pow_sub_one_eq_mod ea.toNat 2
  unfold misaligned
  simp only [bne_iff_ne, ne_eq]
  rw [← BitVec.toNat_inj]
  show ¬(ea &&& 3).toNat = 0 ↔ _
  rw [h]

/-! ### Words -/

/-- The bytes of a word make it again, in the same byte order. -/
theorem wordOfBytes_bytesOfWord (w : Word) (le : Bool) : wordOfBytes le (bytesOfWord le w) = w := by
  cases le <;> simp only [wordOfBytes, bytesOfWord, Bool.false_eq_true, if_false, if_true, List.reverse_reverse,
      List.foldl] <;>
  (refine BitVec.eq_of_getLsbD_eq fun i hi => ?_
   simp only [BitVec.getLsbD_or, BitVec.getLsbD_shiftLeft, BitVec.getLsbD_setWidth, BitVec.getLsbD_extractLsb']
   interval_cases i <;> simp)
theorem bytesOfWord_length (w : Word) (le : Bool) : (bytesOfWord le w).length = 4 := by cases le <;> rfl

/-- What a reachable word reads as. -/
theorem readWord_reaches (s : State) (ea : Word) (h : s.reaches ea 4) : s.readWord ea = .ok (s.wordAt ea) := by
  unfold State.readWord State.readBytes
  rw [physBytes_reaches s .load (by decide) ea 4 h]
  rfl
/-- Loading words from a reachable operand puts the i-th word into the i-th register and changes nothing else. -/
theorem loadWords_reaches (rs : List Reg) (ea : Word) (s : State) (h : s.reaches ea (4 * rs.length)) :
    ∃ g, State.loadWords rs ea s = ({ s with gpr := g }, none) ∧
      (rs.Nodup → ∀ i (hi : i < rs.length), g[rs[i].toNat]'(rs[i].isLt) = s.wordAt (ea + BitVec.ofNat 32 (4 * i))) ∧
      ∀ r : Reg, r ∉ rs → g[r.toNat]'r.isLt = s.gpr[r.toNat]'r.isLt := by
  induction rs generalizing ea s with
  | nil => exact ⟨s.gpr, rfl, by simp, by simp⟩
  | cons r rs ih =>
    have h0 : s.reaches ea 4 := by
      have := reaches_part s ea _ 0 h (by simp); simpa using this
    unfold State.loadWords
    rw [readWord_reaches s ea h0]
    simp only
    have hs : (s.setGpr r (s.wordAt ea)).afterAccess = s.setGpr r (s.wordAt ea) := afterAccess_off _ h.1
    rw [hs]
    have h' : (s.setGpr r (s.wordAt ea)).reaches (ea + 4) (4 * rs.length) := by
      refine ⟨h.1, fun k hk => ?_⟩
      have := h.2 (4 + k) (by simp; omega)
      rw [← operandAddress_add] at this; exact this
    obtain ⟨g, e, hg1, hg2⟩ := ih (ea + 4) _ h'
    refine ⟨g, by rw [e]; rfl, fun hn i hi => ?_, fun q hq => ?_⟩
    · obtain ⟨hn1, hn2⟩ := List.nodup_cons.mp hn
      cases i with
      | zero =>
        simp only [List.getElem_cons_zero]
        rw [hg2 r hn1]
        simp [State.setGpr]
      | succ i =>
        simp only [List.getElem_cons_succ]
        rw [hg1 hn2 i (by simpa using hi)]
        have : ea + 4 + BitVec.ofNat 32 (4 * i) = ea + BitVec.ofNat 32 (4 * (i+1)) := by
          rw [show 4 * (i+1) = 4 + 4 * i by ring, ← operandAddress_add]; rfl
        rw [this]; rfl
    · simp only [List.mem_cons, not_or] at hq
      rw [hg2 q hq.2]
      simp only [State.setGpr]
      rw [Vector.getElem_set_ne]
      intro e; exact hq.1 (BitVec.eq_of_toNat_eq e.symm)

theorem registersFrom_length (r : Reg) : (registersFrom r).length = 32 - r.toNat := by simp [registersFrom]
theorem registersFrom_getElem (r : Reg) (i : Nat) (hi : i < (registersFrom r).length) :
    ((registersFrom r)[i]).toNat = r.toNat + i := by
  rw [registersFrom_length] at hi
  have := r.isLt
  simp [registersFrom]; omega
theorem registersFrom_nodup (r : Reg) : (registersFrom r).Nodup := by
  rw [List.nodup_iff_injective_get]
  intro a b h
  have h1 := registersFrom_getElem r a a.isLt
  have h2 := registersFrom_getElem r b b.isLt
  have : (registersFrom r)[a.val] = (registersFrom r)[b.val] := h
  rw [this] at h1
  exact Fin.ext (by omega)
theorem not_mem_registersFrom (r q : Reg) (h : q.toNat < r.toNat) : q ∉ registersFrom r := by
  intro hm
  obtain ⟨i, hi, e⟩ := List.getElem_of_mem hm
  have := registersFrom_getElem r i hi
  rw [e] at this; omega

/-- What the list of stored addresses holds after bytes are stored. -/
theorem mem_stored_storeBytes (as : List Nat) (bs : List Byte) (s : State) (hl : as.length ≤ bs.length) (a : Nat) :
    a ∈ (State.storeBytes as bs s).stored ↔ a ∈ s.stored ∨ a ∈ as := by
  induction as generalizing bs s with
  | nil => unfold State.storeBytes; simp
  | cons b as ih =>
    cases bs with
    | nil => simp at hl
    | cons v bs =>
      unfold State.storeBytes
      rw [ih bs _ (by simpa using hl)]
      simp only [mem_insertAddress, List.mem_cons]
      tauto

/-- Storing bytes keeps memory in canonical form. -/
theorem storeBytes_memory_wf (as : List Nat) (bs : List Byte) (s : State) (hm : Memory.wf s.mem)
    (ha : ∀ a ∈ as, a < 2 ^ 32) : Memory.wf (State.storeBytes as bs s).mem := by
  induction as generalizing bs s with
  | nil => unfold State.storeBytes; exact hm
  | cons a as ih =>
    cases bs with
    | nil => unfold State.storeBytes; exact hm
    | cons v bs =>
      unfold State.storeBytes
      exact ih bs _ (Memory.write_wf _ _ _ hm (ha a (by simp))) fun b hb => ha b (List.mem_cons_of_mem _ hb)

/-- A store of bytes at a reachable operand: each byte at its place, nothing else changed, the canonical form kept. -/
theorem writeBytes_reaches (s : State) (ea : Word) (bs : List Byte) (h : s.reaches ea bs.length) (hl :
    bs.length ≤ 2^32) (hm : Memory.wf s.mem) :
    ∃ m l, s.writeBytes ea bs = .ok { s with mem := m, stored := l } ∧ (∀ k (hk : k < bs.length), m.read
        (ea + BitVec.ofNat 32 k).toNat = bs[k]) ∧
     (∀ a, ¬ inOperand ea bs.length a → m.read a = s.mem.read a) ∧ (∀ a,
         a ∈ l ↔ a ∈ s.stored ∨ inOperand ea bs.length a) ∧ Memory.wf m := by
  unfold State.writeBytes
  rw [physBytes_reaches s .store (by decide) ea _ h]
  obtain ⟨m, l, e⟩ := storeBytes_eq (operandAddresses ea bs.length) bs s
  refine ⟨m, l, ?_, ?_, ?_, ?_, ?_⟩
  · show Except.ok (State.storeBytes (operandAddresses ea bs.length) bs s).afterAccess = _
    rw [e]
    exact congrArg Except.ok (afterAccess_off _ h.1)
  · intro k hk
    have := storeBytes_read_same (operandAddresses ea bs.length) bs s k hm
        (by simp only [mem_operandAddresses]; rintro a ⟨k, _, rfl⟩; exact BitVec.isLt _)
            (operandAddresses_nodup ea _ hl) (by simpa [operandAddresses] using hk) hk
    rw [e] at this
    simpa [operandAddresses] using this
  · intro a ha
    have := storeBytes_read_other (operandAddresses ea bs.length) bs s a (by rw [mem_operandAddresses]; exact ha)
    rw [e] at this; exact this
  · intro a
    have := mem_stored_storeBytes (operandAddresses ea bs.length) bs s (by simp [operandAddresses]) a
    rw [e, mem_operandAddresses] at this; exact this
  · have := storeBytes_memory_wf (operandAddresses ea bs.length) bs s hm fun a ha => by
      obtain ⟨k, -, rfl⟩ := (mem_operandAddresses _ _ _).mp ha
      exact BitVec.isLt _
    rw [e] at this; exact this

/-- A store of a word at a reachable operand: it reads back, and nothing else is changed. -/
theorem writeWord_reaches (s : State) (ea v : Word) (h : s.reaches ea 4) (hm : Memory.wf s.mem) :
    ∃ m l, s.writeWord ea v = .ok { s with mem := m, stored := l } ∧ (({ s with mem := m, stored := l } :
        State).wordAt ea = v) ∧
     (∀ a, ¬ inOperand ea 4 a → m.read a = s.mem.read a) ∧ (∀ a, a ∈ l ↔ a ∈ s.stored ∨ inOperand ea 4 a)
         ∧ Memory.wf m := by
  have hl := bytesOfWord_length v (msrLE s.msr)
  obtain ⟨m, l, h1, h2, h3, h4, h5⟩ := writeBytes_reaches s ea (bytesOfWord (msrLE s.msr) v) (by rw [hl]; exact h)
      (by rw [hl]; decide) hm
  rw [hl] at h3 h4
  refine ⟨m, l, h1, ?_, h3, h4, h5⟩
  unfold State.wordAt State.byteAt
  simp only
  rw [h2 0 (by rw [hl]; decide), h2 1 (by rw [hl]; decide), h2 2 (by rw [hl]; decide), h2 3 (by rw [hl]; decide)]
  conv_rhs => rw [← wordOfBytes_bytesOfWord v (msrLE s.msr)]
  have : ∀ le (hl : (bytesOfWord le v).length = 4), wordOfBytes le [(bytesOfWord le v)[0], (bytesOfWord le v)[1],
      (bytesOfWord le v)[2], (bytesOfWord le v)[3]] = wordOfBytes le (bytesOfWord le v)
          := by intro le; cases le <;> intro _ <;> rfl
  exact this _ hl

theorem wordAt_congr (s t : State) (ea : Word) (hm : s.msr = t.msr) (h : ∀ k < 4, s.byteAt ea k = t.byteAt ea k) :
    s.wordAt ea = t.wordAt ea := by
  unfold State.wordAt
  rw [hm, h 0 (by decide), h 1 (by decide), h 2 (by decide), h 3 (by decide)]

/-- Storing registers as words at a reachable operand: each reads back, and nothing else is changed. -/
theorem storeWords_reaches (rs : List Reg) (ea : Word) (s : State) (h : s.reaches ea (4 * rs.length)) (hm :
    Memory.wf s.mem) (hl : 4 * rs.length ≤ 2^32) :
    ∃ m l, State.storeWords rs ea s = ({ s with mem := m, stored := l }, none) ∧
      (∀ i (hi : i < rs.length), ({ s with mem := m, stored := l } : State).wordAt (ea + BitVec.ofNat 32 (4 * i))
          = s.readGpr rs[i]) ∧
     (∀ a, ¬ inOperand ea (4 * rs.length) a → m.read a = s.mem.read a) ∧ (∀ a, a ∈ l ↔ a ∈ s.stored ∨ inOperand ea
         (4*rs.length) a) := by
  induction rs generalizing ea s with
  | nil => exact ⟨s.mem, s.stored, rfl, by simp, fun _ _ => rfl, fun a => by simp [inOperand]⟩
  | cons r rs ih =>
    have h0 : s.reaches ea 4 := by
      have := reaches_part s ea _ 0 h (by simp); simpa using this
    obtain ⟨m, l, e, w1, w2, w3, w4⟩ := writeWord_reaches s ea (s.readGpr r) h0 hm
    unfold State.storeWords
    rw [e]
    simp only
    have h' : ({ s with mem := m, stored := l } : State).reaches (ea + 4) (4 * rs.length) := by
      refine ⟨h.1, fun k hk => ?_⟩
      have := h.2 (4 + k) (by simp; omega)
      rw [← operandAddress_add] at this; exact this
    obtain ⟨m', l', e', x1, x2, x3⟩ := ih (ea + 4) _ h' w4 (by simp at hl; omega)
    refine ⟨m', l', by rw [e'], ?_, ?_, ?_⟩
    · intro i hi
      cases i with
      | zero =>
        simp only [List.getElem_cons_zero]
        rw [← w1, show ea + BitVec.ofNat 32 (4 * 0) = ea by simp]
        refine wordAt_congr _ _ _ (by rfl) ?_
        intro k hk
        unfold State.byteAt
        apply x2
        rintro ⟨k', hk', e⟩
        have e4 : ea + 4 + BitVec.ofNat 32 k' = ea + BitVec.ofNat 32 (4 + k') := operandAddress_add ea 4 k'
        rw [e4] at e
        have := operandAddress_injective ea _ _ (by omega) (by simp at hl; omega) e
        omega
      | succ i =>
        simp only [List.getElem_cons_succ]
        have := x1 i (by simpa using hi)
        have e4 : ea + 4 + BitVec.ofNat 32 (4 * i) = ea + BitVec.ofNat 32 (4 * (i+1)) := by
          rw [show 4 * (i+1) = 4 + 4 * i by ring, ← operandAddress_add]; rfl
        rw [e4] at this
        exact this
    · intro a ha
      rw [x2 a, w2 a]
      · intro hh; apply ha
        have := inOperand_of_part ea 0 4 (4 * (r :: rs).length) a (by simpa using hh) (by simp)
        exact this
      · intro hh; apply ha
        exact inOperand_of_part ea 4 (4 * rs.length) _ a hh (by simp; omega)
    · intro a
      rw [x3, w3]
      constructor
      · rintro ((h|h)|h)
        · exact .inl h
        · exact .inr (inOperand_of_part ea 0 4 (4 * (r :: rs).length) a (by simpa using h) (by simp))
        · exact .inr (inOperand_of_part ea 4 (4 * rs.length) _ a h (by simp; omega))
      · rintro (h|⟨k, hk, rfl⟩)
        · exact .inl (.inl h)
        · by_cases h4 : k < 4
          · exact .inl (.inr ⟨k, h4, rfl⟩)
          · refine .inr ⟨k - 4, by simp at hk; omega, ?_⟩
            rw [show (ea + 4 + BitVec.ofNat 32 (k-4)) = ea + BitVec.ofNat 32 (4 + (k-4))
                from operandAddress_add ea 4 (k-4)]
            rw [show 4 + (k-4) = k by omega]

/-! ### Strings -/

/-- Byte selection after byte insertion (42_load_store_multiple_and_string.md R103, R105). -/
theorem selectByte_insertByte (v : Word) (b : Byte) : ∀ j < 4, ∀ j' < 4,
    selectByte (insertByte v j b) j' = if j' = j then b else if j = 0 then 0 else selectByte v j' := by
  intro j hj j' hj'
  unfold selectByte insertByte
  refine BitVec.eq_of_getLsbD_eq fun i hi => ?_
  interval_cases j <;> interval_cases j' <;>
    simp only [BitVec.getLsbD_extractLsb', hi] <;> interval_cases i <;> simp

/-- The registers `g` hold the first `k` bytes of a string load from `ea` into `rd`, rd + 1, ... -/
def StringLoaded (s : State) (rd : Reg) (ea : Word) (k : Nat) (g : Vector Word 32) : Prop :=
  (∀ j < k, selectByte (g[(rd + BitVec.ofNat 5 (j / 4)).toNat]) (j % 4) = s.byteAt ea j) ∧
  (∀ j, k ≤ j → j < 4 * ((k + 3) / 4) → selectByte (g[(rd + BitVec.ofNat 5 (j / 4)).toNat]) (j % 4) = 0) ∧
  (∀ r : Reg, (k + 3) / 4 ≤ (r - rd).toNat → g[r.toNat] = s.gpr[r.toNat])

theorem stringRegister_injective (rd : Reg) (i j : Nat) (hi : i < 32) (hj : j < 32) (h :
    (rd + BitVec.ofNat 5 i).toNat = (rd + BitVec.ofNat 5 j).toNat) : i = j := by
  have := rd.isLt
  simp at h; omega
theorem stringRegister_sub (rd : Reg) (i : Nat) (hi : i < 32) : ((rd + BitVec.ofNat 5 i) - rd).toNat = i := by
  rw [BitVec.add_comm, BitVec.add_sub_cancel]; simp; omega

theorem stringLoaded_step (s : State) (rd : Reg) (ea : Word) (k : Nat) (hk : k < 128) (g : Vector Word 32) (h :
    StringLoaded s rd ea k g) :
    StringLoaded s rd ea (k + 1) (g.set (rd + BitVec.ofNat 5 (k / 4)).toNat (insertByte (g[(rd + BitVec.ofNat 5
        (k / 4)).toNat]) (k % 4) (s.byteAt ea k)) (rd + BitVec.ofNat 5 (k / 4)).isLt) := by
  obtain ⟨h1, h2, h3⟩ := h
  refine ⟨fun j hj => ?_, fun j hj hj' => ?_, fun r hr => ?_⟩
  · by_cases hq : j / 4 = k / 4
    · simp only [hq]; rw [Vector.getElem_set_self, selectByte_insertByte _ _ _ (by omega) _ (by omega)]
      split
      · next he => rw [show j = k by omega]
      · next he =>
        split
        · omega
        · have := h1 j (by omega); simp only [hq] at this; exact this
    · rw [Vector.getElem_set_ne]
      · exact h1 j (by omega)
      · intro e; exact hq (stringRegister_injective rd _ _ (by omega) (by omega) e).symm
  · have hq : j / 4 = k / 4 := by omega
    simp only [hq]; rw [Vector.getElem_set_self, selectByte_insertByte _ _ _ (by omega) _ (by omega)]
    split
    · omega
    · split
      · rfl
      · have := h2 j (by omega) (by omega); simp only [hq] at this; exact this
  · rw [Vector.getElem_set_ne]
    · exact h3 r (by omega)
    · intro e
      have : r = rd + BitVec.ofNat 5 (k/4) := BitVec.eq_of_toNat_eq e.symm
      rw [this, stringRegister_sub rd _ (by omega)] at hr
      omega

theorem reaches_byte (s : State) (ea : Word) (m k : Nat) (h : s.reaches ea m) (hk : k < m) : s.reaches
    (ea + BitVec.ofNat 32 k) 1 := by
  refine ⟨h.1, fun i hi => ?_⟩
  rw [operandAddress_add]; exact h.2 _ (by omega)

/-- A string load from a reachable operand loads the bytes it counts, and changes nothing else. -/
theorem loadString_reaches (s : State) (rd : Reg) (ea : Word) (m : Nat) (hm : m ≤ 128) (h : s.reaches ea m) (n k :
    Nat) (hnk : k + n = m) (g : Vector Word 32) (hg : StringLoaded s rd ea k g) :
    ∃ g', State.loadString rd ea n k { s with gpr := g } = ({ s with gpr := g' }, none) ∧ StringLoaded s rd ea m g'
        := by
  induction n generalizing k g with
  | zero => refine ⟨g, rfl, ?_⟩; rw [← hnk]; exact hg
  | succ n ih =>
    have hb : ({ s with gpr := g } : State).readBytes .load (ea + BitVec.ofNat 32 k) 1 = .ok [s.byteAt ea k] := by
      unfold State.readBytes
      have := physBytes_reaches { s with gpr := g } .load (by decide) (ea + BitVec.ofNat 32 k) 1
          (reaches_byte s ea m k h (by omega))
      rw [this]
      simp [State.byteAt]
    unfold State.loadString
    rw [hb]
    simp only
    obtain ⟨g', e, hg'⟩ := ih (k+1) (by omega) _ (stringLoaded_step s rd ea k (by omega) g hg)
    refine ⟨g', ?_, hg'⟩
    rw [← e]
    congr 1
    exact afterAccess_off _ h.1

/-- The memory `m` and the stored addresses `l` are those after the first `k` bytes of a string store. -/
def StringStored (s : State) (rs : Reg) (ea : Word) (k : Nat) (m : Memory) (l : List Nat) : Prop :=
  (∀ j < k, m.read (ea + BitVec.ofNat 32 j).toNat = selectByte (s.readGpr (rs + BitVec.ofNat 5 (j / 4))) (j % 4)) ∧
  (∀ a, ¬ inOperand ea k a → m.read a = s.mem.read a) ∧ (∀ a, a ∈ l ↔ a ∈ s.stored ∨ inOperand ea k a) ∧ Memory.wf m

/-- A string store to a reachable operand stores the bytes it counts, and changes nothing else. -/
theorem storeString_reaches (s : State) (rs : Reg) (ea : Word) (m : Nat) (hm : m ≤ 2^32) (h : s.reaches ea m) (n k
    : Nat) (hnk : k + n = m) (g : Memory) (l : List Nat) (hg : StringStored s rs ea k g l) :
    ∃ g' l', State.storeString rs ea n k { s with mem := g, stored := l } = ({ s with mem := g', stored := l' },
        none) ∧ StringStored s rs ea m g' l' := by
  induction n generalizing k g l with
  | zero => refine ⟨g, l, rfl, ?_⟩; rw [← hnk]; exact hg
  | succ n ih =>
    obtain ⟨g1, l1, e, w1, w2, w3, w4⟩ := writeBytes_reaches { s with mem := g, stored := l }
        (ea + BitVec.ofNat 32 k) [selectByte (s.readGpr (rs + BitVec.ofNat 5 (k / 4))) (k % 4)]
            (reaches_byte s ea m k h (by omega)) (by simp) hg.2.2.2
    unfold State.storeString
    have e' : ({ s with mem := g, stored := l } : State).writeBytes (ea + BitVec.ofNat 32 k) [selectByte
        (State.readGpr { s with mem := g, stored := l } (rs + BitVec.ofNat 5 (k / 4))) (k % 4)] = _ := e
    rw [e']
    simp only
    refine ih (k+1) (by omega) g1 l1 ⟨?_, ?_, ?_, w4⟩
    · intro j hj
      by_cases hjk : j = k
      · subst hjk
        have := w1 0 (by simp)
        simpa using this
      · rw [w2]
        · exact hg.1 j (by omega)
        · rintro ⟨i, hi, e⟩
          simp at hi
          subst hi
          rw [operandAddress_add] at e
          have := operandAddress_injective ea j (k+0) (by omega) (by omega) e
          omega
    · intro a ha
      rw [w2]
      · exact hg.2.1 a fun ⟨i, hi, e⟩ => ha ⟨i, by omega, e⟩
      · rintro ⟨i, hi, e⟩
        simp at hi; subst hi
        rw [operandAddress_add] at e
        exact ha ⟨k + 0, by omega, e⟩
    · intro a
      rw [w3]
      simp only
      rw [hg.2.2.1 a, or_assoc]
      refine or_congr Iff.rfl ⟨?_, ?_⟩
      · rintro (⟨i, hi, e⟩ | ⟨i, hi, e⟩)
        · exact ⟨i, by omega, e⟩
        · simp at hi; subst hi; rw [operandAddress_add] at e; exact ⟨k+0, by omega, e⟩
      · rintro ⟨i, hi, e⟩
        by_cases hik : i < k
        · exact .inl ⟨i, hik, e⟩
        · refine .inr ⟨0, by simp, ?_⟩
          rw [operandAddress_add, e, show i = k + 0 by omega]

/-! ### Completion -/

/-- An access without an exception completes and advances. -/
theorem finishAccess_completes (m w ea : Word) (n : Nat) (t : State) :
    finishAccess m w ea n (t, none) = .next (t.advance.retire m w) := rfl

end Sys2Proof.Machine
end

