-- ==== Sys2Proof/Laws/Encoding.lean ====
section
/-! SUPPORT. The fields of an encoded word: for each form of 30_encoding.md, once, what every field reads. -/

namespace Sys2Proof

section XForm

variable (op : BitVec 6) (d a b : BitVec 5) (xo : BitVec 10) (rc : Bool)

@[simp] theorem opcd_encodeX : opcd (encodeX op d a b xo rc) = op := by
  unfold opcd field encodeX
  ext i hi
  simp only [BitVec.getElem_extractLsb', BitVec.getLsbD_append]
  interval_cases i <;> simp

@[simp] theorem field_d_encodeX : field (encodeX op d a b xo rc) 6 5 = d := by
  unfold field encodeX
  ext i hi
  simp only [BitVec.getElem_extractLsb', BitVec.getLsbD_append]
  interval_cases i <;> simp

@[simp] theorem field_a_encodeX : field (encodeX op d a b xo rc) 11 5 = a := by
  unfold field encodeX
  ext i hi
  simp only [BitVec.getElem_extractLsb', BitVec.getLsbD_append]
  interval_cases i <;> simp

@[simp] theorem field_b_encodeX : field (encodeX op d a b xo rc) 16 5 = b := by
  unfold field encodeX
  ext i hi
  simp only [BitVec.getElem_extractLsb', BitVec.getLsbD_append]
  interval_cases i <;> simp

@[simp] theorem extOpcd_encodeX : extOpcd (encodeX op d a b xo rc) = xo := by
  unfold extOpcd field encodeX
  ext i hi
  simp only [BitVec.getElem_extractLsb', BitVec.getLsbD_append]
  interval_cases i <;> simp

@[simp] theorem rcBit_encodeX : rcBit (encodeX op d a b xo rc) = rc := by
  unfold rcBit encodeX
  simp only [BitVec.getLsbD_append]
  simp

/-- The opcode, extended opcode and bit 31 of an X-form word, its operand fields masked out. -/
theorem encodeX_operands : encodeX op d a b xo rc &&& 0xFC0007FF = encodeX op 0 0 0 xo rc := by
  unfold encodeX
  refine BitVec.eq_of_getLsbD_eq fun i hi => ?_
  simp only [BitVec.getLsbD_and, BitVec.getLsbD_append]
  interval_cases i <;> simp

end XForm

section DForm

variable (op : BitVec 6) (d a : BitVec 5) (imm : BitVec 16)

@[simp] theorem opcd_encodeD : opcd (encodeD op d a imm) = op := by
  unfold opcd field encodeD
  ext i hi
  simp only [BitVec.getElem_extractLsb', BitVec.getLsbD_append]
  interval_cases i <;> simp

@[simp] theorem field_d_encodeD : field (encodeD op d a imm) 6 5 = d := by
  unfold field encodeD
  ext i hi
  simp only [BitVec.getElem_extractLsb', BitVec.getLsbD_append]
  interval_cases i <;> simp

@[simp] theorem field_a_encodeD : field (encodeD op d a imm) 11 5 = a := by
  unfold field encodeD
  ext i hi
  simp only [BitVec.getElem_extractLsb', BitVec.getLsbD_append]
  interval_cases i <;> simp

@[simp] theorem field_imm_encodeD : field (encodeD op d a imm) 16 16 = imm := by
  unfold field encodeD
  ext i hi
  simp only [BitVec.getElem_extractLsb', BitVec.getLsbD_append]
  interval_cases i <;> simp

/-- The opcode of a D-form word, everything else masked out. -/
theorem encodeD_operands : encodeD op d a imm &&& 0xFC000000 = encodeD op 0 0 0 := by
  unfold encodeD
  refine BitVec.eq_of_getLsbD_eq fun i hi => ?_
  simp only [BitVec.getLsbD_and, BitVec.getLsbD_append]
  interval_cases i <;> simp

end DForm

end Sys2Proof
end

