-- ==== Sys2Proof/Laws/PerInstr.lean ====
section
/-! SUPPORT. Facts about each instruction as syntax, one lemma per constructor of Instr. -/

namespace Sys2Proof.Laws

/-- The mask of an instruction's row of spec/opcode_table.json. -/
def rowMask : Instr → Word
  | .twi .. => 0xFC000000
  | .sc => 0xFFFFFFFF
  | .rfi => 0xFFFFFFFF
  | .tw .. => 0xFC0007FF
  | .lwarx .. => 0xFC0007FF
  | .mfmsr _ => 0xFC1FFFFF
  | .mtmsr _ => 0xFC1FFFFF
  | .stwcx .. => 0xFC0007FF
  | .eciwx .. => 0xFC0007FF
  | .mfspr .. => 0xFC0007FF
  | .ecowx .. => 0xFC0007FF
  | .mtspr .. => 0xFC0007FF
  | .lswx .. => 0xFC0007FF
  | .lswi .. => 0xFC0007FF
  | .stswx .. => 0xFC0007FF
  | .stswi .. => 0xFC0007FF
  | .lmw .. => 0xFC000000
  | .stmw .. => 0xFC000000
  | .mtfsb1 .. => 0xFC1FFFFE
  | .mtfsb0 .. => 0xFC1FFFFE
  | .mtfsfi .. => 0xFC7F0FFE
  | .mtfsf .. => 0xFE0107FE

/-- The match of an instruction's row of spec/opcode_table.json. -/
def rowMatch : Instr → Word
  | .twi .. => 0x0C000000
  | .sc => 0x44000002
  | .rfi => 0x4C000064
  | .tw .. => 0x7C000008
  | .lwarx .. => 0x7C000028
  | .mfmsr _ => 0x7C0000A6
  | .mtmsr _ => 0x7C000124
  | .stwcx .. => 0x7C00012D
  | .eciwx .. => 0x7C00026C
  | .mfspr .. => 0x7C0002A6
  | .ecowx .. => 0x7C00036C
  | .mtspr .. => 0x7C0003A6
  | .lswx .. => 0x7C00042A
  | .lswi .. => 0x7C0004AA
  | .stswx .. => 0x7C00052A
  | .stswi .. => 0x7C0005AA
  | .lmw .. => 0xB8000000
  | .stmw .. => 0xBC000000
  | .mtfsb1 .. => 0xFC00004C
  | .mtfsb0 .. => 0xFC00008C
  | .mtfsfi .. => 0xFC00010C
  | .mtfsf .. => 0xFC00058E

/-- The word of an instruction matches its row of the opcode table. -/
def MatchesRow.Statement (i : Instr) : Prop := encode i &&& rowMask i = rowMatch i

theorem MatchesRow.twi (cond : BitVec 5) (ra : Reg) (simm : BitVec 16) : MatchesRow.Statement (.twi cond ra simm) :=
  encodeD_operands ..
theorem MatchesRow.sc : MatchesRow.Statement .sc := rfl
theorem MatchesRow.rfi : MatchesRow.Statement .rfi := rfl
theorem MatchesRow.tw (cond : BitVec 5) (ra rb : Reg) : MatchesRow.Statement (.tw cond ra rb) := encodeX_operands ..
theorem MatchesRow.lwarx (rd ra rb : Reg) : MatchesRow.Statement (.lwarx rd ra rb) := encodeX_operands ..
theorem MatchesRow.mfmsr (rd : Reg) : MatchesRow.Statement (.mfmsr rd) := by
  unfold MatchesRow.Statement
  revert rd; decide
theorem MatchesRow.mtmsr (rs : Reg) : MatchesRow.Statement (.mtmsr rs) := by
  unfold MatchesRow.Statement
  revert rs; decide
theorem MatchesRow.stwcx (rs ra rb : Reg) : MatchesRow.Statement (.stwcx rs ra rb) := encodeX_operands ..
theorem MatchesRow.eciwx (rd ra rb : Reg) : MatchesRow.Statement (.eciwx rd ra rb) := encodeX_operands ..
theorem MatchesRow.mfspr (rd : Reg) (spr : BitVec 10) : MatchesRow.Statement (.mfspr rd spr) := encodeX_operands ..
theorem MatchesRow.ecowx (rs ra rb : Reg) : MatchesRow.Statement (.ecowx rs ra rb) := encodeX_operands ..
theorem MatchesRow.mtspr (spr : BitVec 10) (rs : Reg) : MatchesRow.Statement (.mtspr spr rs) := encodeX_operands ..
theorem MatchesRow.lswx (rd ra rb : Reg) : MatchesRow.Statement (.lswx rd ra rb) := encodeX_operands ..
theorem MatchesRow.lswi (rd ra : Reg) (nb : BitVec 5) : MatchesRow.Statement (.lswi rd ra nb) := encodeX_operands ..
theorem MatchesRow.stswx (rs ra rb : Reg) : MatchesRow.Statement (.stswx rs ra rb) := encodeX_operands ..
theorem MatchesRow.stswi (rs ra : Reg) (nb : BitVec 5) : MatchesRow.Statement (.stswi rs ra nb) := encodeX_operands ..
theorem MatchesRow.lmw (rd ra : Reg) (d : BitVec 16) : MatchesRow.Statement (.lmw rd ra d) := encodeD_operands ..
theorem MatchesRow.stmw (rs ra : Reg) (d : BitVec 16) : MatchesRow.Statement (.stmw rs ra d) := encodeD_operands ..
theorem MatchesRow.mtfsb1 (crbd : BitVec 5) (rc : Bool) : MatchesRow.Statement (.mtfsb1 crbd rc) := by
  unfold MatchesRow.Statement
  revert crbd rc; decide
theorem MatchesRow.mtfsb0 (crbd : BitVec 5) (rc : Bool) : MatchesRow.Statement (.mtfsb0 crbd rc) := by
  unfold MatchesRow.Statement
  revert crbd rc; decide
theorem MatchesRow.mtfsfi (crfd : BitVec 3) (imm : BitVec 4) (rc : Bool) : MatchesRow.Statement (.mtfsfi crfd imm rc) := by
  unfold MatchesRow.Statement
  revert crfd imm rc; decide +kernel
theorem MatchesRow.mtfsf (fm : BitVec 8) (frb : Reg) (rc : Bool) : MatchesRow.Statement (.mtfsf fm frb rc) := by
  unfold MatchesRow.Statement encode
  refine BitVec.eq_of_getLsbD_eq fun i hi => ?_
  simp only [BitVec.getLsbD_and, BitVec.getLsbD_append]
  unfold rowMask rowMatch
  interval_cases i <;> simp

end Sys2Proof.Laws
end

