-- ==== Sys2Proof/Tests/Slice0.lean ====
section
/-! SUPPORT. Tests. Words and expected results are the spec's: the encodings of 30_encoding.md and the vectors of
95_test_vectors.md, whose row a test names. After them, for each statement with hypotheses, a state and operands that
meet them. -/

namespace Sys2Proof.Tests

open Sys2Proof.Machine

/-! ### Helpers -/

/-- The implementation performs every misaligned access. -/
def performing : Params :=
  { Params.default with
    align := ⟨.perform, .perform, .perform, .perform, .perform, .perform⟩
    accessOrder := .alignmentFirst }

/-- The implementation traps on every alignment condition. -/
def trapping : Params := { performing with align := ⟨.trap, .trap, .trap, .trap, .trap, .trap⟩ }

/-- The trace exception is implemented. -/
def tracing : Params := { performing with trace := true }

/-- A state with this MSR and pc. -/
def state (m pc : Word) : State := { State.reset with msr := m, pc := pc, params := performing }

/-- The bytes 00 to 0F at 0x5000 to 0x500F (95_test_vectors.md 2.8); the byte 00 is not listed. -/
def bytes : Memory := (List.range 15).map fun i => (0x5001 + i, BitVec.ofNat 8 (i + 1))

/-- The start of 95_test_vectors.md 2.8, with x[r] = v. -/
def dataState (r : Reg) (v : Word) : State := { (state 0x00001002 0x6000).setGpr r v with mem := bytes }

/-- The outcome is a next state with this property. -/
def completes (o : Host.Outcome State Fault Refusal) (p : State → Bool) : Bool :=
  match o with
  | .next t => p t
  | .fault _ => false
  | .refused _ => false

/-- The outcome is this refusal. -/
def refuses (o : Host.Outcome State Fault Refusal) (r : Refusal) : Bool :=
  match o with
  | .next _ => false
  | .fault _ => false
  | .refused q => q == r

/-! ### WellFormed: each check refuses an ill-formed term -/

theorem test_wellFormed_lmw : (Instr.lmw 1 1 0).wellFormed = false ∧ (Instr.lmw 2 1 0).wellFormed = true := by decide

theorem test_wellFormed_lswi : (Instr.lswi 5 6 8).wellFormed = false ∧ (Instr.lswi 5 7 8).wellFormed = true := by decide

theorem test_wellFormed_lswi_wraps : (Instr.lswi 31 0 8).wellFormed = false := by decide

theorem test_wellFormed_lswx : (Instr.lswx 5 5 4).wellFormed = false ∧ (Instr.lswx 5 4 5).wellFormed = false ∧
    (Instr.lswx 5 0 4).wellFormed = true := by decide

/-! ### Decoding (30_encoding.md section 3; the words of 95_test_vectors.md, the rest written out from the forms) -/

theorem test_decode_traps :
    decodeWord 0x0C83FFFF = .ok (.twi 4 3 0xFFFF) ∧ decodeWord 0b011111_10000_00011_00100_0000000100_0 = .ok (.tw 16 3 4) := by
  decide

theorem test_decode_sc_rfi : decodeWord 0x44000002 = .ok .sc ∧ decodeWord 0x4C000064 = .ok .rfi := by decide

theorem test_decode_msr : decodeWord 0x7C6000A6 = .ok (.mfmsr 3) ∧ decodeWord 0x7C600124 = .ok (.mtmsr 3) := by decide

/-- The halves of the SPR field are swapped: SPRG0 is 272, bits 11-15 10000 and bits 16-20 01000. -/
theorem test_decode_spr :
    decodeWord 0b011111_00011_10000_01000_0101010011_0 = .ok (.mfspr 3 272) ∧
      decodeWord 0x7C7603A6 = .ok (.mtspr 22 3) ∧ decodeWord 0x7C7F42A6 = .ok (.mfspr 3 287) := by decide

theorem test_decode_reservation :
    decodeWord 0x7C602028 = .ok (.lwarx 3 0 4) ∧ decodeWord 0x7CA0212D = .ok (.stwcx 5 0 4) := by decide

theorem test_decode_external :
    decodeWord 0x7C60226C = .ok (.eciwx 3 0 4) ∧ decodeWord 0x7C60236C = .ok (.ecowx 3 0 4) := by decide

theorem test_decode_multiple :
    decodeWord 0b101110_11111_00001_1111111111111100 = .ok (.lmw 31 1 0xFFFC) ∧
      decodeWord 0xBFC10008 = .ok (.stmw 30 1 8) := by decide

theorem test_decode_string :
    decodeWord 0x7CA0242A = .ok (.lswx 5 0 4) ∧ decodeWord 0x7CA42CAA = .ok (.lswi 5 4 5) ∧
      decodeWord 0x7CA0252A = .ok (.stswx 5 0 4) ∧ decodeWord 0x7CA41DAA = .ok (.stswi 5 4 3) := by decide

theorem test_decode_fpscr :
    decodeWord 0xFC60004C = .ok (.mtfsb1 3 false) ∧ decodeWord 0xFF20008C = .ok (.mtfsb0 25 false) ∧
      decodeWord 0b111111_110_00_00000_1000_0_0010000110_0 = .ok (.mtfsfi 6 8 false) ∧
      decodeWord 0b111111_0_11111111_0_00001_1011000111_1 = .ok (.mtfsf 0xFF 1 true) := by decide

/-- A word of zeros is in no row, a word with a reserved field set is refused by name, three bytes are too few. -/
theorem test_decode_rejects :
    decodeWord 0 = .error .noRow ∧ decodeWord 0x44000003 = .error (.reservedField "sc") ∧
      decodeBytes false [0x44, 0, 0] = .error .tooShort := by decide

/-- 95_test_vectors.md 2.11: bytes 64 00 00 4C read little-endian decode as `rfi`. -/
theorem test_decode_bytes : decodeBytes true [0x64, 0x00, 0x00, 0x4C, 0x11] = .ok (.rfi, [0x11]) := by decide

theorem test_fetchWord : (State.reset.withFetchWord 32 0x4C000064).mem =
    [(0xFFF00100, 0x4C), (0xFFF00103, 0x64)] := by decide +kernel

/-! ### One step or one meaning each -/

/-- V5. -/
theorem test_sc : completes (exec .sc (state 0x0000D032 0x3000)) (fun t =>
    t.srr0 == 0x00003004 && t.msr == 0x00001000 && t.pc == 0x00000C00) = true := by decide

/-- 2.11: ILE becomes LE. -/
theorem test_sc_ile : completes (exec .sc (state 0x00019002 0x2000)) (fun t => t.msr == 0x00011001) = true := by decide

/-- V10. -/
theorem test_twi : completes (exec (.twi 31 0 0) (state 0x00001002 0x7000)) (fun t =>
    t.srr0 == 0x00007000 && t.msr == 0x00001000 && t.pc == 0x00000700) = true := by decide

/-- 2.6, `twi 4,r3,-1` with x[3] = 0: the immediate is sign-extended, no trap. -/
theorem test_twi_passes : completes (exec (.twi 4 3 0xFFFF) (state 0x00001002 0x7000)) (fun t =>
    t.pc == 0x00007004) = true := by decide

/-- 2.6, the rows of the table of trap conditions. -/
theorem test_trap_conditions :
    trapCondition 16 5 7 = true ∧ trapCondition 8 5 7 = false ∧ trapCondition 2 5 7 = true ∧
      trapCondition 16 0xFFFFFFFF 0 = true ∧ trapCondition 2 0xFFFFFFFF 0 = false ∧
      trapCondition 1 0xFFFFFFFF 0 = true ∧ trapCondition 8 0xFFFFFFFF 0 = false ∧
      trapCondition 16 0x80000000 0x7FFFFFFF = true ∧ trapCondition 27 9 9 = false ∧ trapCondition 4 9 9 = true := by
  decide

theorem test_tw : completes (exec (.tw 16 3 4) ((state 0x00001002 0x7000).setGpr 3 0xFFFFFFFF)) (fun t =>
    t.srr0 == 0x00007000 && t.pc == 0x00000700) = true := by decide

/-- 2.6, the second row of `rfi`. -/
theorem test_rfi : completes (exec .rfi { state 0x00011041 0x500 with srr0 := 0x00001237, srr1 := 0x0000D072 })
    (fun t => t.msr == 0x0001D072 && t.pc == 0x00001234) = true := by decide

/-- 2.6, the third row: information bits of SRR1 are not restored. -/
theorem test_rfi_info : completes (exec .rfi { state 0x00001000 0x700 with srr0 := 0x00003000, srr1 := 0x0004D002 })
    (fun t => t.msr == 0x0000D002) = true := by decide

/-- 2.7. -/
theorem test_mfspr : completes (exec (.mfspr 3 26) { state 0x00001000 0x700 with srr0 := 0x12345678 }) (fun t =>
    t.readGpr 3 == 0x12345678 && t.pc == 0x704) = true := by decide

/-- 2.7: a user-level register at user level. -/
theorem test_mfspr_user : completes (exec (.mfspr 3 8) { state 0x00005000 0x700 with lr := 0x12345678 }) (fun t =>
    t.readGpr 3 == 0x12345678) = true := by decide

/-- 2.4, the fifth row. -/
theorem test_mtspr_dec : completes (exec (.mtspr 22 3) { (state 0x1000 0).setGpr 3 0x80000000 with dec := 0x7FFFFFFF })
    (fun t => t.dec == 0x80000000 && t.decPending) = true := by decide

/-- 2.4, the sixth row. -/
theorem test_mtspr_dec_quiet : completes (exec (.mtspr 22 3)
    { (state 0x1000 0).setGpr 3 0xFFFFFFFF with dec := 0x80000000 })
    (fun t => t.dec == 0xFFFFFFFF && !t.decPending) = true := by decide

/-- V9. -/
theorem test_mfmsr_user : completes (exec (.mfmsr 3) (state 0x0000D002 0x3000)) (fun t =>
    t.srr0 == 0x00003000 && t.msr == 0x00001000 && t.pc == 0x00000700 && t.readGpr 3 == 0) = true := by decide

/-- V15. -/
theorem test_mfmsr_traced : completes (exec (.mfmsr 3) { state 0x00001402 0x8000 with params := tracing }) (fun t =>
    t.srr0 == 0x00008004 && t.msr == 0x00001000 && t.pc == 0x00000D00 && t.readGpr 3 == 0x00001402) = true := by decide

/-- 2.7. -/
theorem test_mtmsr : completes (exec (.mtmsr 3) ((state 0x1000 0x4000).setGpr 3 0x00009002)) (fun t =>
    t.msr == 0x00009002) = true := by decide

/-- 2.7: enabling the floating-point exceptions with FEX = 1. -/
theorem test_mtmsr_fex : completes (exec (.mtmsr 3)
    { (state 0x00003002 0x9000).setGpr 3 0x00003802 with fpscr := 0x40000000 }) (fun t =>
    t.srr0 == 0x00009000 && t.msr == 0x00001000 && t.pc == 0x00000700) = true := by decide

/-- 2.8, the third row. -/
theorem test_lmw : completes (exec (.lmw 29 1 0) (dataState 1 0x5002)) (fun t =>
    t.readGpr 29 == 0x02030405 && t.readGpr 30 == 0x06070809 && t.readGpr 31 == 0x0A0B0C0D) = true := by decide

/-- R50, R41: the same access in little-endian mode, performed; the byte at the address is the least significant. -/
theorem test_lmw_little : completes (exec (.lmw 31 1 0) { dataState 1 0x5002 with msr := 0x00001003 }) (fun t =>
    t.readGpr 31 == 0x05040302) = true := by decide

/-- V17. -/
theorem test_lmw_trap : completes (exec (.lmw 29 1 0) { dataState 1 0x5002 with params := trapping }) (fun t =>
    t.srr0 == 0x00006000 && t.pc == 0x00000600 && t.readGpr 29 == 0) = true := by decide

/-- 2.8. -/
theorem test_stmw : completes (exec (.stmw 30 1 8) (((dataState 1 0x5000).setGpr 30 0xAAAAAAAA).setGpr 31 0xBBBBBBBB))
    (fun t => t.wordAt 0x5008 == 0xAAAAAAAA && t.wordAt 0x500C == 0xBBBBBBBB && t.wordAt 0x5004 == 0x04050607) = true := by
  decide

/-- 2.8. -/
theorem test_lswi : completes (exec (.lswi 5 4 5) (dataState 4 0x5000)) (fun t =>
    t.readGpr 5 == 0x00010203 && t.readGpr 6 == 0x04000000 && t.readGpr 7 == 0) = true := by decide

/-- 2.8: the registers wrap from 31 to 0. -/
theorem test_lswi_wraps : completes (exec (.lswi 31 4 8) (dataState 4 0x5000)) (fun t =>
    t.readGpr 31 == 0x00010203 && t.readGpr 0 == 0x04050607) = true := by decide

/-- 2.8. -/
theorem test_lswx : completes (exec (.lswx 5 0 4) { dataState 4 0x5000 with xer := 5 }) (fun t =>
    t.readGpr 5 == 0x00010203 && t.readGpr 6 == 0x04000000) = true := by decide

/-- 2.8. -/
theorem test_stswi : completes (exec (.stswi 5 4 3) ((dataState 4 0x5000).setGpr 5 0x11223344)) (fun t =>
    t.wordAt 0x5000 == 0x11223303) = true := by decide

/-- 2.8. -/
theorem test_stswx : completes (exec (.stswx 5 0 4) { (dataState 4 0x5003).setGpr 5 0x11223344 with xer := 4 })
    (fun t => t.wordAt 0x5000 == 0x00010211 && t.wordAt 0x5004 == 0x22334407) = true := by decide

/-- 2.9. -/
theorem test_lwarx : completes (exec (.lwarx 3 0 4) (dataState 4 0x5004)) (fun t =>
    t.readGpr 3 == 0x04050607 && t.reservation == some 0x5004) = true := by decide

/-- 2.9. -/
theorem test_stwcx : completes (exec (.stwcx 5 0 4)
    { (dataState 4 0x5004).setGpr 5 0xDEADBEEF with reservation := some 0x5004 }) (fun t =>
    t.wordAt 0x5004 == 0xDEADBEEF && t.cr == 0x20000000 && t.reservation == none) = true := by decide

/-- 2.9. -/
theorem test_stwcx_alone : completes (exec (.stwcx 5 0 4) { dataState 4 0x5004 with xer := 0x80000000 }) (fun t =>
    t.mem == bytes && t.cr == 0x10000000 && t.pc == 0x6004) = true := by decide

/-- 2.9. -/
theorem test_eciwx : completes (exec (.eciwx 3 0 4) (dataState 4 0x5004)) (fun t =>
    t.srr0 == 0x6000 && t.pc == 0x00000300) = true := by decide

/-- R113: the device, the address and the word. -/
theorem test_ecowx : completes (exec (.ecowx 3 0 4) { (dataState 4 0x5004).setGpr 3 0xDEADBEEF with ear := 0x80000005 })
    (fun t => t.extOut == [⟨5, 0x5004, 0xDEADBEEF⟩] && t.pc == 0x6004) = true := by decide

/-- V12. -/
theorem test_mtfsb1 : completes (exec (.mtfsb1 3 false) { state 0x00003902 0x7200 with fpscr := 0x00000040 }) (fun t =>
    t.fpscr == 0xD0000040 && t.srr0 == 0x7200 && t.msr == 0x00001000 && t.pc == 0x00000700) = true := by decide

/-- 2.10: bit 1 cannot be written; with Rc = 1 CR1 gets FPSCR[0-3]. -/
theorem test_mtfsb1_fex : completes (exec (.mtfsb1 1 true) { state 0x00002000 0x7200 with fpscr := 0x90000000 })
    (fun t => t.fpscr == 0x90000000 && t.cr == 0x09000000 && t.pc == 0x7204) = true := by decide

/-- 2.10. -/
theorem test_mtfsb0 : completes (exec (.mtfsb0 25 false) { state 0x00002000 0 with fpscr := 0x50000040 }) (fun t =>
    t.fpscr == 0x10000000) = true := by decide

/-- 2.10: VXSNAN is bit 7, VX bit 2, VE bit 24. -/
theorem test_mtfsfi : completes (exec (.mtfsfi 6 8 false) { state 0x00002000 0 with fpscr := 0x21000070 }) (fun t =>
    t.fpscr == 0x61000080) = true := by decide

/-- 2.10. -/
theorem test_mtfsf : completes (exec (.mtfsf 0xFF 1 false)
    { state 0x00002000 0 with fpr := (Vector.replicate 32 0).set 1 0xFFFFFFFF10000040 }) (fun t =>
    t.fpscr == 0x50000040) = true := by decide

/-! ### Exceptions and the step -/

/-- V9's SRR1, whatever the bits that no rule assigns hold. -/
theorem test_srr1_information (d : Word) : savedStatus performing 0x0000D002 0x00040000 d &&& 0x783FFF73 = 0x0004D002 := by
  refine BitVec.eq_of_getLsbD_eq fun i hi => ?_
  simp only [savedStatus, infoMask, msrSaved, unassignedMask, performing, Params.default, BitVec.getLsbD_and,
    BitVec.getLsbD_or, BitVec.getLsbD_not]
  interval_cases i <;> simp

/-- 2.3, all defined bits set. -/
theorem test_newMsr : newMsr performing .external 0x0005FF73 = 0x00011041 ∧
    newMsr performing .machineCheck 0x00009032 = 0 := by decide

/-- V1. -/
theorem test_external : completes (step { state 0x0000B032 0x1234 with extSignal := true }) (fun t =>
    t.srr0 == 0x1234 && t.msr == 0x00001000 && t.pc == 0x00000500) = true := by decide

/-- Q1. -/
theorem test_system_reset_first : completes
    (step { state 0x00009002 0x2000 with sresetPending := true, extSignal := true, decPending := true })
    (fun t => t.srr0 == 0x2000 && t.msr == 0x00001000 && t.pc == 0x00000100 && t.decPending) = true := by decide

/-- V6. -/
theorem test_checkstop : completes (step { state 0x00000002 0 with mcheckPending := true }) (fun t =>
    t.checkstop && t.pc == 0) = true := by decide

/-- 2.4, the second row. -/
theorem test_tick : ((state 0 0).occur .decrementerTick).dec = 0xFFFFFFFF ∧
    ((state 0 0).occur .decrementerTick).decPending = true := by decide

/-- V8. -/
theorem test_lfd_unavailable : completes ((state 0x00001002 0x4100).run 0xC8230000) (fun t =>
    t.srr0 == 0x4100 && t.msr == 0x00001000 && t.pc == 0x00000800) = true := by decide

/-- R200, then a step from reset: the word at the reset vector runs. -/
theorem test_first_step : completes (step (State.reset.withFetchWord 32 0x44000002)) (fun t =>
    t.srr0 == 0xFFF00104 && t.pc == 0xFFF00C00 && t.msr == 0x00000040) = true := by decide +kernel

/-- 2.10: a doubleword at a word-aligned address meets no condition (big-endian), at another one A1 (R43). -/
theorem test_fpCauses : (state 0x00003002 0).fpCauses 0x5004 8 = [] ∧ (state 0x00003002 0).fpCauses 0x5002 8 = [.a1] := by
  decide

/-- R50, R41: in little-endian mode a doubleword at 4 modulo 8 is misaligned and meets A0. -/
theorem test_fpCauses_a0 : (state 0x00003003 0).fpCauses 0x5004 8 = [.a0] ∧ (state 0x00003003 0).fpCauses 0x5008 8 = [] := by
  decide

/-- R50: the alignment exception of that access. -/
theorem test_lfd_a0 : completes ({ (state 0x00003003 0x4100).setGpr 3 0x5004 with params := trapping }.run 0xC8230000)
    (fun t => t.srr0 == 0x4100 && t.pc == 0x00000600) = true := by decide

/-- R172: a store to an invalid physical address reports the machine check, whatever `Exec` asks for (`stfd f1,0(r3)`). -/
theorem test_stfd_absent : completes ({ (state 0x00003002 0x4100).setGpr 3 0x5000 with
    params := { performing with fpAssist := true, absent := [(0x5000, 8)] } }.run 0xD8230000)
    (fun t => t.pc == 0x00000200) = true := by decide

/-- R69: a reserved field is refused with FP = 0 too. -/
theorem test_reserved_unavailable : refuses ((state 0x00001002 0).run 0xFC61004C) (.invalidForm "mtfsb1") = true := by decide

/-- R68: a row's word that is known to be illegal. -/
theorem test_illegal_row : completes ({ state 0x00001002 0x4100 with
    params := { performing with illegal := [⟨0xFFFFFFFF, 0x44000002⟩] } }.run 0x44000002)
    (fun t => t.pc == 0x00000700 && t.srr0 == 0x4100) = true := by decide

/-- R70: a floating-point word that is an optional no-op. -/
theorem test_nop : completes ({ state 0x00003002 0x4100 with
    params := { performing with optionalNop := [⟨0xFC000000, 0xEC000000⟩] } }.run 0xEC000000)
    (fun t => t.pc == 0x4104) = true := by decide

/-- R162, R83: an `rfi` that finds SRR0 undefined faults; writing both registers makes it good. -/
theorem test_rfi_undefined :
    exec .rfi { state 0x00001000 0x700 with srr0Undefined := true, srr1Undefined := true } = .fault .undefinedSrr := rfl

/-- R162: an `mfspr` of the undefined register faults, and one of the other completes. -/
theorem test_mfspr_undefined : let s : State := { state 0x00001000 0x700 with srr0Undefined := true }
    exec (.mfspr 3 26) s = .fault .undefinedSrr ∧ completes (exec (.mfspr 3 27) s) (fun t => t.pc == 0x704) = true :=
  ⟨rfl, by decide⟩

/-- The implementation has a register of its own at 1008. -/
def extended : Params := { performing with readableSprs := [(1008, 1)], writableSprs := [(1008, 1)] }

/-- 2.7, n = 1008: privileged at user level where there is no such register; written and read where there is one. -/
theorem test_impl_spr :
    completes (exec (.mfspr 3 1008) (state 0x00005000 0x3000)) (fun t => t.srr0 == 0x3000 && t.pc == 0x700) = true ∧
      completes (exec (.mtspr 1008 3) { (state 0x1000 0x700).setGpr 3 7 with params := extended }) (fun t =>
        completes (exec (.mfspr 4 1008) t) fun u => u.readGpr 4 == 7 && u.pc == 0x708) = true := by decide

/-! ### Witnesses: states and operands that meet the hypotheses of the statements, each clause once -/

/-- A state at supervisor level with floating point available. -/
def plain : State := state 0x00003002 0x6000

/-- A state at user level. -/
def user : State := state 0x00005002 0x6000

/-- A word placed at the reset vector. -/
def started (w : Nat) : State := State.reset.withFetchWord 32 w

theorem witness_EncodeOfDecodeGivesTheWord : decodeWord 0x7CA0212D = .ok (.stwcx 5 0 4) := by decide

/-- No word of this implementation is illegal but 0, and it adds no exception type. -/
theorem performing_architected (m pc w : Word) (h : w ≠ 0) : (state m pc).architected w := by
  refine ⟨?_, fun v hv => by cases hv⟩
  show (((w &&& 0xFFFFFFFF) == 0) || false) = false
  have : w &&& 0xFFFFFFFF = w := BitVec.and_allOnes
  rw [this, Bool.or_false]
  exact beq_eq_false_iff_ne.mpr h

/-- Words for each clause, both ends of the list of rows with a reserved bit 31 among them. -/
theorem witness_ReservedFieldsAreRefused : plain.architected 0x44000003 ∧ plain.architected 0xFDFF0D8E ∧
      (opcd 0x44000003 = 17 ∧ (0x44000003 : Word) ≠ 0x44000002) ∧
      (opcd 0x4C000065 = 19 ∧ extOpcd 0x4C000065 = 50 ∧ (0x4C000065 : Word) ≠ 0x4C000064) ∧
      (opcd 0x7CA0212C = 31 ∧ extOpcd 0x7CA0212C = 150 ∧ (0x7CA0212C : Word).getMsbD 31 = false) ∧
      (opcd 0x7E032009 = 31 ∧ extOpcd 0x7E032009 = 4 ∧ (0x7E032009 : Word).getMsbD 31 = true) ∧
      (opcd 0x7CA41DAB = 31 ∧ extOpcd 0x7CA41DAB = 725 ∧ (0x7CA41DAB : Word).getMsbD 31 = true) ∧
      (opcd 0x7C6100A6 = 31 ∧ extOpcd 0x7C6100A6 = 83 ∧ field 0x7C6100A6 11 10 ≠ 0) ∧
      (opcd 0x7C600924 = 31 ∧ extOpcd 0x7C600924 = 146 ∧ field 0x7C600924 11 10 ≠ 0) ∧
      (opcd 0xFC61004C = 63 ∧ extOpcd 0xFC61004C = 38 ∧ field 0xFC61004C 11 10 ≠ 0) ∧
      (opcd 0xFF20088C = 63 ∧ extOpcd 0xFF20088C = 70 ∧ field 0xFF20088C 11 10 ≠ 0) ∧
      (opcd 0xFF01810C = 63 ∧ extOpcd 0xFF01810C = 134 ∧ field 0xFF01810C 9 7 ≠ 0) ∧
      (opcd 0xFF00890C = 63 ∧ extOpcd 0xFF00890C = 134 ∧ (0xFF00890C : Word).getMsbD 20 = true) ∧
      (opcd 0xFFFE0D8E = 63 ∧ extOpcd 0xFFFE0D8E = 711 ∧ (0xFFFE0D8E : Word).getMsbD 6 = true) ∧
      (opcd 0xFDFF0D8E = 63 ∧ extOpcd 0xFDFF0D8E = 711 ∧ (0xFDFF0D8E : Word).getMsbD 15 = true) :=
  ⟨performing_architected _ _ _ (by decide), performing_architected _ _ _ (by decide), by decide⟩

theorem witness_StepRunsTheDecodedInstruction :
    let s := started 0x44000002
    let as := [0xFFF00100, 0xFFF00101, 0xFFF00102, 0xFFF00103]
    let w := wordOfBytes (msrLE s.deliver.msr) (as.map s.deliver.mem.read)
    s.checkstop = false ∧ s.deliver.boundary.isNone = true ∧ s.deliver.reducedPower = false ∧
      s.deliver.physBytes .fetch s.deliver.pc 4 = .ok as ∧ (∀ a ∈ as, a ∉ s.deliver.stored) ∧
      (wordIn s.deliver.params.illegal w = false ∧ s.deliver.params.implVectors = []) ∧ decodeWord w = .ok .sc ∧
      msrIR s.deliver.msr = false ∧ s.inputs = [] := by decide +kernel

/-- A fetch that answers addresses, one of them stored to and none, and a machine check condition. A fetch whose
translation fails has no concrete witness: `Translate` is an uninterpreted parameter. -/
theorem witness_FetchOutcomes :
    let s := started 0x44000002
    let absent : State := { s with params := { performing with absent := [(0xFFF00100, 4)] } }
    s.checkstop = false ∧ s.deliver.boundary.isNone = true ∧ s.deliver.reducedPower = false ∧
      absent.deliver.physBytes .fetch absent.deliver.pc 4 = .error .machineCheck ∧
      s.deliver.physBytes .fetch s.deliver.pc 4 = .ok [0xFFF00100, 0xFFF00101, 0xFFF00102, 0xFFF00103] ∧
      s.deliver.stored = [] := by decide +kernel

/-- A stopped state, one that is not, and one whose step is an `rfi` that faults. -/
theorem witness_StepFaultsOnlyInCheckstopOrOnUndefinedSrr :
    { plain with checkstop := true }.checkstop = true ∧ plain.checkstop = false ∧
      step { started 0x4C000064 with srr0Undefined := true } = .fault .undefinedSrr ∧
      step { started 0x7C7A02A6 with srr0Undefined := true } = .fault .undefinedSrr ∧
      step { started 0x7C7B02A6 with srr1Undefined := true } = .fault .undefinedSrr :=
  ⟨by decide, by decide, rfl, rfl, rfl⟩

/-- An implementation that starts elsewhere. -/
theorem witness_ResetSatisfiesTheInvariant :
    let p : Params := { performing with resetPc := 0x00000100, resetMsr := 0x00001000 }
    p.resetPc &&& 0x00000003 = 0 ∧ p.resetMsr &&& reservedBits p = 0 := by decide

/-- The ends of the offsets left to implementations. -/
theorem witness_VectorAddresses :
    let v (p : BitVec 6) : Bool := ImplVector.atImplementationOffset ⟨p, []⟩
    v 0x0A = true ∧ v 0x10 = true ∧ v 0x2F = true ∧ v 0x0B = false ∧ v 0x0F = false ∧ v 0x30 = false ∧
      plain.params.implVectors = [] ∧ wordIn plain.params.illegal 0x44000002 = false := by decide

/-- The reset state with a word to run, in which the invariant holds, makes a step. -/
theorem witness_StepKeepsTheInvariant : Inv (started 0x44000002) ∧ ∃ t, step (started 0x44000002) = .next t :=
  ⟨⟨by decide +kernel, by decide +kernel, by decide +kernel, by decide +kernel, by decide +kernel, by decide +kernel, by decide +kernel⟩, _, rfl⟩

theorem witness_EnabledInterruptsAreTaken :
    let s : State := { state 0x00009002 0x2000 with decPending := true }
    s.checkstop = false ∧ s.deliver.sresetPending = false ∧ s.deliver.mcheckPending = false ∧
      msrEE s.deliver.msr = true ∧ s.deliver.extSignal = false ∧ s.deliver.decPending = true ∧
      { s with inputs := [[.externalSignal true]] }.deliver.extSignal = true := by decide

/-- One step that takes another exception, and one that takes the decrementer exception. -/
theorem witness_DecrementerPendsUntilTaken :
    (∃ t, step { user with decPending := true, sresetPending := true } = .next t) ∧
      (∃ t, step { state 0x00009002 0x2000 with decPending := true } = .next t) := ⟨⟨_, rfl⟩, _, rfl⟩

/-- A system reset taken with the corrupt flag set. -/
theorem witness_RecoverableCopy :
    let s : State := { plain with sresetPending := true, sresetCorrupt := true }
    s.sresetCorrupt = true ∧ ∃ t, step s = .next t := ⟨rfl, _, rfl⟩

/-- The ends of the numbered ranges, a user-level and supervisor-only register of each kind. -/
theorem witness_SprNumbers :
    sprOf 1 = some .xer ∧ sprOf 9 = some .ctr ∧ sprOf 18 = some .dsisr ∧ sprOf 275 = some (.sprg 3) ∧
      sprOf 543 = some (.bat 15) := by decide

theorem witness_SystemResetTakenFirst :
    let s : State := { plain with inputs := [[.systemReset false, .machineCheck true]] }
    s.checkstop = false ∧ s.deliver.sresetPending = true ∧ s.deliver.sresetCorrupt = false := by decide

theorem witness_MachineCheckTakenOrCheckstop :
    let s : State := { plain with mcheckPending := true }
    s.checkstop = false ∧ s.deliver.sresetPending = false ∧ s.deliver.mcheckPending = true ∧
      msrME s.deliver.msr = true ∧ msrME { s with msr := 2 }.deliver.msr = false := by decide

theorem witness_ReducedPowerRunsNoInstruction :
    let s : State := { state 0x00051042 0x2000 with params := { performing with pow := true } }
    let t : State := { s with inputs := [[], [.decrementerTick]] }
    s.checkstop = false ∧ s.deliver.boundary.isNone = true ∧ msrPOW s.deliver.msr = true ∧
      s.deliver.params.pow = true ∧ s.deliver.inputs = [] ∧ t.deliver.boundary.isNone = true ∧
      t.deliver.inputs ≠ [] := by decide

/-- A user-level step that takes an exception, and one that does not leave user level. -/
theorem witness_UserLevelIsLeftOnlyThroughAVector :
    let s := started 0x44000002
    let u := started 0x7C6802A6
    (msrPR { s with msr := 0x4040 }.deliver.msr = true ∧ ∃ t, step { s with msr := 0x4040 } = .next t) ∧
      (msrPR { u with msr := 0x4040 }.deliver.msr = true ∧ ∃ t, step { u with msr := 0x4040 } = .next t) :=
  ⟨⟨rfl, _, rfl⟩, rfl, _, rfl⟩

/-- A supervisor and a user-level state with SE = 1, operands for each clause, and a branch word with BE = 1. -/
theorem witness_TraceFollowsCompletion :
    let s : State := { (state 0x00001402 0x8000).setGpr 3 0x00001402 with params := tracing, srr1 := 0x00001402 }
    let u : State := { state 0x00005402 0x8000 with params := tracing }
    let b : State := { state 0x00001202 0x8000 with params := tracing }
    let exempt (i : Instr) : Bool := wordIn s.params.traceExempt (encode i)
    (s.params.trace = true ∧ msrSE s.msr = true ∧ msrSE u.msr = true ∧ msrPR s.msr = false ∧ msrPR u.msr = true) ∧
      (s.readGpr 3 &&& reservedBits s.params = 0 ∧ (s.fpscr.getMsbD 1 && msrFE (s.readGpr 3)) = false) ∧
      (s.savedContextUndefined = false ∧ s.srr1 &&& 0x0000FF73 &&& reservedBits s.params = 0 ∧
        wordIn { s with params := { tracing with traceExempt := [] } }.params.traceExempt (encode .rfi) = false) ∧
      (exempt (.mfmsr 3) = false ∧ exempt (.mtmsr 3) = false ∧ exempt (.mtspr 22 3) = false ∧
        exempt (.mfspr 3 9) = false ∧ exempt (.twi 8 3 0x7FFF) = false ∧ exempt (.tw 0 3 4) = false) ∧
      (writableSpr performing 22 = some .dec ∧ (sprSupervisor 22 && msrPR s.msr) = false) ∧
      (readableSpr performing 9 = some .ctr ∧ (sprSupervisor 9 && msrPR u.msr) = false ∧ u.sprUndefined .ctr = false) ∧
      trapCondition 8 (u.readGpr 3) ((0x7FFF : BitVec 16).signExtend 32) = false ∧
      (isBranch 0x48000010 = true ∧ msrBE b.msr = true ∧ wordIn b.params.illegal 0x48000010 = false ∧
        b.params.implVectors = []) := by decide

/-- An instruction is traced in one of two implementations, and the other leaves it as it is. -/
theorem witness_Retired :
    { state 0x00001402 0 with params := tracing }.traced 0x7C6000A6 = true ∧ (state 0x00001402 0).traced 0x7C6000A6 = false := by
  decide

/-- Operands for each of the five conditions at a boundary, and for none. -/
theorem witness_TrapInstructions :
    ((16 : BitVec 5).getMsbD 0 = true ∧ (0x80000000 : Word).toInt < (0x7FFFFFFF : Word).toInt) ∧
      ((8 : BitVec 5).getMsbD 1 = true ∧ (0xFFFFFFFF : Word).toInt < (0 : Word).toInt) ∧
      (4 : BitVec 5).getMsbD 2 = true ∧
      ((2 : BitVec 5).getMsbD 3 = true ∧ (0 : Word).toNat < (0xFFFFFFFF : Word).toNat) ∧
      ((1 : BitVec 5).getMsbD 4 = true ∧ (0x7FFFFFFF : Word).toNat < (0x80000000 : Word).toNat) ∧
      (∀ j < 5, (0 : BitVec 5).getMsbD j = false) := by decide

theorem witness_RfiRestoresTheSavedContext :
    let s : State := { plain with srr0 := 0x2007, srr1 := 0x0004D002 }
    (msrPR s.msr = false ∧ s.savedContextUndefined = false ∧ s.srr1 &&& 0x0000FF73 &&& reservedBits s.params = 0 ∧
      (s.fpscr.getMsbD 1 && (s.srr1.getMsbD 20 || s.srr1.getMsbD 23)) = false) ∧
      { s with srr1Undefined := true }.savedContextUndefined = true ∧
      (s.params.srrVolatile = true ∧ msrIR { s with msr := 0x30 }.msr = true ∧ msrDR { s with msr := 0x30 }.msr = true) := by
  decide

theorem witness_MtmsrAndMfmsrAccessTheMsr :
    let s : State := plain.setGpr 3 0x0001F973
    msrPR s.msr = false ∧ s.readGpr 3 &&& reservedBits s.params = 0 ∧
      (s.fpscr.getMsbD 1 && msrFE (s.readGpr 3)) = false := ⟨rfl, rfl, rfl⟩

theorem witness_ReservedMsrBitsAreRefused :
    let s : State := { plain.setGpr 3 0x80000000 with srr1 := 0x00000200 }
    msrPR s.msr = false ∧ s.savedContextUndefined = false ∧ s.readGpr 3 &&& reservedBits s.params ≠ 0 ∧
      s.srr1 &&& 0x0000FF73 &&& reservedBits s.params ≠ 0 := by decide

theorem witness_EnablingFpExceptionsWithFexTraps :
    let s : State := { plain.setGpr 3 0x00003802 with fpscr := 0x40000000, srr1 := 0x00000100 }
    msrPR s.msr = false ∧ s.savedContextUndefined = false ∧ s.fpscr.getMsbD 1 = true ∧
      s.readGpr 3 &&& reservedBits s.params = 0 ∧ msrFE (s.readGpr 3) = true ∧
      s.srr1 &&& 0x0000FF73 &&& reservedBits s.params = 0 ∧ msrFE s.srr1 = true := by decide

/-- A valid supervisor register and an invalid number with spr[0] = 1. -/
theorem witness_PrivilegedInstructionsTrapAtUserLevel :
    msrPR user.msr = true ∧ (26 : BitVec 10).getLsbD 4 = true ∧ (1008 : BitVec 10).getLsbD 4 = true := by decide

/-- A user-level register at user level, and the ends of the supervisor ranges at supervisor level. -/
theorem witness_MtsprWritesTheRegister :
    (writableSpr performing 1 = some .xer ∧ (sprSupervisor 1 && msrPR user.msr) = false) ∧
      (writableSpr performing 272 = some (.sprg 0) ∧ writableSpr performing 275 = some (.sprg 3) ∧ writableSpr performing 528 = some (.bat 0) ∧
        writableSpr performing 543 = some (.bat 15) ∧ writableSpr performing 22 = some .dec ∧
        (sprSupervisor 543 && msrPR plain.msr) = false) ∧
      (writableSpr extended 1008 = some (.impl 1008) ∧ Cells.wf 0 1024 plain.implSprs) := by decide

theorem witness_MfsprReadsTheRegister :
    (readableSpr performing 9 = some .ctr ∧ (sprSupervisor 9 && msrPR user.msr) = false) ∧
      (readableSpr performing 287 = some .pvr ∧ readableSpr performing 543 = some (.bat 15) ∧
        (sprSupervisor 287 && msrPR plain.msr) = false) ∧
      (readableSpr performing 26 = some .srr0 ∧ readableSpr performing 27 = some .srr1 ∧ plain.params.srrVolatile = true ∧
        plain.srr0Undefined = false ∧ { plain with srr1Undefined := true }.srr1Undefined = true) := by decide

/-- Numbers in no register's place, and those only one of the two instructions admits: PVR and TBL. -/
theorem witness_InvalidSprField :
    (writableSpr performing 287 = none ∧ (287 : BitVec 10).getLsbD 4 = true) ∧
      (readableSpr performing 284 = none ∧ (284 : BitVec 10).getLsbD 4 = true) ∧
      (writableSpr performing 2 = none ∧ readableSpr performing 2 = none ∧ (2 : BitVec 10).getLsbD 4 = false) ∧
      msrPR user.msr = true ∧ msrPR plain.msr = false := by decide

/-- The whole register file from r0 needs rA below it; r31 alone is the other end. -/
theorem witness_LmwLoadsWords :
    let s : State := (state 0x00003003 0x6000).setGpr 1 0x5003
    let ea := (if (1 : Reg) = 0 then 0 else s.readGpr 1) + BitVec.ofInt 32 (0xFFFC : BitVec 16).toInt
    (1 : Reg).toNat < (31 : Reg).toNat ∧ s.reaches ea (4 * (32 - (31 : Reg).toNat)) ∧
      s.performs (s.multipleCauses ea (4 * (32 - (31 : Reg).toNat))) :=
  ⟨by decide, ⟨rfl, by decide⟩, by unfold State.performs; decide⟩

theorem witness_StmwStoresWords :
    let s : State := plain.setGpr 1 0xFFFFFFFC
    let ea := (if (1 : Reg) = 0 then 0 else s.readGpr 1) + BitVec.ofInt 32 (0 : BitVec 16).toInt
    s.reaches ea (4 * (32 - (0 : Reg).toNat)) ∧ s.performs (s.multipleCauses ea (4 * (32 - (0 : Reg).toNat))) ∧
      Memory.wf s.mem :=
  ⟨⟨rfl, by decide⟩, by unfold State.performs; decide, by decide⟩

/-- `lswi` of 32 bytes (NB = 0) and `lswx` of one byte, in either byte order. -/
theorem witness_StringLoadsLoadBytes :
    let s : State := { (state 0x00003003 0x6000).setGpr 4 0x5001 with xer := 1 }
    (loadedByString 5 4 32 = false ∧ s.reaches (s.readGpr 4) 32 ∧ s.performs (s.stringCauses (s.readGpr 4) 32)) ∧
      ((5 : Reg) ≠ 0 ∧ (5 : Reg) ≠ 4 ∧ s.xer.toNat % 128 ≠ 0 ∧ loadedByString 5 0 (s.xer.toNat % 128) = false ∧
        loadedByString 5 4 (s.xer.toNat % 128) = false ∧ s.reaches (s.readGpr 4) (s.xer.toNat % 128) ∧
        s.performs (s.stringCauses (s.readGpr 4) (s.xer.toNat % 128))) := by
  refine ⟨⟨by decide, ⟨rfl, by decide⟩, ?_⟩, ⟨by decide, by decide, by decide, by decide, by decide, ⟨rfl, by decide⟩, ?_⟩⟩ <;>
    (unfold State.performs; decide)

theorem witness_LswxOfZeroBytes :
    let s : State := plain.setGpr 4 0x5001
    s.xer.toNat % 128 = 0 ∧ (5 : Reg) ≠ 0 ∧ (5 : Reg) ≠ 4 ∧
      s.performs (s.stringCauses ((if (0 : Reg) = 0 then 0 else s.readGpr 0) + s.readGpr 4) 0) :=
  ⟨by decide, by decide, by decide, by unfold State.performs; decide⟩

/-- `stswi` of 32 bytes and `stswx` of 127 and of none. -/
theorem witness_StringStoresStoreBytes :
    let s : State := plain.setGpr 4 0x5001
    (s.reaches 0x5001 32 ∧ s.performs (s.stringCauses 0x5001 32)) ∧
      (s.reaches 0x5001 127 ∧ s.performs (s.stringCauses 0x5001 127)) ∧ s.reaches 0x5001 0 ∧ Memory.wf s.mem := by
  refine ⟨⟨⟨rfl, fun _ _ => rfl⟩, ?_⟩, ⟨⟨rfl, fun _ _ => rfl⟩, ?_⟩, ⟨rfl, fun _ _ => rfl⟩, by decide⟩ <;>
    (unfold State.performs; decide)

/-- rA the first and the last register loaded; rD equal to rA or to rB. -/
theorem witness_InvalidLoadFormsAreRefused :
    (31 : Reg).toNat ≤ (31 : Reg).toNat ∧ ((6 : Reg) - 5).toNat < (5 + 3) / 4 ∧
      ((12 : Reg) - 5).toNat < ((if (0 : BitVec 5) = 0 then 32 else (0 : BitVec 5).toNat) + 3) / 4 ∧
      ((0 : Reg) - 31).toNat < ({ plain with xer := 5 }.xer.toNat % 128 + 3) / 4 := by decide

/-- In little-endian mode, where A2 and A4 are performed. -/
theorem witness_LwarxOfAMisalignedWordIsRefused :
    let s : State := (state 0x00003003 0x6000).setGpr 4 0x5001
    (s.readGpr 4).toNat % 4 ≠ 0 ∧ s.performs (s.elementaryCauses (s.readGpr 4)) :=
  ⟨by decide, by unfold State.performs; decide⟩

/-- An aligned operand of each kind, in little-endian mode. -/
theorem witness_LittleEndianMultiplesTrap :
    let s : State := { (state 0x00003003 0x6000).setGpr 4 0x5000 with params := trapping, xer := 4 }
    msrLE s.msr = true ∧ s.params.align.a3 = .trap ∧ (4 : Reg).toNat < (30 : Reg).toNat ∧
      loadedByString 30 4 8 = false ∧ (30 : Reg) ≠ 4 ∧ (30 : Reg) ≠ 0 ∧
      loadedByString 30 0 (s.xer.toNat % 128) = false ∧ loadedByString 30 4 (s.xer.toNat % 128) = false ∧
      s.xer.toNat % 128 ≠ 0 ∧ s.reaches 0x5000 (4 * (32 - (30 : Reg).toNat)) ∧ s.reaches 0x5000 8 ∧
      s.reaches 0x5000 (s.xer.toNat % 128) :=
  ⟨by decide, by decide, by decide, by decide, by decide, by decide, by decide, by decide, by decide,
    ⟨rfl, by decide⟩, ⟨rfl, by decide⟩, ⟨rfl, by decide⟩⟩

theorem witness_MisalignedWordsTrap :
    let s : State := { plain.setGpr 4 0x5003 with params := trapping, ear := 0x80000000 }
    msrLE s.msr = false ∧ msrLE { s with msr := 0x3003 }.msr = true ∧ s.params.align.a2 = .trap ∧ (4 : Reg).toNat < (30 : Reg).toNat ∧
      wordIn s.params.optionalNop (encode (.eciwx 3 0 4)) = false ∧
      wordIn s.params.optionalAbsent (encode (.ecowx 3 0 4)) = false ∧ s.ear.getMsbD 0 = true ∧
      (0x5003 : Word).toNat % 4 ≠ 0 ∧ s.reaches 0x5003 (4 * (32 - (30 : Reg).toNat)) ∧ s.reaches 0x5003 4 :=
  ⟨by decide, by decide, by decide, by decide, by decide, by decide, by decide, by decide, ⟨rfl, by decide⟩,
    ⟨rfl, by decide⟩⟩

/-- The word's address is invalid; a DSI has no concrete witness, because `Translate` is an uninterpreted parameter. -/
theorem witness_WordAccessesThatFail :
    let s : State := { plain.setGpr 4 0x5004 with
      params := { performing with absent := [(0x5004, 1)] }, ear := 0x80000000, reservation := some 0x5004 }
    (0x5004 : Word).toNat % 4 = 0 ∧ (if (0 : Reg) = 0 then 0 else s.readGpr 0) + s.readGpr 4 = 0x5004 ∧
      s.performs (s.elementaryCauses 0x5004) ∧
      (s.reservation ≠ none ∧ s.reservation = s.physicalAddress .store 0x5004) ∧
      (wordIn s.params.optionalNop (encode (.eciwx 3 0 4)) = false ∧
        wordIn s.params.optionalAbsent (encode (.ecowx 3 0 4)) = false ∧ s.ear.getMsbD 0 = true) ∧
      s.physBytes .load 0x5004 4 = .error .machineCheck ∧ s.physBytes .store 0x5004 4 = .error .machineCheck :=
  ⟨by decide, by decide, by unfold State.performs; decide, by decide, by decide, by decide, by decide⟩

/-- The second word, and the third byte of a string, at an invalid address. -/
theorem witness_LoadsStoppedPartWayKeepWhatTheyLoaded :
    let s : State := { plain.setGpr 4 0x5000 with params := { performing with absent := [(0x5004, 4)] }, xer := 8 }
    ((4 : Reg).toNat < (30 : Reg).toNat ∧ s.performs (s.multipleCauses 0x5000 8) ∧
      s.physBytes .load 0x5000 4 = .ok [0x5000, 0x5001, 0x5002, 0x5003] ∧
      s.physBytes .load 0x5004 4 = .error .machineCheck) ∧
      (loadedByString 30 4 8 = false ∧ (30 : Reg) ≠ 4 ∧ (30 : Reg) ≠ 0 ∧ loadedByString 30 0 8 = false ∧
        s.xer.toNat % 128 = 8 ∧ s.performs (s.stringCauses 0x5000 8) ∧
        (∀ j < 4, s.physBytes .load (0x5000 + BitVec.ofNat 32 j) 1 = .ok [0x5000 + j]) ∧
        s.physBytes .load (0x5000 + BitVec.ofNat 32 4) 1 = .error .machineCheck) :=
  ⟨⟨by decide, by unfold State.performs; decide, by decide, by decide⟩, by decide, by decide, by decide,
    by decide, by decide, by unfold State.performs; decide, by decide, by decide⟩

theorem witness_StoresStoppedPartWayKeepWhatTheyStored :
    let s : State := { plain.setGpr 4 0x5000 with params := { performing with absent := [(0x5004, 4)] }, xer := 8 }
    (Memory.wf s.mem ∧ ((List.range 1).flatMap fun _ => [0x5000, 0x5001, 0x5002, 0x5003]).Nodup ∧
      ((List.range 4).flatMap fun j => [0x5000 + j]).Nodup) ∧
      (s.performs (s.multipleCauses 0x5000 8) ∧
        s.physBytes .store 0x5000 4 = .ok [0x5000, 0x5001, 0x5002, 0x5003] ∧
        s.physBytes .store 0x5004 4 = .error .machineCheck) ∧
      (s.performs (s.stringCauses 0x5000 8) ∧
        (∀ j < 4, s.physBytes .store (0x5000 + BitVec.ofNat 32 j) 1 = .ok [0x5000 + j]) ∧
        s.physBytes .store (0x5000 + BitVec.ofNat 32 4) 1 = .error .machineCheck) :=
  ⟨by decide, ⟨by unfold State.performs; decide, by decide, by decide⟩, by unfold State.performs; decide, by decide,
    by decide⟩

theorem witness_LwarxLoadsAndReserves :
    let s : State := plain.setGpr 4 0xFFFFFFFC
    let ea := (if (0 : Reg) = 0 then 0 else s.readGpr 0) + s.readGpr 4
    ea.toNat % 4 = 0 ∧ s.reaches ea 4 := ⟨by decide, ⟨rfl, by decide⟩⟩

/-- A misaligned address that the implementation accesses all the same, in little-endian mode. -/
theorem witness_StwcxStoresUnderItsReservation :
    let s : State := { (state 0x00003003 0x6000).setGpr 4 0x5002 with reservation := some 0x5002 }
    let ea := (if (0 : Reg) = 0 then 0 else s.readGpr 0) + s.readGpr 4
    s.reservation = some ea ∧ s.performs (s.elementaryCauses ea) ∧ s.reaches ea 4 ∧ Memory.wf s.mem :=
  ⟨by decide, by unfold State.performs; decide, ⟨rfl, by decide⟩, by decide⟩

/-- No reservation, and one at the next word. -/
theorem witness_StwcxWithoutItsOwnReservation :
    let s : State := plain.setGpr 4 0x5001
    let t : State := { s with reservation := some 0x5004 }
    let ea := (if (0 : Reg) = 0 then 0 else s.readGpr 0) + s.readGpr 4
    (s.reservation = none ∧ s.performs (s.elementaryCauses ea)) ∧
      (t.reservation = some 0x5004 ∧ (0x5004 : Word) ≠ ea ∧ t.performs (t.elementaryCauses ea) ∧ t.reaches ea 4 ∧
        Memory.wf t.mem) :=
  ⟨⟨by decide, by unfold State.performs; decide⟩, by decide, by decide, by unfold State.performs; decide,
    ⟨rfl, by decide⟩, by decide⟩

theorem witness_ExternalControlTransfers :
    let s : State := { plain.setGpr 4 0x5004 with ear := 0x8000003F }
    let ea := (if (0 : Reg) = 0 then 0 else s.readGpr 0) + s.readGpr 4
    s.ear.getMsbD 0 = true ∧ s.performs (s.elementaryCauses ea) ∧ s.reaches ea 4 ∧
      wordIn s.params.optionalNop (encode (.eciwx 3 0 4)) = false ∧
      wordIn s.params.optionalAbsent (encode (.eciwx 3 0 4)) = false ∧
      wordIn s.params.optionalNop (encode (.ecowx 3 0 4)) = false ∧
      wordIn s.params.optionalAbsent (encode (.ecowx 3 0 4)) = false :=
  ⟨by decide, by unfold State.performs; decide, ⟨rfl, by decide⟩, by decide, by decide, by decide, by decide⟩

theorem witness_ExternalControlNotAvailable :
    let w := encode (.eciwx 3 0 4)
    let set : List WordPattern := [⟨0xFC0007FF, 0x7C00026C⟩, ⟨0xFC0007FF, 0x7C00036C⟩]
    wordIn { performing with optionalNop := set }.optionalNop w = true ∧
      (wordIn performing.optionalNop w = false ∧ wordIn { performing with optionalAbsent := set }.optionalAbsent w = true) ∧
      (wordIn performing.optionalAbsent w = false ∧ plain.ear.getMsbD 0 = false) := by decide

/-- For `mtfsf`, `mtfsfi`, `mtfsb1` and `mtfsb0`; their fields are any. -/
theorem witness_MoveToFpscr : msrFP plain.msr = true := rfl

/-- A floating-point load outside the table, and a row of the table; neither decodes to a reserved field. -/
theorem witness_FloatingPointUnavailable :
    (user.architected 0xC8230000 ∧ user.architected 0xFC60004C) ∧
      (isFloatingPoint 0xC8230000 = true ∧ isFloatingPoint 0xFC60004C = true ∧ msrFP user.msr = false) ∧
      (decodeWord 0xC8230000 = .error .noRow ∧ decodeWord 0xFC60004C = .ok (.mtfsb1 3 false)) ∧
      (wordIn performing.optionalAbsent 0xC8230000 && !wordIn performing.optionalNop 0xC8230000) = false ∧
      (wordIn performing.privileged 0xC8230000 && msrPR user.msr) = false :=
  ⟨⟨performing_architected _ _ _ (by decide), performing_architected _ _ _ (by decide)⟩, by decide, by decide,
    by decide, by decide⟩

/-- The all-zero word, an optional word that is absent or a no-op, and a word of which nothing is known. -/
theorem witness_IllegalOptionalAndUnknownWords :
    let set : List WordPattern := [⟨0xFC000000, 0xEC000000⟩]
    wordIn performing.illegal 0 = true ∧ plain.architected 0xEC000000 ∧ plain.architected 0x38600001 ∧
      (decodeWord 0xEC000000 = .error .noRow ∧ wordIn { performing with optionalNop := set }.optionalNop 0xEC000000 = true ∧
        wordIn { performing with optionalAbsent := set }.optionalAbsent 0xEC000000 = true ∧
        (isFloatingPoint 0xEC000000 && !msrFP plain.msr) = false) ∧
      (decodeWord 0x38600001 = .error .noRow ∧ wordIn performing.optionalAbsent 0x38600001 = false ∧
        wordIn performing.optionalNop 0x38600001 = false ∧ wordIn performing.privileged 0x38600001 = false ∧
        isFloatingPoint 0x38600001 = false ∧ isBranch 0x38600001 = false) :=
  ⟨by decide, performing_architected _ _ _ (by decide), performing_architected _ _ _ (by decide), by decide, by decide⟩

theorem witness_OnlyStoresChangeMemory : ∃ t, exec (.lmw 29 1 0) (dataState 1 0x5000) = .next t := ⟨_, rfl⟩

theorem witness_StoresChangeOnlyTheirOperand :
    let s := (dataState 4 0x5004).setGpr 5 0x11223344
    (∃ t, exec (.stmw 30 4 0) s = .next t) ∧ (∃ t, exec (.stswi 5 4 3) s = .next t) ∧
      (∃ t, exec (.stswx 5 0 4) s = .next t) ∧ (∃ t, exec (.stwcx 5 0 4) s = .next t) :=
  ⟨⟨_, rfl⟩, ⟨_, rfl⟩, ⟨_, rfl⟩, _, rfl⟩

/-- A register next to the last one loaded. -/
theorem witness_OnlyDestinationRegistersChange :
    (∃ t, exec (.lswi 5 4 5) (dataState 4 0x5000) = .next t) ∧ (5 + 3) / 4 ≤ ((7 : Reg) - 5).toNat :=
  ⟨⟨_, rfl⟩, by decide⟩

end Sys2Proof.Tests
end

/-! SUPPORT. The invariant over every path of a step: the words it speaks of, the parts of a step that keep it, the
instructions, and the step itself; then the special-purpose register numbers and the reserved MSR bits. -/

namespace Sys2Proof.Machine

/-! ### Words the invariant speaks of -/

theorem and_three_eq_zero_iff (w : Word) : w &&& 0x00000003 = 0 ↔ w.toNat % 4 = 0 := by
  have h := misaligned_iff w
  rw [misaligned, bne_iff_ne] at h
  exact not_iff_not.mp h

theorem add_four_and_three (w : Word) (h : w &&& 0x00000003 = 0) : (w + 4) &&& 0x00000003 = 0 := by
  rw [and_three_eq_zero_iff] at h ⊢
  rw [BitVec.toNat_add]
  change (w.toNat + 4) % 2 ^ 32 % 4 = 0
  omega

theorem clear_and_three (w : Word) : w &&& ~~~0x00000003 &&& 0x00000003 = 0 := by
  rw [BitVec.and_assoc]
  exact BitVec.and_zero

theorem vectorAddress_and_three (ip : Bool) (T : ExcType) : vectorAddress ip T &&& 0x00000003 = 0 := by
  cases T with
  | implementation page => revert ip page; decide
  | _ => revert ip; decide

/-- A mask that meets no bit of `m` meets no bit of a selection of `m`. -/
theorem and_and_eq_zero (m k r : Word) (h : m &&& r = 0) : m &&& k &&& r = 0 := by
  rw [BitVec.and_assoc, BitVec.and_comm k r, ← BitVec.and_assoc, h]
  exact BitVec.zero_and

theorem or_and_eq_zero (a b r : Word) (ha : a &&& r = 0) (hb : b &&& r = 0) : (a ||| b) &&& r = 0 := by
  rw [BitVec.and_or_distrib_right, ha, hb]
  rfl

theorem littleEndian_and_reservedBits (p : Params) : (0x00000001 : Word) &&& reservedBits p = 0 := by
  unfold reservedBits
  cases p.pow <;> cases p.trace <;> decide

/-- An exception entry sets no reserved bit (10_state.md R11). -/
theorem newMsr_and_reservedBits (p : Params) (T : ExcType) (m : Word) (h : m &&& reservedBits p = 0) :
    newMsr p T m &&& reservedBits p = 0 := by
  refine or_and_eq_zero _ _ _ (and_and_eq_zero _ _ _ h) ?_
  split
  · exact littleEndian_and_reservedBits p
  · exact BitVec.zero_and

/-- An exception entry clears FE0 and FE1 (60_exceptions.md R158). -/
theorem msrFE_newMsr (p : Params) (T : ExcType) (m : Word) : msrFE (newMsr p T m) = false := by
  unfold newMsr
  split <;> split <;> simp [msrFE, msrFE0, msrFE1, msrReserved, BitVec.getMsbD]

/-! ### The FPSCR's computed bits (44, before R123) -/

/-- The masks of the recomputation touch FEX and VX only. -/
theorem fpscrMasks_getMsbD : ∀ i < 32, i ≠ 1 → i ≠ 2 → (0x9FFFFFFF : Word).getMsbD i = true ∧
    (0x20000000 : Word).getMsbD i = false ∧ (0x40000000 : Word).getMsbD i = false := by decide

theorem getMsbD_ite_zero (c : Bool) (k : Word) (i : Nat) (h : k.getMsbD i = false) :
    (if c then k else 0).getMsbD i = false := by
  cases c with
  | false => exact BitVec.getMsbD_zero
  | true => exact h

theorem fpscrRecompute_getMsbD (f : Word) (i : Nat) (hi : i < 32) (h1 : i ≠ 1) (h2 : i ≠ 2) :
    (fpscrRecompute f).getMsbD i = f.getMsbD i := by
  obtain ⟨hkeep, hvx, hfex⟩ := fpscrMasks_getMsbD i hi h1 h2
  rw [fpscrRecompute, BitVec.getMsbD_or, BitVec.getMsbD_or, BitVec.getMsbD_and, hkeep, getMsbD_ite_zero _ _ i hvx,
    getMsbD_ite_zero _ _ i hfex, Bool.and_true, Bool.or_false, Bool.or_false]

@[simp] theorem fpscrInvalid_fpscrRecompute (f : Word) : fpscrInvalid (fpscrRecompute f) = fpscrInvalid f := by
  simp [fpscrInvalid, fpscrRecompute_getMsbD]

@[simp] theorem fpscrEnabled_fpscrRecompute (f : Word) : fpscrEnabled (fpscrRecompute f) = fpscrEnabled f := by
  simp [fpscrEnabled, fpscrRecompute_getMsbD]

/-- Recomputing VX and FEX again changes nothing: neither is read by what computes them. -/
theorem fpscrRecompute_fpscrRecompute (f : Word) : fpscrRecompute (fpscrRecompute f) = fpscrRecompute f := by
  have hkeep : fpscrRecompute f &&& 0x9FFFFFFF = f &&& 0x9FFFFFFF := by
    have hvx : (if fpscrInvalid f then 0x20000000 else 0 : Word) &&& 0x9FFFFFFF = 0 := by split <;> decide
    have hfex : (if fpscrEnabled f then 0x40000000 else 0 : Word) &&& 0x9FFFFFFF = 0 := by split <;> decide
    rw [fpscrRecompute, BitVec.and_or_distrib_right, BitVec.and_or_distrib_right, hvx, hfex, BitVec.and_assoc]
    exact BitVec.or_zero.trans BitVec.or_zero
  rw [fpscrRecompute.eq_def (fpscrRecompute f), hkeep, fpscrInvalid_fpscrRecompute, fpscrEnabled_fpscrRecompute]
  rfl

theorem fpscrFEX_fpscrRecompute (f : Word) : fpscrFEX (fpscrRecompute f) = fpscrEnabled f := by
  unfold fpscrFEX fpscrRecompute
  cases fpscrInvalid f <;> cases fpscrEnabled f <;> simp [BitVec.getMsbD]

/-- An FPSCR with fewer bits has no enabled condition that the other has not. -/
theorem fpscrEnabled_mono (f g : Word) (h : ∀ i, f.getMsbD i = true → g.getMsbD i = true)
    (hf : fpscrEnabled f = true) : fpscrEnabled g = true := by
  simp only [fpscrEnabled, fpscrInvalid, Bool.or_eq_true, Bool.and_eq_true] at hf ⊢
  grind

theorem fpscrClearBit_eq (f : Word) (i : Nat) : fpscrClearBit f i = f &&& ~~~(bitMask i &&& 0x9FFFFFFF) := by
  rw [fpscrClearBit, fpscrInsert]
  exact (congrArg _ BitVec.zero_and).trans BitVec.or_zero

/-- Clearing a bit of a coherent FPSCR leaves FEX 0 where it was 0 (44 R125: `mtfsb0` raises no enabled exception). -/
theorem fpscrFEX_fpscrClearBit (f : Word) (i : Nat) (hf : fpscrRecompute f = f) (h : fpscrFEX f = false) :
    fpscrFEX (fpscrRecompute (fpscrClearBit f i)) = false := by
  rw [← hf, fpscrFEX_fpscrRecompute] at h
  rw [fpscrFEX_fpscrRecompute, ← Bool.not_eq_true]
  refine fun hc => Bool.eq_false_iff.mp h (fpscrEnabled_mono _ f (fun j hj => ?_) hc)
  rw [fpscrClearBit_eq, BitVec.getMsbD_and, Bool.and_eq_true] at hj
  exact hj.1

/-! ### The invariant and what it reads -/

/-- The part of the state that the invariant speaks of. -/
def State.guarded (s : State) : Memory × List (Nat × Word) × List Nat × Word × Word × Params × Word :=
  (s.mem, s.implSprs, s.stored, s.pc, s.msr, s.params, s.fpscr)

/-- The invariant but for the enabled condition, which stands for as long as an instruction runs that raises it. -/
structure Coherent (s : State) : Prop where
  mem : Memory.wf s.mem
  implSprs : Cells.wf 0 1024 s.implSprs
  stored : storedWf s.stored
  pc : s.pc &&& 0x00000003 = 0
  msr : s.msr &&& reservedBits s.params = 0
  fpscr : fpscrRecompute s.fpscr = s.fpscr

theorem inv_iff_coherent (s : State) : Inv s ↔ Coherent s ∧ s.fpEnabledCondition = false :=
  ⟨fun h => ⟨⟨h.mem, h.implSprs, h.stored, h.pc, h.msr, h.fpscr⟩, h.fpEnabled⟩,
    fun ⟨h, hf⟩ => ⟨h.mem, h.implSprs, h.stored, h.pc, h.msr, h.fpscr, hf⟩⟩

theorem Inv.coherent {s : State} (h : Inv s) : Coherent s := ((inv_iff_coherent s).mp h).1

theorem coherent_congr {s t : State} (h : Coherent s) (e : t.guarded = s.guarded) : Coherent t := by
  simp only [State.guarded, Prod.mk.injEq] at e
  obtain ⟨hmem, hspr, hstored, hpc, hmsr, hparams, hfpscr⟩ := e
  exact ⟨hmem ▸ h.mem, hspr ▸ h.implSprs, hstored ▸ h.stored, hpc ▸ h.pc, hmsr ▸ hparams ▸ h.msr, hfpscr ▸ h.fpscr⟩

theorem inv_congr {s t : State} (h : Inv s) (e : t.guarded = s.guarded) : Inv t := by
  refine (inv_iff_coherent t).mpr ⟨coherent_congr h.coherent e, ?_⟩
  simp only [State.guarded, Prod.mk.injEq] at e
  obtain ⟨-, -, -, -, hmsr, -, hfpscr⟩ := e
  rw [State.fpEnabledCondition, hmsr, hfpscr]
  exact h.fpEnabled

/-! ### The shared operations keep the invariant -/

theorem inv_advance {s : State} (h : Inv s) : Inv s.advance :=
  ⟨h.mem, h.implSprs, h.stored, add_four_and_three _ h.pc, h.msr, h.fpscr, h.fpEnabled⟩

theorem coherent_advance {s : State} (h : Coherent s) : Coherent s.advance :=
  ⟨h.mem, h.implSprs, h.stored, add_four_and_three _ h.pc, h.msr, h.fpscr⟩

/-- An exception entry clears FE0 and FE1, so the enabled condition does not stand after it. -/
theorem inv_of_entered {s t : State} (h : Coherent s) (e : Entered s t) : Inv t := by
  obtain ⟨T, _, _, _, _, _, rfl⟩ := e
  refine ⟨h.mem, h.implSprs, h.stored, vectorAddress_and_three _ T, newMsr_and_reservedBits _ T _ h.msr, h.fpscr, ?_⟩
  rw [State.fpEnabledCondition, msrFE_newMsr, Bool.false_and]

theorem inv_of_stopped {s t : State} (h : Inv s) (e : Stopped s t) : Inv t := by
  obtain ⟨_, rfl⟩ := e
  exact inv_congr h rfl

theorem inv_of_entered_or_stopped {s t : State} (h : Inv s) (e : Entered s t ∨ Stopped s t) : Inv t :=
  e.elim (inv_of_entered h.coherent) (inv_of_stopped h)

theorem inv_of_disturbed {s t : State} (h : Inv s) (e : Disturbed s t) : Inv t := by
  obtain ⟨_, _, _, _, _, rfl⟩ := e
  exact inv_congr h rfl

theorem inv_of_loaded {s t : State} (h : Inv s) (e : Loaded s t) : Inv t := by
  obtain ⟨_, _, _, _, _, _, rfl⟩ := e
  exact inv_congr h rfl

theorem inv_of_stored {s t : State} (h : Inv s) (e : Stored s t) (hw : Memory.wf t.mem ∧ storedWf t.stored) : Inv t := by
  obtain ⟨_, _, _, _, _, _, _, rfl⟩ := e
  exact ⟨hw.1, h.implSprs, hw.2, h.pc, h.msr, h.fpscr, h.fpEnabled⟩

theorem inv_takeException {s : State} (h : Inv s) (T : ExcType) (a info : Word) (c : Bool) :
    Inv (s.takeException T a info c) := inv_of_entered h.coherent (takeException_entered s T a info c)

theorem inv_program {s : State} (h : Inv s) (k : ProgramKind) (a : Word) : Inv (s.program k a) :=
  inv_takeException h _ _ _ _

theorem inv_fpUnavailable {s : State} (h : Inv s) : Inv s.fpUnavailable := inv_takeException h _ _ _ _

theorem inv_machineCheck {s : State} (h : Inv s) (c : Bool) : Inv (s.machineCheck c) :=
  inv_of_entered_or_stopped h (machineCheck_cases s c)

theorem inv_accessMachineCheck {s : State} (h : Inv s) : Inv s.accessMachineCheck :=
  inv_of_entered_or_stopped h (accessMachineCheck_cases s)

theorem inv_dsi {s : State} (h : Inv s) (ea : Word) (n : Nat) : Inv (s.dsi ea n) :=
  inv_of_entered h.coherent (dsi_entered s ea n)

theorem inv_afterAccess {s : State} (h : Inv s) : Inv s.afterAccess := inv_of_disturbed h (afterAccess_eq s)

theorem inv_accessException {s : State} (h : Inv s) (f : AccessFault) (ea : Word) (n : Nat) :
    Inv (s.accessException f ea n) := inv_of_entered_or_stopped h (accessException_cases s f ea n)

theorem inv_retire {t : State} (h : Inv t) (m w : Word) : Inv (t.retire m w) := by
  rcases retire_cases t m w with e | e
  · rwa [e]
  · exact inv_of_entered h.coherent e

/-- `completeFp` raises the enabled exception where the condition stands: it needs the rest of the invariant only. -/
theorem inv_completeFp {t : State} (h : Coherent t) (cia m w : Word) : Inv (t.completeFp cia m w) := by
  rcases completeFp_condition t cia m w with ⟨e, hf⟩ | e
  · rw [e]
    exact (inv_iff_coherent t).mpr ⟨h, hf⟩
  · exact inv_of_entered h e

theorem coherent_setFpscr {s : State} (h : Coherent s) (f : Word) (rc : Bool) : Coherent (s.setFpscr f rc) := by
  obtain ⟨c, e⟩ := setFpscr_eq s f rc
  rw [e]
  exact ⟨h.mem, h.implSprs, h.stored, h.pc, h.msr, fpscrRecompute_fpscrRecompute f⟩

theorem coherent_applyFp {s : State} (h : Coherent s) (e : FpEffect) : Coherent (s.applyFp e) :=
  ⟨h.mem, h.implSprs, h.stored, h.pc, h.msr, fpscrRecompute_fpscrRecompute e.fpscr⟩

theorem inv_storeBytes {s : State} (h : Inv s) (as : List Nat) (bs : List Byte) (ha : ∀ a ∈ as, a < 2 ^ 32) :
    Inv (State.storeBytes as bs s) := by
  obtain ⟨m, l, e⟩ := storeBytes_eq as bs s
  exact inv_of_stored h ⟨m, l, e ▸ disturbed_refl _⟩ (storeBytes_wf as bs s h.mem h.stored ha)

theorem inv_writeBytes {s t : State} (h : Inv s) (ea : Word) (bs : List Byte) (e : s.writeBytes ea bs = .ok t) : Inv t :=
  inv_of_stored h (writeBytes_eq s t ea bs e) (writeBytes_wf s t ea bs e h.mem h.stored)

theorem inv_writeSpr {s : State} (h : Inv s) (r : Spr) (v : Word) : Inv (s.writeSpr r v) := by
  cases r with
  | impl n =>
    exact ⟨h.mem, Cells.write_wf 0 1024 s.implSprs n.toNat v h.implSprs n.isLt, h.stored, h.pc, h.msr, h.fpscr,
      h.fpEnabled⟩
  | _ => exact inv_congr h rfl

/-! ### Outcomes -/

/-- Every next state of this outcome has the property. -/
def OnNext (P : State → Prop) (o : Host.Outcome State Fault Refusal) : Prop := ∀ t, o = .next t → P t

theorem onNext_of {P : State → Prop} {t : State} (h : P t) : OnNext P (.next t) :=
  fun _ e => Host.Outcome.next.inj e ▸ h

theorem onNext_fault (P : State → Prop) (r : Fault) : OnNext P (.fault r) := fun _ e => by cases e

theorem onNext_refused (P : State → Prop) (r : Refusal) : OnNext P (.refused r) := fun _ e => by cases e

theorem onNext_withAlignment (P : State → Prop) (s : State) (cs : List AlignCause) (k : AccessKind) (ea : Word)
    (scan n : Nat) (perform : State → Host.Outcome State Fault Refusal) (hstop : ∀ t, Entered s t ∨ Stopped s t → P t)
    (hperform : ∀ d, OnNext P (perform { s with draws := d })) :
    OnNext P (s.withAlignment cs k ea scan n perform) := by
  rcases withAlignment_cases s cs k ea scan n perform with ⟨t, e, ht⟩ | ⟨d, e⟩
  · rw [e]
    exact onNext_of (hstop t ht)
  · rw [e]
    exact hperform d

/-- An access keeps the invariant when what is performed does. -/
theorem inv_withAlignment {s : State} (h : Inv s) (cs : List AlignCause) (k : AccessKind) (ea : Word) (scan n : Nat)
    (perform : State → Host.Outcome State Fault Refusal) (hperform : ∀ t, Inv t → OnNext Inv (perform t)) :
    OnNext Inv (s.withAlignment cs k ea scan n perform) :=
  onNext_withAlignment Inv s cs k ea scan n perform (fun _ => inv_of_entered_or_stopped h)
    fun _ => hperform _ (inv_congr h rfl)

theorem inv_finishAccess (m w ea : Word) (n : Nat) (r : State × Option AccessFault) (h : Inv r.1) :
    OnNext Inv (finishAccess m w ea n r) := by
  obtain ⟨t, f⟩ := r
  cases f with
  | none => exact onNext_of (inv_retire (inv_advance h) m w)
  | some f => exact onNext_of (inv_accessException h f ea n)

/-! ### The instructions keep the invariant -/

theorem inv_trapOn {s : State} (h : Inv s) (w : Word) (cond : BitVec 5) (a b : Word) : Inv (s.trapOn w cond a b) := by
  unfold State.trapOn
  split
  · exact inv_program h _ _
  · exact inv_retire (inv_advance h) _ _

/-- `rfi` restores no reserved bit, and reports the enabled condition that it restores. -/
theorem inv_execRfi {s : State} (h : Inv s) : OnNext Inv (execRfi s) := by
  unfold execRfi
  split_ifs with hpr hd hr
  · exact onNext_of (inv_program h _ _)
  · exact onNext_fault _ _
  · exact onNext_refused _ _
  · have hmsr : s.returnFromException.msr &&& reservedBits s.params = 0 :=
      or_and_eq_zero _ _ _ (and_and_eq_zero _ _ _ h.msr) (not_not.mp hr)
    have hc : Coherent s.returnFromException :=
      ⟨h.mem, h.implSprs, h.stored, clear_and_three s.srr0, hmsr, h.fpscr⟩
    exact onNext_of (inv_completeFp hc _ _ _)

theorem inv_execMtmsr {s : State} (h : Inv s) (rs : Reg) : OnNext Inv (execMtmsr rs s) := by
  unfold execMtmsr
  split_ifs with hpr hr
  · exact onNext_of (inv_program h _ _)
  · exact onNext_refused _ _
  · have hc : Coherent { s with msr := s.readGpr rs } :=
      ⟨h.mem, h.implSprs, h.stored, h.pc, not_not.mp hr, h.fpscr⟩
    exact onNext_of (inv_completeFp (coherent_advance hc) _ _ _)

theorem inv_setGpr {s : State} (h : Inv s) (r : Reg) (v : Word) : Inv (s.setGpr r v) := inv_congr h rfl

theorem inv_execMfmsr {s : State} (h : Inv s) (rd : Reg) : OnNext Inv (execMfmsr rd s) := by
  unfold execMfmsr
  split
  · exact onNext_of (inv_program h _ _)
  · exact onNext_of (inv_retire (inv_advance (inv_setGpr h rd _)) _ _)

theorem inv_invalidSpr {s : State} (h : Inv s) (n : BitVec 10) : OnNext Inv (s.invalidSpr n) := by
  unfold State.invalidSpr
  split
  · exact onNext_refused _ _
  · exact onNext_of (inv_program h _ _)

theorem inv_execMtspr {s : State} (h : Inv s) (spr : BitVec 10) (rs : Reg) : OnNext Inv (execMtspr spr rs s) := by
  unfold execMtspr
  split
  · exact onNext_of (inv_program h _ _)
  · split
    · exact onNext_of (inv_retire (inv_advance (inv_writeSpr h _ _)) _ _)
    · exact inv_invalidSpr h spr

theorem inv_execMfspr {s : State} (h : Inv s) (rd : Reg) (spr : BitVec 10) : OnNext Inv (execMfspr rd spr s) := by
  unfold execMfspr
  split
  · exact onNext_of (inv_program h _ _)
  · split
    · split
      · exact onNext_fault _ _
      · exact onNext_of (inv_retire (inv_advance (inv_setGpr h rd _)) _ _)
    · exact inv_invalidSpr h spr

theorem inv_loadReserved {t : State} (h : Inv t) (m w : Word) (rd : Reg) (ea : Word) :
    OnNext Inv (t.loadReserved m w rd ea) := by
  unfold State.loadReserved
  split
  · exact onNext_refused _ _
  · split
    · next v _ =>
      have hl : Inv ({ t with reservation := t.physicalAddress .load ea }.setGpr rd v) := inv_congr h rfl
      exact onNext_of (inv_retire (inv_advance (inv_afterAccess hl)) _ _)
    · exact onNext_of (inv_accessException h _ _ _)

theorem inv_storeConditional {t : State} (h : Inv t) (m w : Word) (rs : Reg) (ea : Word) (attempt : Bool) :
    OnNext Inv (t.storeConditional m w rs ea attempt) := by
  have cleared : ∀ (u : State) (eq : Bool), Inv u → Inv ({ u with reservation := none }.setCr0 eq) :=
    fun _ _ hu => inv_congr hu rfl
  unfold State.storeConditional
  split
  · split
    · next u e => exact onNext_of (inv_retire (inv_advance (cleared u true (inv_writeBytes h _ _ e))) _ _)
    · exact onNext_of (inv_accessException h _ _ _)
  · exact onNext_of (inv_retire (inv_advance (cleared t false h)) _ _)

theorem inv_externalControl {s : State} (h : Inv s) (w : Word) (k : AccessKind) (ea : Word)
    (act : State → Word → State) (hact : ∀ t pa, Inv t → Inv (act t pa)) :
    OnNext Inv (s.externalControl w k ea act) := by
  unfold State.externalControl
  split_ifs
  · exact onNext_of (inv_retire (inv_advance h) _ _)
  · exact onNext_of (inv_program h _ _)
  · exact onNext_of (inv_dsi h ea 4)
  · refine inv_withAlignment h _ _ _ _ _ _ fun t ht => ?_
    split
    · next pa _ _ => exact onNext_of (inv_retire (inv_advance (inv_afterAccess (hact t pa ht))) _ _)
    · exact onNext_of (inv_dsi ht ea 4)
    · exact onNext_of (inv_accessException ht _ _ _)

theorem inv_noBytes {t : State} (h : Inv t) (rd : Reg) (n : Nat) : Inv (t.noBytes rd n) := by
  unfold State.noBytes
  split
  · exact inv_congr h rfl
  · exact h

theorem inv_loadStringFrom {s : State} (h : Inv s) (w : Word) (rd : Reg) (ea : Word) (n : Nat) :
    OnNext Inv (s.loadStringFrom w rd ea n) :=
  inv_withAlignment h _ _ _ _ _ _ fun _ ht =>
    inv_finishAccess _ _ _ _ _ (inv_of_loaded (inv_noBytes ht rd n) (loadString_eq rd ea n 0 _))

theorem inv_storeStringTo {s : State} (h : Inv s) (w : Word) (rs : Reg) (ea : Word) (n : Nat) :
    OnNext Inv (s.storeStringTo w rs ea n) :=
  inv_withAlignment h _ _ _ _ _ _ fun t ht =>
    have ⟨hstored, hwf⟩ := storeString_eq rs ea n 0 t
    inv_finishAccess _ _ _ _ _ (inv_of_stored ht hstored (hwf ht.mem ht.stored))

theorem inv_execLmw {s : State} (h : Inv s) (rd ra : Reg) (d : BitVec 16) : OnNext Inv (execLmw rd ra d s) := by
  unfold execLmw
  split
  · exact onNext_refused _ _
  · exact inv_withAlignment h _ _ _ _ _ _ fun _ ht =>
      inv_finishAccess _ _ _ _ _ (inv_of_loaded ht (loadWords_eq _ _ _))

theorem inv_execStmw {s : State} (h : Inv s) (rs ra : Reg) (d : BitVec 16) : OnNext Inv (execStmw rs ra d s) :=
  inv_withAlignment h _ _ _ _ _ _ fun t ht =>
    have ⟨hstored, hwf⟩ := storeWords_eq (registersFrom rs) (s.displacedAddress ra d) t
    inv_finishAccess _ _ _ _ _ (inv_of_stored ht hstored (hwf ht.mem ht.stored))

theorem inv_execLswi {s : State} (h : Inv s) (rd ra : Reg) (nb : BitVec 5) : OnNext Inv (execLswi rd ra nb s) := by
  unfold execLswi
  split
  · exact onNext_refused _ _
  · exact inv_loadStringFrom h _ _ _ _

theorem inv_execLswx {s : State} (h : Inv s) (rd ra rb : Reg) : OnNext Inv (execLswx rd ra rb s) := by
  unfold execLswx
  extract_lets n
  split
  · exact onNext_refused _ _
  · exact inv_loadStringFrom h _ _ _ _

theorem inv_moveToFpscr {s : State} (h : Inv s) (w : Word) (rc : Bool) (f : Word) : Inv (s.moveToFpscr w rc f) := by
  unfold State.moveToFpscr
  split
  · exact inv_completeFp (coherent_advance (coherent_setFpscr h.coherent f rc)) _ _ _
  · exact inv_fpUnavailable h

/-- `mtfsb0` ends without looking for the enabled condition: it cannot make one (44 R125). -/
theorem inv_execMtfsb0 {s : State} (h : Inv s) (crbd : BitVec 5) (rc : Bool) : OnNext Inv (execMtfsb0 crbd rc s) := by
  unfold execMtfsb0
  split
  · have hf : (s.setFpscr (fpscrClearBit s.fpscr crbd.toNat) rc).fpEnabledCondition = false := by
      obtain ⟨c, e⟩ := setFpscr_eq s (fpscrClearBit s.fpscr crbd.toNat) rc
      rw [e, State.fpEnabledCondition, Bool.and_eq_false_iff]
      exact (Bool.and_eq_false_iff.mp h.fpEnabled).imp_right (fpscrFEX_fpscrClearBit _ _ h.fpscr)
    have hs := (inv_iff_coherent _).mpr ⟨coherent_setFpscr h.coherent _ rc, hf⟩
    exact onNext_of (inv_retire (inv_advance hs) _ _)
  · exact onNext_of (inv_fpUnavailable h)

/-- Every instruction keeps the invariant. -/
theorem inv_exec {s : State} (h : Inv s) (i : Instr) : OnNext Inv (exec i s) := by
  cases i with
  | twi cond ra simm => exact onNext_of (inv_trapOn h _ _ _ _)
  | sc => exact onNext_of (inv_takeException h _ _ _ _)
  | rfi => exact inv_execRfi h
  | tw cond ra rb => exact onNext_of (inv_trapOn h _ _ _ _)
  | lwarx rd ra rb => exact inv_withAlignment h _ _ _ _ _ _ fun _ ht => inv_loadReserved ht _ _ _ _
  | mfmsr rd => exact inv_execMfmsr h rd
  | mtmsr rs => exact inv_execMtmsr h rs
  | stwcx rs ra rb =>
    have hskip : Inv (s.skip 1) := inv_congr h rfl
    exact inv_withAlignment hskip _ _ _ _ _ _ fun _ ht => inv_storeConditional ht _ _ _ _ _
  | eciwx rd ra rb => exact inv_externalControl h _ _ _ _ fun _ _ ht => inv_congr ht rfl
  | mfspr rd spr => exact inv_execMfspr h rd spr
  | ecowx rs ra rb => exact inv_externalControl h _ _ _ _ fun _ _ ht => inv_congr ht rfl
  | mtspr spr rs => exact inv_execMtspr h spr rs
  | lswx rd ra rb => exact inv_execLswx h rd ra rb
  | lswi rd ra nb => exact inv_execLswi h rd ra nb
  | stswx rs ra rb => exact inv_storeStringTo h _ _ _ _
  | stswi rs ra nb => exact inv_storeStringTo h _ _ _ _
  | lmw rd ra d => exact inv_execLmw h rd ra d
  | stmw rs ra d => exact inv_execStmw h rs ra d
  | mtfsb1 crbd rc => exact onNext_of (inv_moveToFpscr h _ _ _)
  | mtfsb0 crbd rc => exact inv_execMtfsb0 h crbd rc
  | mtfsfi crfd imm rc => exact onNext_of (inv_moveToFpscr h _ _ _)
  | mtfsf fm frb rc => exact onNext_of (inv_moveToFpscr h _ _ _)

/-! ### Words of no row keep the invariant -/

theorem inv_completeExec {t : State} (h : Inv t) (m w : Word) (e : FpEffect) : Inv (t.completeExec m w e) := by
  unfold State.completeExec
  split
  · exact inv_takeException h _ _ _ _
  · exact inv_completeFp (coherent_advance (coherent_applyFp h.coherent e)) _ _ _

theorem inv_fpOperate {t : State} (h : Inv t) (m w : Word) : OnNext Inv (t.fpOperate m w) := by
  unfold State.fpOperate
  split
  · exact onNext_refused _ _
  · exact onNext_of (inv_completeExec h _ _ _)

theorem inv_fpLoad {t : State} (h : Inv t) (m w ea : Word) (n : Nat) : OnNext Inv (t.fpLoad m w ea n) := by
  unfold State.fpLoad
  split
  · exact onNext_of (inv_accessException h _ _ _)
  · split
    · exact onNext_refused _ _
    · exact onNext_of (inv_completeExec (inv_afterAccess h) _ _ _)

theorem inv_fpStore {t : State} (h : Inv t) (m w ea : Word) (n : Nat) : OnNext Inv (t.fpStore m w ea n) := by
  unfold State.fpStore
  split
  · exact onNext_of (inv_accessException h _ _ _)
  · next as hp =>
    split
    · exact onNext_refused _ _
    · next e _ =>
      split
      · exact onNext_of (inv_takeException h _ _ _ _)
      · have hs := inv_storeBytes h as (t.orderBytes (e.operand.toList.take n))
          fun a ha => ((physBytes_ok t .store ea n as hp).2 a ha).1
        exact onNext_of
          (inv_completeFp (coherent_advance (coherent_applyFp (inv_afterAccess hs).coherent e)) _ _ _)

theorem inv_execFloating {s : State} (h : Inv s) (w : Word) : OnNext Inv (s.execFloating w) := by
  unfold State.execFloating
  split
  · exact inv_withAlignment h _ _ _ _ _ _ fun _ ht => inv_fpLoad ht _ _ _ _
  · split
    · exact inv_withAlignment h _ _ _ _ _ _ fun _ ht => inv_fpStore ht _ _ _ _
    · exact inv_fpOperate h _ _

theorem inv_execBranch {s : State} (h : Inv s) (w : Word) : OnNext Inv (s.execBranch w) := by
  unfold State.execBranch
  split
  · exact onNext_refused _ _
  · next e _ =>
    have hb : Inv { s with pc := e.target &&& ~~~0x00000003, lr := e.lr, ctr := e.ctr } :=
      ⟨h.mem, h.implSprs, h.stored, clear_and_three e.target, h.msr, h.fpscr, h.fpEnabled⟩
    exact onNext_of (inv_retire hb _ _)

theorem inv_execUnlisted {s : State} (h : Inv s) (w : Word) : OnNext Inv (s.execUnlisted w) := by
  unfold State.execUnlisted
  split_ifs
  · exact onNext_of (inv_program h _ _)
  · exact onNext_of (inv_program h _ _)
  · exact onNext_of (inv_fpUnavailable h)
  · exact onNext_of (inv_retire (inv_advance h) _ _)
  · exact inv_execFloating h w
  · exact inv_execBranch h w
  · exact onNext_refused _ _

/-! ### The step keeps the invariant -/

theorem inv_runDecoded {s : State} (h : Inv s) (w : Word) : OnNext Inv (s.runDecoded w) := by
  unfold State.runDecoded
  split
  · exact inv_exec h _
  · next e _ =>
    cases e with
    | noRow => exact inv_execUnlisted h w
    | reservedField mnemonic => exact onNext_refused _ _
    | tooShort => exact onNext_refused _ _

theorem inv_run {s : State} (h : Inv s) (w : Word) : OnNext Inv (s.run w) := by
  obtain ⟨⟨d, hd⟩, -⟩ := raisedVector_cases w s.params.implVectors s
  have ht : Inv (State.raisedVector w s.params.implVectors s).2 := hd ▸ inv_congr h rfl
  unfold State.run
  split
  · exact onNext_of (inv_program h _ _)
  · split
    · next e =>
      rw [e] at ht
      exact onNext_of (inv_of_entered ht.coherent (implementationException_entered _ _))
    · next e =>
      rw [e] at ht
      exact inv_runDecoded ht w

/-- A fetch that gives no word ends the step with an exception, with checkstop or with a refusal. -/
theorem inv_fetch_error {s : State} (h : Inv s) (o : Host.Outcome State Fault Refusal) (e : s.fetch = .error o) :
    OnNext Inv o := by
  unfold State.fetch at e
  split at e
  · cases e
    exact onNext_of (inv_accessMachineCheck h)
  · cases e
    exact onNext_of (inv_takeException h _ _ _ _)
  · split at e
    · cases e
      exact onNext_refused _ _
    · cases e

theorem inv_fetchAndRun {s : State} (h : Inv s) : OnNext Inv s.fetchAndRun := by
  unfold State.fetchAndRun
  split
  · next o e => exact inv_fetch_error h o e
  · exact inv_run (inv_of_disturbed h (afterFetch_eq s)) _

/-- An exception taken at the boundary is an entry, or the checkstop state, after its condition is no longer pending. -/
theorem inv_boundary {s t : State} (h : Inv s) (e : s.boundary = some t) : Inv t := by
  unfold State.boundary at e
  split_ifs at e <;> cases e
  · refine inv_takeException ?_ _ _ _ _
    exact inv_congr h rfl
  · refine inv_machineCheck ?_ _
    exact inv_congr h rfl
  · exact inv_takeException h _ _ _ _
  · refine inv_takeException ?_ _ _ _ _
    exact inv_congr h rfl

theorem inv_waitForInput {s : State} (h : Inv s) : OnNext Inv s.waitForInput := by
  unfold State.waitForInput
  split
  · exact onNext_refused _ _
  · exact onNext_of h

theorem inv_stepBoundary {s : State} (h : Inv s) : OnNext Inv s.stepBoundary := by
  unfold State.stepBoundary
  split
  · next t e => exact onNext_of (inv_boundary h e)
  · split
    · exact inv_waitForInput h
    · exact inv_fetchAndRun h

theorem inv_occur {s : State} (h : Inv s) (e : EnvEvent) : Inv (s.occur e) := by
  cases e with
  | _ => exact inv_congr h rfl

theorem inv_deliver {s : State} (h : Inv s) : Inv s.deliver := by
  unfold State.deliver
  split
  · exact h
  · next batch rest _ =>
    have hrest : Inv { s with inputs := rest } := inv_congr h rfl
    exact List.foldlRecOn batch State.occur hrest fun _ ht e _ => inv_occur ht e

theorem inv_step {s : State} (h : Inv s) : OnNext Inv (step s) := by
  unfold step
  split
  · exact onNext_fault _ _
  · exact inv_stepBoundary (inv_deliver h)

/-! ### The power-on state -/

theorem inv_powerOn (p : Params) (hpc : p.resetPc &&& 0x00000003 = 0) (hmsr : p.resetMsr &&& reservedBits p = 0) :
    Inv (State.powerOn p) where
  mem := Memory.wf_reset
  implSprs := ⟨List.Pairwise.nil, fun _ h => by cases h⟩
  stored := ⟨List.Pairwise.nil, fun _ h => by cases h⟩
  pc := hpc
  msr := hmsr
  fpscr := (by decide : fpscrRecompute 0 = 0)
  fpEnabled := by
    have hfex : fpscrFEX (State.powerOn p).fpscr = false := (by decide : fpscrFEX 0 = false)
    rw [State.fpEnabledCondition, hfex, Bool.and_false]

/-! ### Reserved MSR bits -/

theorem execMtmsr_reserved (s : State) (rs : Reg) (hpr : msrPR s.msr = false)
    (hr : s.readGpr rs &&& reservedBits s.params ≠ 0) : execMtmsr rs s = .refused .reservedMsrBit := by
  rw [execMtmsr, if_neg (Bool.eq_false_iff.mp hpr), if_pos hr]

theorem execRfi_reserved (s : State) (hpr : msrPR s.msr = false) (hd : s.savedContextUndefined = false)
    (hr : s.srr1 &&& msrSaved &&& reservedBits s.params ≠ 0) : execRfi s = .refused .reservedMsrBit := by
  rw [execRfi, if_neg (Bool.eq_false_iff.mp hpr), if_neg (Bool.eq_false_iff.mp hd), if_pos hr]

/-! ### The special-purpose register numbers -/

theorem sprOf_isSome_iff (n : BitVec 10) : (sprOf n).isSome = true ↔ ∃ e ∈ sprTable, e.1 = n.toNat := by
  rw [sprOf, Option.isSome_map, List.find?_isSome]
  simp only [beq_iff_eq]

/-- In the table of R39, spr[0] is 0 exactly for XER, LR and CTR. -/
theorem sprTable_supervisor : ∀ e ∈ sprTable, e.1 / 16 % 2 = 1 ↔ e.2 ∉ [Spr.xer, .lr, .ctr] := by decide

theorem sprSupervisor_of_sprOf (n : BitVec 10) (r : Spr) (h : sprOf n = some r) :
    sprSupervisor n = true ↔ r ∉ [Spr.xer, .lr, .ctr] :=
  (sprSupervisor_iff n).trans (sprTable_supervisor (n.toNat, r) (sprOf_mem n r h))

theorem sprListed_iff (l : List (Nat × Nat)) (n : BitVec 10) :
    sprListed l n = true ↔ ∃ c ∈ l, ∃ i < c.2, n.toNat = c.1 + i := by
  simp only [sprListed, List.any_eq_true, decide_eq_true_eq]
  refine exists_congr fun c => and_congr_right fun _ => ⟨fun ⟨hle, hlt⟩ => ⟨n.toNat - c.1, by omega, by omega⟩, ?_⟩
  rintro ⟨i, hi, e⟩
  omega

/-- Ranges that hold exactly the numbers of the table of R39 but for `out`, checked range by range and entry by entry. -/
theorem sprListed_iff_of_table (l : List (Nat × Nat)) (out : List Nat)
    (hl : ∀ c ∈ l, ∀ i < c.2, (∃ e ∈ sprTable, e.1 = c.1 + i) ∧ c.1 + i ∉ out)
    (ht : ∀ e ∈ sprTable, e.1 ∉ out → ∃ c ∈ l, ∃ i < c.2, e.1 = c.1 + i) (n : BitVec 10) :
    sprListed l n = true ↔ (sprOf n).isSome = true ∧ n.toNat ∉ out := by
  rw [sprListed_iff, sprOf_isSome_iff]
  constructor
  · rintro ⟨c, hc, i, hi, hn⟩
    rw [hn]
    exact hl c hc i hi
  · rintro ⟨⟨e, he, hn⟩, hout⟩
    rw [← hn] at hout ⊢
    exact ht e he hout

/-- The default `ReadableSPR` is the table of R39 but for TBL and TBU. -/
theorem sprListed_readable_default (n : BitVec 10) :
    sprListed Params.default.readableSprs n = true ↔ (sprOf n).isSome = true ∧ ¬(n = 284 ∨ n = 285) := by
  rw [sprListed_iff_of_table _ [284, 285] (by decide) (by decide), ← BitVec.toNat_inj, ← BitVec.toNat_inj]
  simp

/-- The default `WritableSPR` is the table of R39 but for PVR. -/
theorem sprListed_writable_default (n : BitVec 10) :
    sprListed Params.default.writableSprs n = true ↔ (sprOf n).isSome = true ∧ ¬n = 287 := by
  rw [sprListed_iff_of_table _ [287] (by decide) (by decide), ← BitVec.toNat_inj]
  simp

/-- A set of numbers that is the table of R39 but for some names the registers of R39 but for those. -/
theorem ite_sprListed_eq (l : List (Nat × Nat)) (n : BitVec 10) (out : Prop) [Decidable out]
    (h : sprListed l n = true ↔ (sprOf n).isSome = true ∧ ¬out) :
    (if sprListed l n then some (sprAt n) else none) = if out then none else sprOf n := by
  cases e : sprOf n with
  | none => simp [h, e]
  | some r => simp [h, e, sprAt]

/-- A number names the register of R39, or where R39 has none a register of its own. -/
theorem sprAt_cases (n : BitVec 10) : sprOf n = some (sprAt n) ∨ (sprOf n = none ∧ sprAt n = .impl n) := by
  cases e : sprOf n with
  | none => exact .inr ⟨rfl, by rw [sprAt, e, Option.getD_none]⟩
  | some r => exact .inl (by rw [sprAt, e, Option.getD_some])

theorem readableSpr_eq_some (p : Params) (n : BitVec 10) (r : Spr) (h : readableSpr p n = some r) : r = sprAt n :=
  (Option.some.inj (Option.ite_none_right_eq_some.mp h).2).symm

theorem writableSpr_eq_some (p : Params) (n : BitVec 10) (r : Spr) (h : writableSpr p n = some r) : r = sprAt n :=
  (Option.some.inj (Option.ite_none_right_eq_some.mp h).2).symm

end Sys2Proof.Machine

namespace Sys2Proof.Proofs

open Sys2Proof.Machine

/-- Settles O12: the environment's events, an exception at the boundary and every path of running a word keep the
invariant (`inv_deliver`, `inv_boundary`, `inv_run`). -/
theorem stepKeepsTheInvariant : Obligations.StepKeepsTheInvariant := fun _ t h e => inv_step h t e

/-- Settles O31: the listed numbers by evaluation of the table, the rest by the lemmas on `sprOf` and `sprAt`. -/
theorem sprNumbers : Obligations.SprNumbers := by
  refine ⟨by decide, by decide, by decide, sprSupervisor_of_sprOf, fun n => ⟨?_, ?_⟩, fun p n r h => ?_⟩
  · exact ite_sprListed_eq _ n _ (sprListed_readable_default n)
  · exact ite_sprListed_eq _ n _ (sprListed_writable_default n)
  · have hr : r = sprAt n := h.elim (readableSpr_eq_some p n r) (writableSpr_eq_some p n r)
    exact hr ▸ sprAt_cases n

/-- Settles O11: the default parameters meet the two conditions on a power-on state. -/
theorem resetSatisfiesTheInvariant : Obligations.ResetSatisfiesTheInvariant :=
  ⟨inv_powerOn Params.default (by decide) (by decide), inv_powerOn⟩

/-- Settles O28: at supervisor level the reserved bits are looked at before anything is written. -/
theorem reservedMsrBitsAreRefused : Obligations.ReservedMsrBitsAreRefused :=
  fun s rs hpr => ⟨execMtmsr_reserved s rs hpr, execRfi_reserved s hpr⟩

end Sys2Proof.Proofs

/-! SUPPORT. What an exception entry leaves, as the statements say it (`TookException`), then words in memory, the
vector addresses, and accesses that an alignment condition stops. -/

namespace Sys2Proof.Machine

/-! ### Exception entry (60_exceptions.md R158, R161) -/

/-- A mask that meets no bit of `k` meets no bit of a selection under `k`. -/
theorem and_mask_eq_zero (a k m : Word) (h : k &&& m = 0) : a &&& k &&& m = 0 := by
  rw [BitVec.and_assoc, h]
  exact BitVec.and_zero

/-- The implementation's choice of extra bits stays within the unassigned ones. -/
theorem unassigned_and_eq_zero (a k m : Word) (h : unassignedMask &&& m = 0) :
    a &&& (k &&& unassignedMask) &&& m = 0 := by
  rw [← BitVec.and_assoc]
  exact and_mask_eq_zero _ _ m h

theorem free_and_eq_zero (a k m : Word) (h : unassignedMask &&& m = 0) : a &&& (unassignedMask &&& k) &&& m = 0 := by
  rw [BitVec.and_comm unassignedMask k]
  exact unassigned_and_eq_zero a k m h

/-- Under a mask that meets no unassigned bit, SRR1 holds the information and the saved MSR bits. -/
theorem savedStatus_and (p : Params) (m info draw k : Word) (h : unassignedMask &&& k = 0) :
    savedStatus p m info draw &&& k = (info &&& infoMask &&& k) ||| (m &&& msrSaved &&& k) := by
  simp only [savedStatus, BitVec.and_or_distrib_right, unassigned_and_eq_zero _ _ k h, free_and_eq_zero _ _ k h]
  exact BitVec.or_zero.trans BitVec.or_zero

theorem savedStatus_info (p : Params) (m info draw : Word) :
    savedStatus p m info draw &&& 0x783F0000 = info &&& 0x783F0000 := by
  rw [savedStatus_and p m info draw _ (by decide), and_mask_eq_zero m msrSaved _ (by decide), BitVec.and_assoc]
  exact BitVec.or_zero

theorem savedStatus_saved (p : Params) (m info draw : Word) :
    savedStatus p m info draw &&& 0x0000FF73 = m &&& 0x0000FF73 := by
  rw [savedStatus_and p m info draw _ (by decide), and_mask_eq_zero info infoMask _ (by decide), BitVec.and_assoc]
  exact BitVec.zero_or

/-- The defined MSR bits after an entry (60_exceptions.md R158). -/
theorem newMsr_defined (p : Params) (T : ExcType) (m : Word) :
    newMsr p T m &&& 0x0005FF73 =
      (m &&& (if T = .machineCheck ∧ p.mcClearsMe = true then 0x00010040 else 0x00011040)) |||
        (if msrILE m then 0x00000001 else 0) := by
  have hle : (if msrILE m then 0x00000001 else 0 : Word) &&& 0x0005FF73 = if msrILE m then 0x00000001 else 0 := by
    split <;> decide
  simp only [newMsr, BitVec.and_or_distrib_right, hle, BitVec.and_assoc]
  split <;> rfl

/-- An entry does not alter the reserved MSR bits (10_state.md R11). -/
theorem newMsr_reserved (p : Params) (T : ExcType) (m : Word) : newMsr p T m &&& 0xFFFA008C = m &&& 0xFFFA008C := by
  have hle : (if msrILE m then 0x00000001 else 0 : Word) &&& 0xFFFA008C = 0 := by split <;> decide
  simp only [newMsr, BitVec.and_or_distrib_right, hle, BitVec.and_assoc]
  split <;> exact BitVec.or_zero

theorem takeException_took (s : State) (T : ExcType) (a info : Word) :
    TookException s (s.takeException T a info false) T a (info &&& 0x783F0000) where
  srr0 := rfl
  info := savedStatus_info s.params s.msr info _
  saved := savedStatus_saved s.params s.msr info _
  msr := newMsr_defined s.params T s.msr
  reserved := newMsr_reserved s.params T s.msr
  pc := rfl
  frame := rfl

/-- How many free values were drawn before an entry is not part of what the entry is said to leave. -/
theorem TookException.of_draws {s t : State} {T : ExcType} {a info : Word} {d : Nat}
    (h : TookException { s with draws := d } t T a info) : TookException s t T a info :=
  ⟨h.srr0, h.info, h.saved, h.msr, h.reserved, h.pc, h.frame⟩

theorem TookAccessException.of_draws {s t : State} {T : ExcType} {ea : Word} {n d : Nat}
    (h : TookAccessException { s with draws := d } t T ea n) : TookAccessException s t T ea n :=
  ⟨TookException.of_draws h.1, h.2⟩

/-! ### A word in memory (20_memory.md R41) -/

theorem wordOfBytes_bigEndian (b0 b1 b2 b3 : Byte) : wordOfBytes false [b0, b1, b2, b3] = b0 ++ b1 ++ b2 ++ b3 := by
  refine BitVec.eq_of_getLsbD_eq fun i hi => ?_
  simp only [wordOfBytes, Bool.false_eq_true, if_false, List.foldl, BitVec.getLsbD_or, BitVec.getLsbD_shiftLeft,
    BitVec.getLsbD_setWidth, BitVec.getLsbD_append]
  interval_cases i <;> simp

/-- Little-endian order is big-endian order of the bytes reversed. -/
theorem wordOfBytes_littleEndian (bs : List Byte) : wordOfBytes true bs = wordOfBytes false bs.reverse := rfl

/-! ### Vector addresses (60_exceptions.md R130, R144, R150) -/

theorem implementation_offset (page : BitVec 6) :
    (ExcType.implementation page).offset = BitVec.ofNat 32 (0x100 * page.toNat) := by
  refine BitVec.eq_of_toNat_eq ?_
  simp [ExcType.offset, Nat.shiftLeft_eq, Nat.mul_comm]

theorem atImplementationOffset_iff (v : ImplVector) :
    v.atImplementationOffset = true ↔ v.page.toNat = 0x0A ∨ (0x10 ≤ v.page.toNat ∧ v.page.toNat ≤ 0x2F) := by
  rw [ImplVector.atImplementationOffset, Bool.or_eq_true, beq_iff_eq, decide_eq_true_eq, ← BitVec.toNat_inj]
  rfl

/-- The implementation's exception is taken with a free SRR0 and free information (notes/assumptions/25.md). -/
theorem implementationException_took (s : State) (page : BitVec 6) :
    ∃ a info, TookException s (s.implementationException page) (.implementation page) a info :=
  ⟨_, _, (takeException_took (s.skip 2) (.implementation page) (s.drawn 0) (s.drawn 1)).of_draws⟩

/-- A word that raises an exception type of the implementation has no other effect (notes/assumptions/25.md). -/
theorem run_of_raised (s t : State) (w : Word) (page : BitVec 6) (h : wordIn s.params.illegal w = false)
    (hraised : State.raisedVector w s.params.implVectors s = (some page, t)) :
    s.run w = .next (t.implementationException page) := by
  rw [State.run, if_neg (Bool.eq_false_iff.mp h), hraised]

theorem run_of_notRaised (s t : State) (w : Word) (h : wordIn s.params.illegal w = false)
    (hnone : State.raisedVector w s.params.implVectors s = (none, t)) : s.run w = t.runDecoded w := by
  rw [State.run, if_neg (Bool.eq_false_iff.mp h), hnone]

/-! ### An access that an alignment condition stops (20_memory.md R50) -/

/-- The alignment exception of the instruction at pc is what the execution comes to, its operand the `n` bytes
at `ea`. -/
def TakesAlignment (s : State) (ea : Word) (n : Nat) (o : Host.Outcome State Fault Refusal) : Prop :=
  ∃ t, o = .next t ∧ TookAccessException s t .alignment ea n

/-- DAR's free value stays within the operand. -/
theorem inOperand_mod (ea v : Word) (n : Nat) (h0 : n ≠ 0) (hn : n < 2 ^ 32) :
    inOperand ea n (ea + v % BitVec.ofNat 32 n).toNat := by
  refine ⟨(v % BitVec.ofNat 32 n).toNat, ?_, by rw [BitVec.ofNat_toNat, BitVec.setWidth_eq]⟩
  rw [BitVec.toNat_umod, BitVec.toNat_ofNat, Nat.mod_eq_of_lt hn]
  exact Nat.mod_lt _ (Nat.pos_of_ne_zero h0)

theorem alignment_took (s : State) (ea : Word) (n : Nat) (h0 : n ≠ 0) (hn : n < 2 ^ 32) :
    TookAccessException s (s.alignment ea n) .alignment ea n :=
  ⟨(takeException_took (s.faultRegisters ea n) .alignment s.pc 0).of_draws (s := { s with
      dar := (s.faultRegisters ea n).dar, dsisr := (s.faultRegisters ea n).dsisr }),
    inOperand_mod ea _ n h0 hn⟩

/-- One condition that always traps is enough, whatever is done under those before it. -/
theorem alignCheck_traps (cs : List AlignCause) (c : AlignCause) (s : State) (hc : c ∈ cs)
    (ht : alignPolicy s.params.align c = .trap) : ∃ d, State.alignCheck cs s = (true, { s with draws := d }) := by
  induction cs generalizing s with
  | nil => cases hc
  | cons e cs ih =>
    have later (hp : alignPolicy s.params.align e ≠ .trap) : c ∈ cs := by
      rcases List.mem_cons.mp hc with rfl | h
      · exact absurd ht hp
      · exact h
    unfold State.alignCheck
    split
    · exact ⟨s.draws, rfl⟩
    · next hp => exact ih s (later (by simp [hp])) ht
    · next hp =>
      split
      · exact ⟨_, rfl⟩
      · exact ih (s.skip 1) (later (by simp [hp])) ht

/-- An access to a reachable operand under a condition that always traps is stopped before it is begun. -/
theorem withAlignment_traps (s : State) (cs : List AlignCause) (c : AlignCause) (k : AccessKind) (ea : Word)
    (scan n : Nat) (perform : State → Host.Outcome State Fault Refusal) (hk : k ≠ .fetch) (hc : c ∈ cs)
    (ht : alignPolicy s.params.align c = .trap) (hr : s.reaches ea scan) (h0 : n ≠ 0) (hn : n < 2 ^ 32) :
    TakesAlignment s ea n (s.withAlignment cs k ea scan n perform) := by
  obtain ⟨d, hd⟩ := alignCheck_traps cs c s hc ht
  have hp := physBytes_reaches { s with draws := d } k hk ea scan hr
  refine ⟨({ s with draws := d } : State).alignment ea n, ?_, (alignment_took _ ea n h0 hn).of_draws⟩
  rw [State.withAlignment, hd]
  simp only [State.alignmentOr, hp]

theorem TakesAlignment.of_draws {s : State} {ea : Word} {n d : Nat} {o : Host.Outcome State Fault Refusal}
    (h : TakesAlignment { s with draws := d } ea n o) : TakesAlignment s ea n o := by
  obtain ⟨t, e, ht⟩ := h
  exact ⟨t, e, ht.of_draws⟩

theorem mem_littleEndianCauses (s : State) (h : msrLE s.msr = true) : AlignCause.a3 ∈ s.littleEndianCauses := by
  simp [State.littleEndianCauses, h]

theorem mem_wordCauses (ea : Word) (h : ea.toNat % 4 ≠ 0) : AlignCause.a2 ∈ wordCauses ea := by
  simp [wordCauses, (misaligned_iff ea).mpr h]

/-! ### The multiple and string instructions under such a condition (42_load_store_multiple_and_string.md) -/

/-- The operand of `lmw` or `stmw` is neither empty nor as large as the address space. -/
theorem multipleSize_bounds (r : Reg) : 4 * (32 - r.toNat) ≠ 0 ∧ 4 * (32 - r.toNat) < 2 ^ 32 := by
  have := r.isLt
  omega

theorem execLmw_traps (s : State) (c : AlignCause) (rd ra : Reg) (d : BitVec 16) (hf : ra.toNat < rd.toNat)
    (hc : c ∈ s.multipleCauses (s.displacedAddress ra d) (4 * (32 - rd.toNat)))
    (ht : alignPolicy s.params.align c = .trap) (hr : s.reaches (s.displacedAddress ra d) (4 * (32 - rd.toNat))) :
    TakesAlignment s (s.displacedAddress ra d) (4 * (32 - rd.toNat)) (execLmw rd ra d s) := by
  rw [execLmw, if_neg (Nat.not_le.mpr hf)]
  exact withAlignment_traps s _ c .load _ _ _ _ (by decide) hc ht hr (multipleSize_bounds rd).1
    (multipleSize_bounds rd).2

theorem execStmw_traps (s : State) (c : AlignCause) (rs ra : Reg) (d : BitVec 16)
    (hc : c ∈ s.multipleCauses (s.displacedAddress ra d) (4 * (32 - rs.toNat)))
    (ht : alignPolicy s.params.align c = .trap) (hr : s.reaches (s.displacedAddress ra d) (4 * (32 - rs.toNat))) :
    TakesAlignment s (s.displacedAddress ra d) (4 * (32 - rs.toNat)) (execStmw rs ra d s) :=
  withAlignment_traps s _ c .store _ _ _ _ (by decide) hc ht hr (multipleSize_bounds rs).1
    (multipleSize_bounds rs).2

theorem byteCount_eq (s : State) : s.byteCount = s.xer.toNat % 128 := by
  simp [State.byteCount]

theorem immediateCount_lt (nb : BitVec 5) : immediateCount nb < 2 ^ 32 := by
  have := nb.isLt
  unfold immediateCount
  split <;> omega

section LittleEndianStrings

variable (s : State) (w : Word) (r : Reg) (ea : Word) (n : Nat) (hle : msrLE s.msr = true)
  (ht : s.params.align.a3 = .trap) (hr : s.reaches ea n) (h0 : n ≠ 0) (hn : n < 2 ^ 32)
include hle ht hr h0 hn

theorem loadStringFrom_traps : TakesAlignment s ea n (s.loadStringFrom w r ea n) :=
  withAlignment_traps s _ .a3 .load ea n n _ (by decide) (List.mem_append_left _ (mem_littleEndianCauses s hle)) ht hr
    h0 hn

theorem storeStringTo_traps : TakesAlignment s ea n (s.storeStringTo w r ea n) :=
  withAlignment_traps s _ .a3 .store ea n n _ (by decide) (List.mem_append_left _ (mem_littleEndianCauses s hle)) ht hr
    h0 hn

end LittleEndianStrings

theorem execLswi_valid (s : State) (rd ra : Reg) (nb : BitVec 5)
    (hf : loadedByString rd ra (immediateCount nb) = false) :
    execLswi rd ra nb s = s.loadStringFrom (encode (.lswi rd ra nb)) rd (s.regOrZero ra) (immediateCount nb) := by
  rw [execLswi, if_neg (Bool.eq_false_iff.mp hf)]

theorem execLswx_valid (s : State) (rd ra rb : Reg) (ha : rd ≠ ra) (hb : rd ≠ rb)
    (hfa : loadedByString rd ra s.byteCount = false) (hfb : loadedByString rd rb s.byteCount = false) :
    execLswx rd ra rb s =
      s.loadStringFrom (encode (.lswx rd ra rb)) rd (s.indexedAddress ra rb) s.byteCount := by
  simp [execLswx, ha, hb, hfa, hfb]

/-! ### The single-word instructions at a misaligned address (43_reservation_and_external_control.md) -/

section MisalignedWord

variable (s : State)

theorem execLwarx_misaligned (r ra rb : Reg) (hm : (s.indexedAddress ra rb).toNat % 4 ≠ 0)
    (ht : s.params.align.a2 = .trap) (hr : s.reaches (s.indexedAddress ra rb) 4) :
    TakesAlignment s (s.indexedAddress ra rb) 4 (execLwarx r ra rb s) :=
  withAlignment_traps s _ .a2 .load _ 4 4 _ (by decide) (List.mem_append_left _ (mem_wordCauses _ hm)) ht hr
    (by decide) (by decide)

/-- `stwcx.` meets the condition whether or not it would store; the operand it looks at is the word or nothing. -/
theorem execStwcx_misaligned (r ra rb : Reg) (hm : (s.indexedAddress ra rb).toNat % 4 ≠ 0)
    (ht : s.params.align.a2 = .trap) (hr : s.reaches (s.indexedAddress ra rb) 4) :
    TakesAlignment s (s.indexedAddress ra rb) 4 (execStwcx r ra rb s) := by
  have hscan (b : Bool) : (s.skip 1).reaches (s.indexedAddress ra rb) (if b then 4 else 0) :=
    ⟨hr.1, fun k hk => hr.2 k (by split at hk <;> omega)⟩
  exact (withAlignment_traps (s.skip 1) _ .a2 .store _ _ 4 _ (by decide)
    (List.mem_append_left _ (mem_wordCauses _ hm)) ht (hscan _) (by decide) (by decide)).of_draws

/-- `eciwx` and `ecowx`, where the implementation has them and EAR[E] = 1. -/
theorem externalControl_misaligned (w : Word) (k : AccessKind) (ea : Word) (act : State → Word → State)
    (hk : k ≠ .fetch) (hnop : wordIn s.params.optionalNop w = false) (habs : wordIn s.params.optionalAbsent w = false)
    (hear : s.ear.getMsbD 0 = true) (hm : ea.toNat % 4 ≠ 0) (ht : s.params.align.a2 = .trap) (hr : s.reaches ea 4) :
    TakesAlignment s ea 4 (s.externalControl w k ea act) := by
  have he : ¬(!s.externalEnabled) = true := by simp [State.externalEnabled, hear]
  rw [State.externalControl, if_neg (Bool.eq_false_iff.mp hnop), if_neg (Bool.eq_false_iff.mp habs), if_neg he]
  exact withAlignment_traps s _ .a2 k ea 4 4 _ hk (List.mem_append_left _ (mem_wordCauses _ hm)) ht hr
    (by decide) (by decide)

end MisalignedWord

end Sys2Proof.Machine

namespace Sys2Proof.Proofs

open Sys2Proof.Machine

/-- Settles O15: the offsets by evaluation; what is raised comes from a member of `P_IMPL_VECTORS` at an
implementation's offset (`raisedVector_cases`). -/
theorem vectorAddresses : Obligations.VectorAddresses := by
  refine ⟨fun ip => ⟨by cases ip <;> rfl, fun page => ?_⟩, fun s w => ⟨fun h => by rw [h]; rfl, ?_⟩⟩
  · rw [vectorAddress, implementation_offset]
    rfl
  · obtain ⟨⟨d, hd⟩, hmember⟩ := raisedVector_cases w s.params.implVectors s
    rcases hv : State.raisedVector w s.params.implVectors s with ⟨raised, t⟩
    rw [hv] at hd hmember
    obtain rfl : t = { s with draws := d } := hd
    cases raised with
    | none => exact ⟨rfl, fun h => run_of_notRaised s _ w h hv⟩
    | some page =>
      obtain ⟨v, hmem, rfl, hoffset, hword⟩ := hmember page rfl
      obtain ⟨a, info, htook⟩ := implementationException_took { s with draws := d } v.page
      exact ⟨⟨v, hmem, rfl, hword⟩, (atImplementationOffset_iff v).mp hoffset,
        fun h => ⟨_, a, info, run_of_raised s _ w _ h hv, htook.of_draws⟩⟩

/-- Settles O42: A3 is the first condition of all six instructions. -/
theorem littleEndianMultiplesTrap : Obligations.LittleEndianMultiplesTrap := by
  intro s r ra rb d nb base nw ni nx hle ht p hp hlmw hlswi hlswx h0 hr
  have hmultiple : AlignCause.a3 ∈ s.multipleCauses (s.displacedAddress ra d) nw :=
    List.mem_append_left _ (List.mem_append_left _ (mem_littleEndianCauses s hle))
  have hnx : nx < 2 ^ 32 := (Nat.mod_lt _ (by decide)).trans (by decide : 128 < 2 ^ 32)
  simp only [List.mem_cons, List.not_mem_nil, or_false] at hp
  rcases hp with rfl | rfl | rfl | rfl | rfl | rfl
  · exact execLmw_traps s .a3 r ra d (hlmw.resolve_left (by simp)) hmultiple ht hr
  · exact execStmw_traps s .a3 r ra d hmultiple ht hr
  · change TakesAlignment s (s.regOrZero ra) ni (execLswi r ra nb s)
    rw [execLswi_valid s r ra nb (hlswi.resolve_left (by simp))]
    exact loadStringFrom_traps s _ r _ ni hle ht hr h0 (immediateCount_lt nb)
  · exact storeStringTo_traps s _ r _ ni hle ht hr h0 (immediateCount_lt nb)
  · obtain ⟨hra, hrb, hfa, hfb⟩ := hlswx.resolve_left (by simp)
    change TakesAlignment s (s.indexedAddress ra rb) nx (execLswx r ra rb s)
    rw [execLswx_valid s r ra rb hra hrb (byteCount_eq s ▸ hfa) (byteCount_eq s ▸ hfb), byteCount_eq]
    exact loadStringFrom_traps s _ r _ nx hle ht hr h0 hnx
  · change TakesAlignment s (s.indexedAddress ra rb) nx (execStswx r ra rb s)
    rw [execStswx, byteCount_eq]
    exact storeStringTo_traps s _ r _ nx hle ht hr h0 hnx

/-- Settles O43: A2 is a condition of all six instructions, behind A3 for `lmw` and `stmw`; `alignCheck_traps` passes
over whatever is done under A3. -/
theorem misalignedWordsTrap : Obligations.MisalignedWordsTrap := by
  intro s r ra rb d base nw ht p hp hlmw hexternal hm hr
  simp only [List.mem_cons, List.not_mem_nil, or_false] at hp
  have hmultiple (h : (s.displacedAddress ra d).toNat % 4 ≠ 0) :
      AlignCause.a2 ∈ s.multipleCauses (s.displacedAddress ra d) nw :=
    List.mem_append_left _ (List.mem_append_right _ (mem_wordCauses _ h))
  rcases hp with rfl | rfl | rfl | rfl | rfl | rfl
  · exact execLmw_traps s .a2 r ra d (hlmw.resolve_left (by simp)) (hmultiple hm) ht hr
  · exact execStmw_traps s .a2 r ra d (hmultiple hm) ht hr
  · exact execLwarx_misaligned s r ra rb hm ht hr
  · exact execStwcx_misaligned s r ra rb hm ht hr
  · obtain ⟨hnop, habs, hear⟩ := hexternal.resolve_left (by simp)
    exact externalControl_misaligned s _ .load _ _ (by decide) hnop habs hear hm ht hr
  · obtain ⟨hnop, habs, hear⟩ := hexternal.resolve_left (by simp)
    exact externalControl_misaligned s _ .store _ _ (by decide) hnop habs hear hm ht hr

/-- Settles O6: little-endian order is big-endian order of the bytes reversed. -/
theorem byteOrderOfAWord : Obligations.ByteOrderOfAWord := fun w le =>
  ⟨wordOfBytes_bytesOfWord w le, fun b0 b1 b2 b3 =>
    ⟨wordOfBytes_bigEndian b0 b1 b2 b3, (wordOfBytes_littleEndian _).trans (wordOfBytes_bigEndian b3 b2 b1 b0)⟩⟩

end Sys2Proof.Proofs

/-! SUPPORT. The encoding: fields side by side, the words each form holds, and the rows the decoder selects; then the
words that run outside the table, and the SPR fields an implementation does not have. -/

namespace Sys2Proof

/-! ### Fields of a word (30_encoding.md R60 to R66) -/

theorem append_inj {n m : Nat} {x x' : BitVec n} {y y' : BitVec m} : x ++ y = x' ++ y' ↔ x = x' ∧ y = y' := by
  refine ⟨fun h => ⟨?_, ?_⟩, fun ⟨hx, hy⟩ => by rw [hx, hy]⟩
  · simpa only [BitVec.extractLsb'_append_eq_left] using congrArg (BitVec.extractLsb' m n) h
  · simpa only [BitVec.extractLsb'_append_eq_right] using congrArg (BitVec.extractLsb' 0 m) h

/-- Two fields side by side are one field. -/
theorem field_append_field (w : Word) (b n m : Nat) (h : b + n + m ≤ 32) :
    field w b n ++ field w (b + n) m = field w b (n + m) := by
  rw [field, field, field, show 32 - b - (n + m) = 32 - (b + n) - m by omega]
  exact BitVec.extractLsb'_append_extractLsb'_eq_extractLsb' (by omega)

theorem field_eq_append_iff (w : Word) (b n m : Nat) (x : BitVec n) (y : BitVec m) (h : b + n + m ≤ 32) :
    field w b (n + m) = x ++ y ↔ field w b n = x ∧ field w (b + n) m = y := by
  rw [← field_append_field w b n m h, append_inj]

theorem field_eq_zero_iff (w : Word) (b n m : Nat) (h : b + n + m ≤ 32) :
    field w b (n + m) = 0 ↔ field w b n = 0 ∧ field w (b + n) m = 0 := by
  rw [← field_eq_append_iff w b n m _ _ h]
  exact BitVec.zero_append_zero.symm ▸ Iff.rfl

/-- A bit of a field, counted from the most significant as the word's bits are. -/
theorem getMsbD_field (w : Word) (b n i : Nat) (hi : i < n) (h : b + n ≤ 32) :
    (field w b n).getMsbD i = w.getMsbD (b + i) := by
  have hbit : 32 - b - n + (n - 1 - i) = 32 - 1 - (b + i) := by omega
  simp [field, BitVec.getMsbD_eq_getLsbD, hi, hbit, show n - 1 - i < n by omega, show b + i < 32 by omega]

theorem field_bit_eq_ofBool_iff (w : Word) (b : Nat) (c : Bool) (h : b < 32) :
    field w b 1 = BitVec.ofBool c ↔ w.getMsbD b = c := by
  have hbit : field w b 1 = BitVec.ofBool (w.getMsbD b) := by
    refine BitVec.eq_of_getMsbD_eq fun i hi => ?_
    obtain rfl : i = 0 := Nat.lt_one_iff.mp hi
    rw [getMsbD_field w b 1 0 hi h]
    cases w.getMsbD b <;> rfl
  rw [hbit, BitVec.ofBool_eq_iff_eq]

theorem field_bit_eq_zero_iff (w : Word) (b : Nat) (h : b < 32) : field w b 1 = 0 ↔ w.getMsbD b = false :=
  field_bit_eq_ofBool_iff w b false h

theorem rcBit_eq_getMsbD (w : Word) : rcBit w = w.getMsbD 31 := by
  simp [rcBit, BitVec.getMsbD_eq_getLsbD]

/-! ### A word is its fields (30_encoding.md R62 to R64, section 3) -/

theorem eq_whole_field (w v : Word) : w = v ↔ field w 0 32 = v := by
  rw [field, BitVec.extractLsb'_eq_self]

theorem eq_encodeX_iff (w : Word) (op : BitVec 6) (d a b : BitVec 5) (xo : BitVec 10) (rc : Bool) :
    w = encodeX op d a b xo rc ↔
      opcd w = op ∧ field w 6 5 = d ∧ field w 11 5 = a ∧ field w 16 5 = b ∧ extOpcd w = xo ∧ rcBit w = rc := by
  rw [eq_whole_field, encodeX, field_eq_append_iff w 0 31 1 _ _ (by decide),
    field_eq_append_iff w 0 21 10 _ _ (by decide), field_eq_append_iff w 0 16 5 _ _ (by decide),
    field_eq_append_iff w 0 11 5 _ _ (by decide), field_eq_append_iff w 0 6 5 _ _ (by decide),
    field_bit_eq_ofBool_iff w _ rc (by decide), ← rcBit_eq_getMsbD]
  simp only [and_assoc]
  rfl

theorem eq_encodeD_iff (w : Word) (op : BitVec 6) (d a : BitVec 5) (imm : BitVec 16) :
    w = encodeD op d a imm ↔ opcd w = op ∧ field w 6 5 = d ∧ field w 11 5 = a ∧ field w 16 16 = imm := by
  rw [eq_whole_field, encodeD, field_eq_append_iff w 0 16 16 _ _ (by decide),
    field_eq_append_iff w 0 11 5 _ _ (by decide), field_eq_append_iff w 0 6 5 _ _ (by decide)]
  simp only [and_assoc]
  rfl

theorem eq_encode_mtfsf_iff (w : Word) (fm : BitVec 8) (frb : Reg) (rc : Bool) :
    w = encode (.mtfsf fm frb rc) ↔
      opcd w = 63 ∧ field w 6 1 = 0 ∧ field w 7 8 = fm ∧ field w 15 1 = 0 ∧ field w 16 5 = frb ∧ extOpcd w = 711 ∧
        rcBit w = rc := by
  rw [eq_whole_field, encode, field_eq_append_iff w 0 31 1 _ _ (by decide),
    field_eq_append_iff w 0 21 10 _ _ (by decide), field_eq_append_iff w 0 16 5 _ _ (by decide),
    field_eq_append_iff w 0 15 1 _ _ (by decide), field_eq_append_iff w 0 7 8 _ _ (by decide),
    field_eq_append_iff w 0 6 1 _ _ (by decide), field_bit_eq_ofBool_iff w _ rc (by decide), ← rcBit_eq_getMsbD]
  simp only [and_assoc]
  rfl

/-- The reserved bits of `mtfsfi` split the fields crfD and IMM off the X-form's 5-bit fields. -/
theorem eq_encode_mtfsfi_iff (w : Word) (crfd : BitVec 3) (imm : BitVec 4) (rc : Bool) :
    w = encode (.mtfsfi crfd imm rc) ↔
      opcd w = 63 ∧ field w 6 3 = crfd ∧ field w 9 7 = 0 ∧ field w 16 4 = imm ∧ field w 20 1 = 0 ∧ extOpcd w = 134 ∧
        rcBit w = rc := by
  rw [encode, eq_encodeX_iff, field_eq_append_iff w 6 3 2 _ _ (by decide), field_eq_append_iff w 16 4 1 _ _ (by decide),
    field_eq_zero_iff w 9 2 5 (by decide)]
  simp only [and_assoc]

/-! ### The rows the decoder selects (30_encoding.md R61, R69) -/

@[simp] theorem decodeRow_true (m : String) (i : Instr) : decodeRow true m i = .ok i := rfl

@[simp] theorem decodeRow_false (m : String) (i : Instr) : decodeRow false m i = .error (.reservedField m) := rfl

theorem decodeRow_eq_ok_iff (ok : Bool) (m : String) (i j : Instr) : decodeRow ok m i = .ok j ↔ ok = true ∧ i = j := by
  cases ok <;> simp

theorem decodeRow_eq_reservedField_iff (ok : Bool) (m n : String) (i : Instr) :
    decodeRow ok m i = .error (.reservedField n) ↔ ok = false ∧ m = n := by
  cases ok <;> simp

/-- A table of rows decodes by the row at its head or by the rows after it. -/
theorem row_or_rest {c : Prop} [Decidable c] {ok : Bool} {m : String} {i j : Instr} {rest : Except DecodeError Instr}
    (h : (if c then decodeRow ok m i else rest) = .ok j) : (c ∧ ok = true ∧ i = j) ∨ rest = .ok j := by
  split at h
  · next hc => exact .inl ⟨hc, (decodeRow_eq_ok_iff ok m i j).mp h⟩
  · exact .inr h

theorem decodeWord_of_opcd_31 {w : Word} (h : opcd w = 31) : decodeWord w = decode31 w := by
  simp [decodeWord, h]

theorem decodeWord_of_opcd_63 {w : Word} (h : opcd w = 63) : decodeWord w = decode63 w := by
  simp [decodeWord, h]

theorem field_ab_eq_zero_iff (w : Word) : field w 11 10 = 0 ↔ field w 11 5 = 0 ∧ field w 16 5 = 0 :=
  field_eq_zero_iff w 11 5 5 (by decide)

@[simp] theorem field_ab_encodeX (op : BitVec 6) (d a b : BitVec 5) (xo : BitVec 10) (rc : Bool) :
    field (encodeX op d a b xo rc) 11 10 = a ++ b :=
  (field_eq_append_iff _ 11 5 5 a b (by decide)).mpr ⟨field_a_encodeX .., field_b_encodeX ..⟩

@[simp] theorem sprNumber_encodeX_halves (op : BitVec 6) (d : BitVec 5) (n xo : BitVec 10) (rc : Bool) :
    sprNumber (encodeX op d (n.extractLsb' 0 5) (n.extractLsb' 5 5) xo rc) = n := by
  rw [sprNumber, field_b_encodeX, field_a_encodeX,
    BitVec.extractLsb'_append_extractLsb'_eq_extractLsb' (by decide)]
  exact BitVec.extractLsb'_eq_self

@[simp] theorem sprNumber_low (w : Word) : (sprNumber w).extractLsb' 0 5 = field w 11 5 :=
  BitVec.extractLsb'_append_eq_right

@[simp] theorem sprNumber_high (w : Word) : (sprNumber w).extractLsb' 5 5 = field w 16 5 :=
  BitVec.extractLsb'_append_eq_left

theorem decodeWord_encode (i : Instr) : decodeWord (encode i) = .ok i := by
  cases i with
  | sc | rfi => rfl
  | twi | lmw | stmw => simp [encode, decodeWord]
  | mtfsb1 | mtfsb0 =>
    rw [decodeWord_of_opcd_63 (by simp [encode])]
    simp [encode, decode63]
  | mtfsfi crfd imm rc =>
    obtain ⟨hop, hcrfd, hlow, himm, hbit, hxo, hrc⟩ := (eq_encode_mtfsfi_iff _ crfd imm rc).mp rfl
    simp [decodeWord_of_opcd_63 hop, decode63, hxo, hlow, hbit, hcrfd, himm, hrc]
  | mtfsf fm frb rc =>
    obtain ⟨hop, hbit6, hfm, hbit15, hfrb, hxo, hrc⟩ := (eq_encode_mtfsf_iff _ fm frb rc).mp rfl
    simp [decodeWord_of_opcd_63 hop, decode63, hxo, hbit6, hbit15, hfm, hfrb, hrc]
  | _ =>
    rw [decodeWord_of_opcd_31 (by simp [encode])]
    simp [encode, decode31]

/-- Row by row: what the row of `i` fixes and what `i` carries are together every bit of the word. -/
theorem eq_encode_of_decode31 {w : Word} {i : Instr} (hop : opcd w = 31) (h : decode31 w = .ok i) : w = encode i := by
  unfold decode31 at h
  iterate 13
    rcases row_or_rest h with ⟨hxo, hreserved, rfl⟩ | h
    · simpa [encode, eq_encodeX_iff, hop, hxo, and_assoc] using hreserved
  cases h

theorem eq_encode_of_decode63 {w : Word} {i : Instr} (hop : opcd w = 63) (h : decode63 w = .ok i) : w = encode i := by
  unfold decode63 at h
  rcases row_or_rest h with ⟨hxo, hreserved, rfl⟩ | h
  · obtain ⟨ha, hb⟩ := (field_ab_eq_zero_iff w).mp (eq_of_beq hreserved)
    exact (eq_encodeX_iff ..).mpr ⟨hop, rfl, ha, hb, hxo, rfl⟩
  rcases row_or_rest h with ⟨hxo, hreserved, rfl⟩ | h
  · obtain ⟨ha, hb⟩ := (field_ab_eq_zero_iff w).mp (eq_of_beq hreserved)
    exact (eq_encodeX_iff ..).mpr ⟨hop, rfl, ha, hb, hxo, rfl⟩
  rcases row_or_rest h with ⟨hxo, hreserved, rfl⟩ | h
  · simpa [eq_encode_mtfsfi_iff, hop, hxo] using hreserved
  rcases row_or_rest h with ⟨hxo, hreserved, rfl⟩ | h
  · simpa [eq_encode_mtfsf_iff, hop, hxo] using hreserved
  cases h

theorem eq_encode_of_decodeWord {w : Word} {i : Instr} (h : decodeWord w = .ok i) : w = encode i := by
  unfold decodeWord at h
  dsimp only at h
  split_ifs at h with h3 h17 h19 hxo h31 h46 h47 h63
  · obtain rfl := Except.ok.inj h
    exact (eq_encodeD_iff ..).mpr ⟨h3, rfl, rfl, rfl⟩
  · obtain ⟨hw, rfl⟩ := (decodeRow_eq_ok_iff ..).mp h
    exact eq_of_beq hw
  · obtain ⟨hw, rfl⟩ := (decodeRow_eq_ok_iff ..).mp h
    exact eq_of_beq hw
  · exact eq_encode_of_decode31 h31 h
  · obtain rfl := Except.ok.inj h
    exact (eq_encodeD_iff ..).mpr ⟨h46, rfl, rfl, rfl⟩
  · obtain rfl := Except.ok.inj h
    exact (eq_encodeD_iff ..).mpr ⟨h47, rfl, rfl, rfl⟩
  · exact eq_encode_of_decode63 h63 h

theorem decodeBytes_bytesOfWord {w : Word} {i : Instr} (h : decodeWord w = .ok i) (le : Bool) (rest : List Byte) :
    decodeBytes le (bytesOfWord le w ++ rest) = .ok (i, rest) := by
  obtain ⟨b0, b1, b2, b3, hbytes⟩ := List.length_eq_four.mp (Machine.bytesOfWord_length w le)
  have hword : wordOfBytes le [b0, b1, b2, b3] = w := hbytes ▸ Machine.wordOfBytes_bytesOfWord w le
  rw [hbytes]
  simp [decodeBytes, hword, h]

/-! ### Reserved fields (30_encoding.md R69) -/

/-- The word selects a row by its opcodes and has a reserved field that is not the row's. -/
def HasReservedField (w : Word) : Prop := ∃ m, decodeWord w = .error (.reservedField m)

theorem hasReservedField_of_opcd_31 {w : Word} (hop : opcd w = 31)
    (h : ∃ m, decode31 w = .error (.reservedField m)) : HasReservedField w := by
  rwa [HasReservedField, decodeWord_of_opcd_31 hop]

theorem hasReservedField_of_opcd_63 {w : Word} (hop : opcd w = 63)
    (h : ∃ m, decode63 w = .error (.reservedField m)) : HasReservedField w := by
  rwa [HasReservedField, decodeWord_of_opcd_63 hop]

theorem hasReservedField_sc {w : Word} (hop : opcd w = 17) (h : w ≠ 0x44000002) : HasReservedField w := by
  simpa [HasReservedField, decodeWord, hop, decodeRow_eq_reservedField_iff] using h

theorem hasReservedField_rfi {w : Word} (hop : opcd w = 19) (hxo : extOpcd w = 50) (h : w ≠ 0x4C000064) :
    HasReservedField w := by
  simpa [HasReservedField, decodeWord, hop, hxo, decodeRow_eq_reservedField_iff] using h

theorem hasReservedField_stwcx {w : Word} (hop : opcd w = 31) (hxo : extOpcd w = 150) (h : w.getMsbD 31 = false) :
    HasReservedField w :=
  hasReservedField_of_opcd_31 hop ⟨"stwcx.", by simp [decode31, hxo, rcBit_eq_getMsbD, h]⟩

/-- Bit 31 is reserved, and 0, in every row with primary opcode 31 but `stwcx.`. -/
theorem hasReservedField_rc {w : Word} (hop : opcd w = 31)
    (hxo : extOpcd w ∈ [4, 20, 83, 146, 310, 339, 438, 467, 533, 597, 661, 725]) (h : w.getMsbD 31 = true) :
    HasReservedField w := by
  refine hasReservedField_of_opcd_31 hop ?_
  simp only [List.mem_cons, List.not_mem_nil, or_false] at hxo
  rcases hxo with hxo | hxo | hxo | hxo | hxo | hxo | hxo | hxo | hxo | hxo | hxo | hxo <;>
    simp [decode31, hxo, rcBit_eq_getMsbD, h]

/-- The fields of rA and rB are reserved in `mfmsr` and `mtmsr`. -/
theorem hasReservedField_ab {w : Word} (hop : opcd w = 31) (hxo : extOpcd w ∈ [83, 146]) (h : field w 11 10 ≠ 0) :
    HasReservedField w := by
  have hab : (field w 11 5 == 0 && field w 16 5 == 0) = false := by
    rw [Bool.eq_false_iff, ne_eq, Bool.and_eq_true, beq_iff_eq, beq_iff_eq, ← field_ab_eq_zero_iff]
    exact h
  refine hasReservedField_of_opcd_31 hop ?_
  simp only [List.mem_cons, List.not_mem_nil, or_false] at hxo
  rcases hxo with hxo | hxo
  · exact ⟨"mfmsr", by simp only [decode31, hxo, hab]; rfl⟩
  · exact ⟨"mtmsr", by simp only [decode31, hxo, hab]; rfl⟩

theorem hasReservedField_mtfsb {w : Word} (hop : opcd w = 63) (hxo : extOpcd w ∈ [38, 70]) (h : field w 11 10 ≠ 0) :
    HasReservedField w := by
  refine hasReservedField_of_opcd_63 hop ?_
  simp only [List.mem_cons, List.not_mem_nil, or_false] at hxo
  rcases hxo with hxo | hxo <;> simpa [decode63, hxo, decodeRow_eq_reservedField_iff] using h

theorem hasReservedField_mtfsfi {w : Word} (hop : opcd w = 63) (hxo : extOpcd w = 134)
    (h : field w 9 7 ≠ 0 ∨ w.getMsbD 20 = true) : HasReservedField w := by
  rw [← Bool.not_eq_false, ← field_bit_eq_zero_iff w 20 (by decide)] at h
  refine hasReservedField_of_opcd_63 hop ?_
  simpa [decode63, hxo, decodeRow_eq_reservedField_iff, imp_iff_not_or] using h

theorem hasReservedField_mtfsf {w : Word} (hop : opcd w = 63) (hxo : extOpcd w = 711)
    (h : w.getMsbD 6 = true ∨ w.getMsbD 15 = true) : HasReservedField w := by
  rw [← Bool.not_eq_false, ← Bool.not_eq_false, ← field_bit_eq_zero_iff w 6 (by decide),
    ← field_bit_eq_zero_iff w 15 (by decide)] at h
  refine hasReservedField_of_opcd_63 hop ?_
  simpa [decode63, hxo, decodeRow_eq_reservedField_iff, imp_iff_not_or] using h

end Sys2Proof

namespace Sys2Proof.Machine

/-! ### The SPR field (30_encoding.md R66) -/

theorem field_encodeX_spr (op : BitVec 6) (r : Reg) (n xo : BitVec 10) (rc : Bool) :
    let w := encodeX op r (n.extractLsb' 0 5) (n.extractLsb' 5 5) xo rc
    (field w 11 5).toNat = n.toNat % 32 ∧ (field w 16 5).toNat = n.toNat / 32 ∧
      (w.getMsbD 11 = true ↔ n.toNat / 16 % 2 = 1) := by
  refine ⟨?_, ?_, ?_⟩
  · rw [field_a_encodeX, BitVec.extractLsb'_toNat]
    rfl
  · rw [field_b_encodeX, BitVec.extractLsb'_toNat, Nat.shiftRight_eq_div_pow]
    have := n.isLt
    omega
  · rw [← getMsbD_field _ 11 5 0 (by decide) (by decide), field_a_encodeX, ← sprSupervisor_iff]
    simp [sprSupervisor, BitVec.getMsbD_eq_getLsbD]

/-! ### Words that run without a row (30_encoding.md R68 to R70) -/

theorem run_of_hasReservedField (s : State) (w : Word) (h : s.architected w) (hr : HasReservedField w) :
    ∃ m, s.run w = .refused (.invalidForm m) := by
  obtain ⟨m, hm⟩ := hr
  rw [run_architected s w h, State.runDecoded, hm]
  exact ⟨m, rfl⟩

theorem run_of_noRow (s : State) (w : Word) (h : s.architected w) (hw : decodeWord w = .error .noRow) :
    s.run w = s.execUnlisted w := by
  rw [run_architected s w h, State.runDecoded, hw]
  rfl

theorem run_of_illegal (s : State) (w : Word) (h : wordIn s.params.illegal w = true) :
    s.run w = .next (s.program .illegal s.pc) := if_pos h

theorem program_took (s : State) (k : ProgramKind) (a : Word) : TookException s (s.program k a) .program a k.info := by
  have hinfo : k.info &&& 0x783F0000 = k.info := by cases k <;> decide
  exact hinfo ▸ takeException_took s .program a k.info

theorem retire_retired (s t : State) (w : Word) (h : t.params = s.params) : Retired s w t (t.retire s.msr w) := by
  obtain ⟨hplain, htraced⟩ := retire_eq s t w h
  exact ⟨hplain, fun ht => htraced ht ▸ takeException_took t .trace t.pc 0⟩

theorem execUnlisted_absent (s : State) (w : Word) (habsent : wordIn s.params.optionalAbsent w = true)
    (hnop : wordIn s.params.optionalNop w = false) : s.execUnlisted w = .next (s.program .illegal s.pc) := by
  rw [State.execUnlisted, habsent, hnop]
  rfl

theorem execUnlisted_nop (s : State) (w : Word) (hnop : wordIn s.params.optionalNop w = true)
    (hprivileged : (wordIn s.params.privileged w && msrPR s.msr) = false)
    (hfp : (isFloatingPoint w && !msrFP s.msr) = false) : s.execUnlisted w = .next (s.advance.retire s.msr w) := by
  rw [State.execUnlisted, hnop, hprivileged, hfp, Bool.not_true, Bool.and_false]
  rfl

theorem execUnlisted_unknown (s : State) (w : Word) (habsent : wordIn s.params.optionalAbsent w = false)
    (hnop : wordIn s.params.optionalNop w = false) (hprivileged : wordIn s.params.privileged w = false)
    (hfp : isFloatingPoint w = false) (hbranch : isBranch w = false) :
    s.execUnlisted w = .refused (.unknownWord w) := by
  rw [State.execUnlisted, habsent, hnop, hprivileged, hfp, hbranch]
  rfl

/-! ### Invalid SPR fields (30_encoding.md R71) -/

/-- What both `mtspr` and `mfspr` come to with an invalid SPR field. -/
theorem exec_invalidSpr (s : State) (spr : BitVec 10) (r : Reg) (i : Instr)
    (h : (i = .mtspr spr r ∧ writableSpr s.params spr = none) ∨ (i = .mfspr r spr ∧ readableSpr s.params spr = none)) :
    exec i s =
      if sprSupervisor spr && msrPR s.msr then .next (s.program .privileged s.pc) else s.invalidSpr spr := by
  rcases h with ⟨rfl, hnone⟩ | ⟨rfl, hnone⟩
  · rw [exec, execMtspr, hnone]
  · rw [exec, execMfspr, hnone]

end Sys2Proof.Machine

namespace Sys2Proof.Proofs

open Sys2Proof.Machine

/-- Settles O1: the word gives the instruction back (`decodeWord_encode`), and its bytes give the word back in either
byte order (`decodeBytes_bytesOfWord`). -/
theorem decodeOfEncodeGivesTheInstruction : Obligations.DecodeOfEncodeGivesTheInstruction := fun i le rest =>
  ⟨decodeWord_encode i, decodeBytes_bytesOfWord (decodeWord_encode i) le rest⟩

/-- Settles O2: each row's fixed fields and operands make up the whole word. -/
theorem encodeOfDecodeGivesTheWord : Obligations.EncodeOfDecodeGivesTheWord := fun _ _ h =>
  (eq_encode_of_decodeWord h).symm

/-- Settles O4: both words are X-form words with the halves of the number in the fields of rA and rB. -/
theorem sprFieldHoldsTheNumberSwapped : Obligations.SprFieldHoldsTheNumberSwapped := by
  intro r n w hw
  obtain ⟨op, xo, rc, rfl⟩ : ∃ op xo rc, w = encodeX op r (n.extractLsb' 0 5) (n.extractLsb' 5 5) xo rc := by
    rcases List.mem_pair.mp hw with rfl | rfl
    · exact ⟨_, _, _, rfl⟩
    · exact ⟨_, _, _, rfl⟩
  obtain ⟨hlow, hhigh, hbit⟩ := field_encodeX_spr op r n xo rc
  exact ⟨hlow, hhigh, hbit, sprSupervisor_iff n⟩

/-- Settles O5: row by row, the word has a reserved field that the decoder finds (`HasReservedField`). -/
theorem reservedFieldsAreRefused : Obligations.ReservedFieldsAreRefused := by
  intro s w harch hw
  refine run_of_hasReservedField s w harch ?_
  rcases hw with ⟨hop, h⟩ | ⟨hop, hxo, h⟩ | ⟨hop, hxo, h⟩ | ⟨hop, hxo, h⟩ | ⟨hop, hxo, h⟩ |
    ⟨hop, ⟨hxo, h⟩ | ⟨hxo, h⟩ | ⟨hxo, h⟩⟩
  · exact hasReservedField_sc hop h
  · exact hasReservedField_rfi hop hxo h
  · exact hasReservedField_stwcx hop hxo h
  · exact hasReservedField_rc hop hxo h
  · exact hasReservedField_ab hop hxo h
  · exact hasReservedField_mtfsb hop hxo h
  · exact hasReservedField_mtfsfi hop hxo h
  · exact hasReservedField_mtfsf hop hxo h

/-- Settles O57: the order in which `State.run` and `State.execUnlisted` look at the implementation's sets. -/
theorem illegalOptionalAndUnknownWords : Obligations.IllegalOptionalAndUnknownWords := by
  refine ⟨fun s w hill => ⟨_, run_of_illegal s w hill, program_took s .illegal s.pc⟩, fun s w hw harch => ?_,
    by decide, rfl⟩
  rw [run_of_noRow s w harch hw]
  exact ⟨fun habsent hnop => ⟨_, execUnlisted_absent s w habsent hnop, program_took s .illegal s.pc⟩,
    fun hnop hprivileged hfp => ⟨_, execUnlisted_nop s w hnop hprivileged hfp, retire_retired s s.advance w rfl⟩,
    execUnlisted_unknown s w⟩

/-- Settles O34: `spr[0]` and MSR[PR] choose between the three outcomes of `exec_invalidSpr`. -/
theorem invalidSprField : Obligations.InvalidSprField := by
  intro s spr r i hi
  rw [exec_invalidSpr s spr r i hi, State.invalidSpr, sprSupervisor]
  refine ⟨fun hspr hpr => ?_, fun hspr => ?_, fun hspr hpr => ?_⟩
  · rw [hspr, hpr]
    exact ⟨_, rfl, program_took s .privileged s.pc⟩
  · rw [hspr]
    exact ⟨_, rfl, program_took s .illegal s.pc⟩
  · rw [hspr, hpr]
    rfl

end Sys2Proof.Proofs

/-! SUPPORT. The system call, the traps and the return: when a trap instruction traps, and what a return and an
instruction without the enabled condition complete with. -/

namespace Sys2Proof.Machine

/-! ### Traps (40_system_call_and_trap.md R81, R82) -/

/-- The five bits of TO, each with its comparison read as numbers. -/
theorem trapCondition_iff (cond : BitVec 5) (a b : Word) :
    trapCondition cond a b = true ↔
      (cond.getMsbD 0 = true ∧ a.toInt < b.toInt) ∨ (cond.getMsbD 1 = true ∧ b.toInt < a.toInt) ∨
        (cond.getMsbD 2 = true ∧ a = b) ∨ (cond.getMsbD 3 = true ∧ a.toNat < b.toNat) ∨
        (cond.getMsbD 4 = true ∧ b.toNat < a.toNat) := by
  simp only [trapCondition, Bool.or_eq_true, Bool.and_eq_true, BitVec.slt_iff_toInt_lt, BitVec.ult_iff_toNat_lt,
    beq_iff_eq, or_assoc]

theorem trapOn_of_met (s : State) (w : Word) (cond : BitVec 5) (a b : Word) (h : trapCondition cond a b = true) :
    TookException s (s.trapOn w cond a b) .program s.pc 0x00020000 := by
  rw [State.trapOn, if_pos h]
  exact program_took s .trap s.pc

theorem trapOn_of_not_met (s : State) (w : Word) (cond : BitVec 5) (a b : Word) (h : ¬trapCondition cond a b = true) :
    Retired s w { s with pc := s.pc + 4 } (s.trapOn w cond a b) := by
  rw [State.trapOn, if_neg h]
  exact retire_retired s s.advance w rfl

/-! ### The return (40_system_call_and_trap.md R83, 60_exceptions.md R138, R162) -/

/-- FE0 and FE1 are among the restored bits. -/
theorem msrFE_returnFromException (s : State) : msrFE s.returnFromException.msr = msrFE s.srr1 := by
  simp [msrFE, msrFE0, msrFE1, msrSaved, BitVec.getMsbD]

/-- An instruction after which the enabled condition does not stand completes like any other. -/
theorem completeFp_retired (s t : State) (cia w : Word) (hp : t.params = s.params) (h : t.fpEnabledCondition = false) :
    Retired s w t (t.completeFp cia s.msr w) := by
  rw [State.completeFp, if_neg (Bool.eq_false_iff.mp h)]
  exact retire_retired s t w hp

theorem execRfi_undefined (s : State) (hpr : msrPR s.msr = false) (hd : s.savedContextUndefined = true) :
    execRfi s = .fault .undefinedSrr := by
  rw [execRfi, if_neg (Bool.eq_false_iff.mp hpr), if_pos hd]

theorem execRfi_returns (s : State) (hpr : msrPR s.msr = false) (hd : s.savedContextUndefined = false)
    (hr : s.srr1 &&& msrSaved &&& reservedBits s.params = 0) :
    execRfi s = .next (s.returnFromException.completeFp s.pc s.msr (encode .rfi)) := by
  rw [execRfi, if_neg (Bool.eq_false_iff.mp hpr), if_neg (Bool.eq_false_iff.mp hd), if_neg (not_not.mpr hr)]

theorem disturbSrr_undefined (s : State) (h : s.params.srrVolatile = true) :
    s.disturbSrr.savedContextUndefined = true := by
  rw [State.disturbSrr, if_pos h]
  simp [State.savedContextUndefined, h]

theorem afterFetch_on (s : State) (h : msrIR s.msr = true) : s.afterFetch = s.disturbSrr := if_pos h

theorem afterAccess_on (s : State) (h : msrDR s.msr = true) : s.afterAccess = s.disturbSrr := if_pos h

end Sys2Proof.Machine

namespace Sys2Proof.Proofs

open Sys2Proof.Machine

/-- Settles O25: both instructions are `State.trapOn`, whose condition is `trapCondition_iff`; the sign extension of
SIMM is the word of its signed value. -/
theorem trapInstructions : Obligations.TrapInstructions := by
  intro s cond ra rb simm p hp a b met
  have hmet : trapCondition cond a b = true ↔ met := trapCondition_iff cond a b
  have hexec : exec p.1 s = .next (s.trapOn (encode p.1) cond a b) := by
    rcases List.mem_pair.mp hp with rfl | rfl <;> rfl
  exact ⟨fun h => ⟨_, hexec, trapOn_of_met s _ cond a b (hmet.mpr h)⟩,
    fun h => ⟨_, hexec, trapOn_of_not_met s _ cond a b (mt hmet.mp h)⟩⟩

/-- Settles O26: FE0 and FE1 come from SRR1, so the last premise of the first clause keeps the enabled condition
from standing after the return; a translated access goes through `State.disturbSrr`, which leaves both registers
undefined. -/
theorem rfiRestoresTheSavedContext : Obligations.RfiRestoresTheSavedContext := by
  refine fun s => ⟨fun hpr hd hr hfp => ?_, execRfi_undefined s, fun hv => ⟨fun hir => ?_, fun hdr => ?_⟩⟩
  · have hcondition : s.returnFromException.fpEnabledCondition = false := by
      rw [State.fpEnabledCondition, msrFE_returnFromException, Bool.and_comm]
      exact hfp
    exact ⟨_, execRfi_returns s hpr hd hr, completeFp_retired s s.returnFromException s.pc _ rfl hcondition⟩
  · rw [afterFetch_on s hir]
    exact disturbSrr_undefined s hv
  · rw [afterAccess_on s hdr]
    exact disturbSrr_undefined s hv

/-- Settles O24: `sc` is the entry alone, whatever the state. -/
theorem scTakesTheSystemCall : Obligations.ScTakesTheSystemCall :=
  ⟨rfl, fun s => ⟨_, rfl, takeException_took s .systemCall (s.pc + 4) 0⟩⟩

end Sys2Proof.Proofs

/-! SUPPORT. The special registers: what `mtmsr`, `mfmsr`, `mtspr` and `mfspr` do where the privilege allows them, and
what each privileged instruction does at user level. -/

namespace Sys2Proof.Machine

/-! ### Privilege (41_spr_and_msr_access.md R90) -/

/-- At user level `rfi`, `mtmsr` and `mfmsr` do nothing but trap. -/
theorem exec_privileged (s : State) (r : Reg) (i : Instr) (hi : i ∈ [Instr.rfi, .mtmsr r, .mfmsr r])
    (hpr : msrPR s.msr = true) : exec i s = .next (s.program .privileged s.pc) := by
  simp only [List.mem_cons, List.not_mem_nil, or_false] at hi
  rcases hi with rfl | rfl | rfl <;> exact if_pos hpr

/-- So do `mtspr` and `mfspr` of a number with spr[0] = 1, before the number is looked at. -/
theorem exec_privilegedSpr (s : State) (r : Reg) (spr : BitVec 10) (i : Instr)
    (hi : i ∈ [Instr.mtspr spr r, .mfspr r spr]) (hspr : sprSupervisor spr = true) (hpr : msrPR s.msr = true) :
    exec i s = .next (s.program .privileged s.pc) := by
  have hboth : (sprSupervisor spr && msrPR s.msr) = true := by rw [hspr, hpr]; rfl
  rcases List.mem_pair.mp hi with rfl | rfl <;> exact if_pos hboth

/-! ### The MSR (41_spr_and_msr_access.md R93, R94) -/

theorem execMtmsr_writes (s : State) (rs : Reg) (hpr : msrPR s.msr = false)
    (hr : s.readGpr rs &&& reservedBits s.params = 0) :
    execMtmsr rs s =
      .next (({ s with msr := s.readGpr rs } : State).advance.completeFp s.pc s.msr (encode (.mtmsr rs))) := by
  rw [execMtmsr, if_neg (Bool.eq_false_iff.mp hpr), if_neg (not_not.mpr hr)]

theorem execMfmsr_reads (s : State) (rd : Reg) (hpr : msrPR s.msr = false) :
    execMfmsr rd s = .next ((s.setGpr rd s.msr).advance.retire s.msr (encode (.mfmsr rd))) :=
  if_neg (Bool.eq_false_iff.mp hpr)

/-! ### Special-purpose registers: reading after a write (41_spr_and_msr_access.md R91, R92) -/

section WriteSpr

variable (s : State) (v : Word)

@[simp] theorem readSpr_advance (q : Spr) : s.advance.readSpr q = s.readSpr q := by cases q <;> rfl

/-- What is written to a register reads back; a register of the implementation's own needs its table in canonical
form. -/
theorem readSpr_writeSpr_same (q : Spr) (h : Cells.wf 0 1024 s.implSprs) : (s.writeSpr q v).readSpr q = v := by
  cases q with
  | sprg i => simp [State.readSpr, State.writeSpr]
  | bat i => simp [State.readSpr, State.writeSpr]
  | impl n => exact Cells.read_write_same 0 s.implSprs n.toNat v h.1
  | _ => rfl

theorem readSpr_writeSpr_other (q r : Spr) (h : r ≠ q) : (s.writeSpr q v).readSpr r = s.readSpr r := by
  cases q with
  | sprg i =>
    cases r with
    | sprg j =>
      have hij : i.val ≠ j.val := fun e => h (congrArg Spr.sprg (Fin.ext e.symm))
      exact Vector.getElem_set_ne i.isLt j.isLt hij
    | _ => rfl
  | bat i =>
    cases r with
    | bat j =>
      have hij : i.val ≠ j.val := fun e => h (congrArg Spr.bat (Fin.ext e.symm))
      exact Vector.getElem_set_ne i.isLt j.isLt hij
    | _ => rfl
  | impl n =>
    cases r with
    | impl m =>
      have hnm : n.toNat ≠ m.toNat := fun e => h (congrArg Spr.impl (BitVec.eq_of_toNat_eq e.symm))
      exact Cells.read_write_other 0 s.implSprs n.toNat m.toNat v hnm
    | _ => rfl
  | _ => cases r <;> simp_all [State.readSpr, State.writeSpr]

/-- A write of DEC that takes its top bit from 0 to 1 makes the decrementer exception pend (60_exceptions.md R143). -/
theorem writeSpr_decPending (q : Spr) : (s.writeSpr q v).decPending =
    (s.decPending || (decide (q = .dec) && !s.dec.getMsbD 0 && v.getMsbD 0)) := by
  cases q <;> simp [State.writeSpr, State.setDec]

theorem writeSpr_srr0Undefined (q : Spr) :
    (s.writeSpr q v).srr0Undefined = (s.srr0Undefined && decide (q ≠ .srr0)) := by
  cases q <;> simp [State.writeSpr]

theorem writeSpr_srr1Undefined (q : Spr) :
    (s.writeSpr q v).srr1Undefined = (s.srr1Undefined && decide (q ≠ .srr1)) := by
  cases q <;> simp [State.writeSpr]

/-- Nothing outside the special-purpose registers, the decrementer's pending bit, the definedness of SRR0 and SRR1 and
the pc changes. -/
theorem advance_writeSpr_frame (q : Spr) (t : State) (ht : t = (s.writeSpr q v).advance) : t = { s with
    xer := t.xer, lr := t.lr, ctr := t.ctr, dsisr := t.dsisr, dar := t.dar, dec := t.dec, sdr1 := t.sdr1
    srr0 := t.srr0, srr1 := t.srr1, srr0Undefined := t.srr0Undefined, srr1Undefined := t.srr1Undefined
    sprg := t.sprg, ear := t.ear, tbl := t.tbl, tbu := t.tbu, pvr := t.pvr, bat := t.bat
    implSprs := t.implSprs, decPending := t.decPending, pc := t.pc } := by
  subst ht
  cases q <;> rfl

theorem writeSpr_pc (q : Spr) : (s.writeSpr q v).pc = s.pc := by cases q <;> rfl

theorem writeSpr_params (q : Spr) : (s.writeSpr q v).params = s.params := by cases q <;> rfl

end WriteSpr

theorem sprUndefined_iff (s : State) (q : Spr) :
    s.sprUndefined q = true ↔ s.params.srrVolatile = true ∧
      ((q = .srr0 ∧ s.srr0Undefined = true) ∨ (q = .srr1 ∧ s.srr1Undefined = true)) := by
  simp only [State.sprUndefined, Bool.and_eq_true, Bool.or_eq_true, decide_eq_true_eq]

theorem execMtspr_writes (s : State) (spr : BitVec 10) (rs : Reg) (q : Spr)
    (hq : writableSpr s.params spr = some q) (hpr : (sprSupervisor spr && msrPR s.msr) = false) :
    execMtspr spr rs s =
      .next ((s.writeSpr q (s.readGpr rs)).advance.retire s.msr (encode (.mtspr spr rs))) := by
  rw [execMtspr, if_neg (Bool.eq_false_iff.mp hpr), hq]

theorem execMfspr_readable (s : State) (spr : BitVec 10) (rd : Reg) (q : Spr)
    (hq : readableSpr s.params spr = some q) (hpr : (sprSupervisor spr && msrPR s.msr) = false) :
    execMfspr rd spr s =
      if s.sprUndefined q then .fault .undefinedSrr
      else .next ((s.setGpr rd (s.readSpr q)).advance.retire s.msr (encode (.mfspr rd spr))) := by
  rw [execMfspr, if_neg (Bool.eq_false_iff.mp hpr), hq]

end Sys2Proof.Machine

namespace Sys2Proof.Proofs

open Sys2Proof.Machine

/-- Settles O30: the privilege is looked at before anything else (`exec_privileged`, `exec_privilegedSpr`). -/
theorem privilegedInstructionsTrapAtUserLevel : Obligations.PrivilegedInstructionsTrapAtUserLevel :=
  fun s r spr hpr =>
    ⟨fun i hi => ⟨_, exec_privileged s r i hi hpr, program_took s .privileged s.pc⟩,
      fun hspr i hi => ⟨_, exec_privilegedSpr s r spr i hi hspr hpr, program_took s .privileged s.pc⟩⟩

/-- Settles O27: the last premise on `mtmsr` keeps the enabled condition from standing under the new MSR. -/
theorem mtmsrAndMfmsrAccessTheMsr : Obligations.MtmsrAndMfmsrAccessTheMsr := by
  refine fun s r hpr => ⟨fun hr hfp => ?_,
    _, execMfmsr_reads s r hpr, retire_retired s (s.setGpr r s.msr).advance _ rfl⟩
  have hcondition : ({ s with msr := s.readGpr r } : State).advance.fpEnabledCondition = false := by
    rw [State.fpEnabledCondition, Bool.and_comm]
    exact hfp
  exact ⟨_, execMtmsr_writes s r hpr hr, completeFp_retired s _ s.pc _ rfl hcondition⟩

/-- Settles O32: the laws of `State.writeSpr`, the state before the trace exception being that after the write. -/
theorem mtsprWritesTheRegister : Obligations.MtsprWritesTheRegister := by
  intro s spr rs q hq hpr hwf
  have hretired : Retired s (encode (.mtspr spr rs)) (s.writeSpr q (s.readGpr rs)).advance _ :=
    retire_retired s _ _ (writeSpr_params s (s.readGpr rs) q)
  refine ⟨(s.writeSpr q (s.readGpr rs)).advance, _, execMtspr_writes s spr rs q hq hpr, hretired, ?_, fun r hr => ?_,
    ?_, writeSpr_decPending s _ q, writeSpr_srr0Undefined s _ q, writeSpr_srr1Undefined s _ q, ?_⟩
  · rw [readSpr_advance]
    exact readSpr_writeSpr_same s _ q hwf
  · rw [readSpr_advance]
    exact readSpr_writeSpr_other s _ q r hr
  · rw [advance_pc, writeSpr_pc]
  · exact advance_writeSpr_frame s _ q _ rfl

/-- Settles O33: the two clauses are the two branches of `execMfspr_readable`. -/
theorem mfsprReadsTheRegister : Obligations.MfsprReadsTheRegister := by
  intro s spr rd q hq hpr undefined
  have hexec : exec (.mfspr rd spr) s = _ := execMfspr_readable s spr rd q hq hpr
  have hundefined : s.sprUndefined q = true ↔ undefined := sprUndefined_iff s q
  rw [hexec]
  refine ⟨fun h => ?_, fun h => if_pos (hundefined.mpr h)⟩
  rw [if_neg (mt hundefined.mp h)]
  exact ⟨_, rfl, retire_retired s (s.setGpr rd (s.readSpr q)).advance _ rfl⟩

end Sys2Proof.Proofs

/-! SUPPORT. What every path of an instruction leaves of the general and floating-point registers: the parts of an
instruction first, then the accesses, then each instruction that has a part of its own. -/

namespace Sys2Proof.Machine

/-- General register `q` and the floating-point registers are the same in both states. -/
def SameRegisters (q : Reg) (s t : State) : Prop := t.readGpr q = s.readGpr q ∧ t.fpr = s.fpr

section Frame

variable {q : Reg} {s t u : State}

theorem sameRegisters_refl (q : Reg) (s : State) : SameRegisters q s s := ⟨rfl, rfl⟩

theorem SameRegisters.trans (h : SameRegisters q s t) (k : SameRegisters q t u) : SameRegisters q s u :=
  ⟨k.1.trans h.1, k.2.trans h.2⟩

/-! ### Parts of an instruction -/

theorem sameRegisters_setGpr {r : Reg} (h : q ≠ r) (s : State) (v : Word) : SameRegisters q s (s.setGpr r v) :=
  ⟨Vector.getElem_set_ne r.isLt q.isLt fun e => h (BitVec.eq_of_toNat_eq e.symm), rfl⟩

theorem sameRegisters_of_entered (e : Entered s t) : SameRegisters q s t := by
  obtain ⟨_, _, _, _, _, _, rfl⟩ := e
  exact ⟨rfl, rfl⟩

theorem sameRegisters_of_entered_or_stopped (e : Entered s t ∨ Stopped s t) : SameRegisters q s t := by
  rcases e with e | ⟨_, rfl⟩
  · exact sameRegisters_of_entered e
  · exact ⟨rfl, rfl⟩

theorem sameRegisters_of_disturbed (e : Disturbed s t) : SameRegisters q s t := by
  obtain ⟨_, _, _, _, _, rfl⟩ := e
  exact ⟨rfl, rfl⟩

theorem sameRegisters_of_stored (e : Stored s t) : SameRegisters q s t := by
  obtain ⟨_, _, _, _, _, _, _, rfl⟩ := e
  exact ⟨rfl, rfl⟩

theorem sameRegisters_program (q : Reg) (s : State) (k : ProgramKind) (a : Word) : SameRegisters q s (s.program k a) :=
  sameRegisters_of_entered (program_entered s k a)

theorem sameRegisters_dsi (q : Reg) (s : State) (ea : Word) (n : Nat) : SameRegisters q s (s.dsi ea n) :=
  sameRegisters_of_entered (dsi_entered s ea n)

theorem sameRegisters_accessException (q : Reg) (s : State) (f : AccessFault) (ea : Word) (n : Nat) :
    SameRegisters q s (s.accessException f ea n) :=
  sameRegisters_of_entered_or_stopped (accessException_cases s f ea n)

theorem sameRegisters_afterAccess (q : Reg) (s : State) : SameRegisters q s s.afterAccess :=
  sameRegisters_of_disturbed (afterAccess_eq s)

theorem sameRegisters_writeSpr (q : Reg) (s : State) (r : Spr) (v : Word) : SameRegisters q s (s.writeSpr r v) := by
  cases r <;> exact ⟨rfl, rfl⟩

theorem sameRegisters_setFpscr (q : Reg) (s : State) (f : Word) (rc : Bool) : SameRegisters q s (s.setFpscr f rc) := by
  obtain ⟨c, e⟩ := setFpscr_eq s f rc
  exact e ▸ sameRegisters_refl q s

/-- Completing an instruction touches no register: it ends there, or with the trace exception. -/
theorem sameRegisters_retire (h : SameRegisters q s t) (m w : Word) : SameRegisters q s (t.advance.retire m w) := by
  have hadvance : SameRegisters q s t.advance := h
  rcases retire_cases t.advance m w with e | e
  · rwa [e]
  · exact hadvance.trans (sameRegisters_of_entered e)

theorem sameRegisters_completeFp (h : SameRegisters q s t) (cia m w : Word) :
    SameRegisters q s (t.completeFp cia m w) := by
  rcases completeFp_cases t cia m w with e | e
  · rwa [e]
  · exact h.trans (sameRegisters_of_entered e)

/-! ### Accesses -/

/-- An access keeps the registers that what is performed keeps: checking the alignment conditions touches none. -/
theorem sameRegisters_withAlignment {cs : List AlignCause} {k : AccessKind} {ea : Word} {scan n : Nat}
    {perform : State → Host.Outcome State Fault Refusal}
    (hperform : ∀ t, OnNext (SameRegisters q t) (perform t)) :
    OnNext (SameRegisters q s) (s.withAlignment cs k ea scan n perform) :=
  onNext_withAlignment _ s cs k ea scan n perform
    (fun _ => sameRegisters_of_entered_or_stopped)
    fun d => hperform { s with draws := d }

theorem sameRegisters_finishAccess (m w ea : Word) (n : Nat) (r : State × Option AccessFault)
    (h : SameRegisters q s r.1) : OnNext (SameRegisters q s) (finishAccess m w ea n r) := by
  obtain ⟨t, f⟩ := r
  cases f with
  | none => exact onNext_of (sameRegisters_retire h m w)
  | some f => exact onNext_of (h.trans (sameRegisters_accessException q t f ea n))

theorem sameRegisters_loadWords (rs : List Reg) (hq : q ∉ rs) (ea : Word) (s : State) :
    SameRegisters q s (State.loadWords rs ea s).1 := by
  induction rs generalizing ea s with
  | nil => exact sameRegisters_refl q s
  | cons r rs ih =>
    obtain ⟨hr, hrs⟩ := not_or.mp (mt List.mem_cons.mpr hq)
    unfold State.loadWords
    split
    · next v _ =>
      have hone := (sameRegisters_setGpr hr s v).trans (sameRegisters_afterAccess q _)
      exact hone.trans (ih hrs (ea + 4) _)
    · exact sameRegisters_refl q s

/-- A register that the first k + n bytes of a string do not reach is not the one that byte k goes to. -/
theorem ne_stringRegister {rd : Reg} {n k : Nat} (h : (k + (n + 1) + 3) / 4 ≤ (q - rd).toNat) :
    q ≠ rd + BitVec.ofNat 5 (k / 4) := by
  rintro rfl
  rw [BitVec.add_comm, BitVec.add_sub_cancel, BitVec.toNat_ofNat] at h
  omega

theorem sameRegisters_loadString (rd : Reg) (ea : Word) (n k : Nat) (hq : (k + n + 3) / 4 ≤ (q - rd).toNat)
    (s : State) : SameRegisters q s (State.loadString rd ea n k s).1 := by
  induction n generalizing k s with
  | zero => exact sameRegisters_refl q s
  | succ n ih =>
    unfold State.loadString
    split
    · have hload (v : Word) := sameRegisters_setGpr (ne_stringRegister hq) s v
      exact ((hload _).trans (sameRegisters_afterAccess q _)).trans (ih (k + 1) (by omega) _)
    · exact sameRegisters_refl q s

/-- A string load of no byte leaves a free value in rD (42 R104). -/
theorem sameRegisters_noBytes (rd : Reg) (n : Nat) (hq : n = 0 → q ≠ rd) (t : State) :
    SameRegisters q t (t.noBytes rd n) := by
  unfold State.noBytes
  split
  · next h => exact sameRegisters_setGpr (hq h) t _
  · exact sameRegisters_refl q t

theorem sameRegisters_loadStringFrom (w : Word) (rd : Reg) (ea : Word) (n : Nat) (hzero : n = 0 → q ≠ rd)
    (hq : (n + 3) / 4 ≤ (q - rd).toNat) : OnNext (SameRegisters q s) (s.loadStringFrom w rd ea n) :=
  sameRegisters_withAlignment fun t =>
    have hnone := sameRegisters_noBytes rd n hzero t
    sameRegisters_finishAccess _ _ _ _ _
      (hnone.trans (sameRegisters_loadString rd ea n 0 (by rwa [Nat.zero_add]) _))

theorem sameRegisters_storeStringTo (w : Word) (rs : Reg) (ea : Word) (n : Nat) :
    OnNext (SameRegisters q s) (s.storeStringTo w rs ea n) :=
  sameRegisters_withAlignment fun t =>
    sameRegisters_finishAccess _ _ _ _ _
      (sameRegisters_of_stored (storeString_eq rs ea n 0 t).1)

/-! ### Instructions -/

theorem sameRegisters_trapOn (w : Word) (cond : BitVec 5) (a b : Word) : SameRegisters q s (s.trapOn w cond a b) := by
  unfold State.trapOn
  split
  · exact sameRegisters_program q s _ _
  · exact sameRegisters_retire (sameRegisters_refl q s) _ _

theorem sameRegisters_execRfi : OnNext (SameRegisters q s) (execRfi s) := by
  unfold execRfi
  split_ifs
  · exact onNext_of (sameRegisters_program q s _ _)
  · exact onNext_fault _ _
  · exact onNext_refused _ _
  · have hreturn : SameRegisters q s s.returnFromException := ⟨rfl, rfl⟩
    exact onNext_of (sameRegisters_completeFp hreturn _ _ _)

theorem sameRegisters_execMtmsr (rs : Reg) : OnNext (SameRegisters q s) (execMtmsr rs s) := by
  unfold execMtmsr
  split_ifs
  · exact onNext_of (sameRegisters_program q s _ _)
  · exact onNext_refused _ _
  · have hmsr : SameRegisters q s ({ s with msr := s.readGpr rs } : State).advance := ⟨rfl, rfl⟩
    exact onNext_of (sameRegisters_completeFp hmsr _ _ _)

theorem sameRegisters_execMfmsr {rd : Reg} (h : q ≠ rd) : OnNext (SameRegisters q s) (execMfmsr rd s) := by
  unfold execMfmsr
  split
  · exact onNext_of (sameRegisters_program q s _ _)
  · exact onNext_of (sameRegisters_retire (sameRegisters_setGpr h s _) _ _)

theorem sameRegisters_invalidSpr (n : BitVec 10) : OnNext (SameRegisters q s) (s.invalidSpr n) := by
  unfold State.invalidSpr
  split
  · exact onNext_refused _ _
  · exact onNext_of (sameRegisters_program q s _ _)

theorem sameRegisters_execMtspr (spr : BitVec 10) (rs : Reg) : OnNext (SameRegisters q s) (execMtspr spr rs s) := by
  unfold execMtspr
  split
  · exact onNext_of (sameRegisters_program q s _ _)
  · split
    · exact onNext_of (sameRegisters_retire (sameRegisters_writeSpr q s _ _) _ _)
    · exact sameRegisters_invalidSpr spr

theorem sameRegisters_execMfspr {rd : Reg} (h : q ≠ rd) (spr : BitVec 10) :
    OnNext (SameRegisters q s) (execMfspr rd spr s) := by
  unfold execMfspr
  split
  · exact onNext_of (sameRegisters_program q s _ _)
  · split
    · split
      · exact onNext_fault _ _
      · exact onNext_of (sameRegisters_retire (sameRegisters_setGpr h s _) _ _)
    · exact sameRegisters_invalidSpr spr

theorem sameRegisters_loadReserved {rd : Reg} (h : q ≠ rd) (m w ea : Word) :
    OnNext (SameRegisters q t) (t.loadReserved m w rd ea) := by
  unfold State.loadReserved
  split
  · exact onNext_refused _ _
  · split
    · next v _ =>
      have hload : SameRegisters q t ({ t with reservation := t.physicalAddress .load ea }.setGpr rd v) :=
        sameRegisters_setGpr h { t with reservation := t.physicalAddress .load ea } v
      exact onNext_of (sameRegisters_retire (hload.trans (sameRegisters_afterAccess q _)) _ _)
    · exact onNext_of (sameRegisters_accessException q t _ _ _)

theorem sameRegisters_storeConditional (m w : Word) (rs : Reg) (ea : Word) (attempt : Bool) :
    OnNext (SameRegisters q t) (t.storeConditional m w rs ea attempt) := by
  have hcleared : ∀ (u : State) (eq : Bool), SameRegisters q t u →
      SameRegisters q t ({ u with reservation := none }.setCr0 eq) := fun _ _ h => h
  unfold State.storeConditional
  split
  · split
    · next u e =>
      have hstored := sameRegisters_of_stored (q := q) (writeBytes_eq t u ea _ e)
      exact onNext_of (sameRegisters_retire (hcleared u true hstored) _ _)
    · exact onNext_of (sameRegisters_accessException q t _ _ _)
  · exact onNext_of (sameRegisters_retire (hcleared t false (sameRegisters_refl q t)) _ _)

theorem sameRegisters_externalControl (w : Word) (k : AccessKind) (ea : Word) (act : State → Word → State)
    (hact : ∀ t pa, SameRegisters q t (act t pa)) : OnNext (SameRegisters q s) (s.externalControl w k ea act) := by
  unfold State.externalControl
  split_ifs
  · exact onNext_of (sameRegisters_retire (sameRegisters_refl q s) _ _)
  · exact onNext_of (sameRegisters_program q s _ _)
  · exact onNext_of (sameRegisters_dsi q s ea 4)
  · refine sameRegisters_withAlignment fun t => ?_
    split
    · next pa _ _ =>
      exact onNext_of (sameRegisters_retire ((hact t pa).trans (sameRegisters_afterAccess q _)) _ _)
    · exact onNext_of (sameRegisters_dsi q t ea 4)
    · exact onNext_of (sameRegisters_accessException q t _ _ _)

theorem sameRegisters_execLmw {rd : Reg} (h : q.toNat < rd.toNat) (ra : Reg) (d : BitVec 16) :
    OnNext (SameRegisters q s) (execLmw rd ra d s) := by
  unfold execLmw
  split
  · exact onNext_refused _ _
  · exact sameRegisters_withAlignment fun t =>
      sameRegisters_finishAccess _ _ _ _ _ (sameRegisters_loadWords _ (not_mem_registersFrom rd q h) _ t)

theorem sameRegisters_execStmw (rs ra : Reg) (d : BitVec 16) : OnNext (SameRegisters q s) (execStmw rs ra d s) :=
  sameRegisters_withAlignment fun t =>
    sameRegisters_finishAccess _ _ _ _ _
      (sameRegisters_of_stored (storeWords_eq (registersFrom rs) _ t).1)

theorem immediateCount_ne_zero (nb : BitVec 5) : immediateCount nb ≠ 0 := by
  unfold immediateCount
  split
  · decide
  · next h => exact fun e => h (BitVec.eq_of_toNat_eq e)

theorem sameRegisters_execLswi {rd : Reg} {nb : BitVec 5} (h : (immediateCount nb + 3) / 4 ≤ (q - rd).toNat)
    (ra : Reg) : OnNext (SameRegisters q s) (execLswi rd ra nb s) := by
  unfold execLswi
  split
  · exact onNext_refused _ _
  · exact sameRegisters_loadStringFrom _ _ _ _ (fun e => absurd e (immediateCount_ne_zero nb)) h

theorem sameRegisters_execLswx {rd : Reg} (h : (s.byteCount + 3) / 4 ≤ (q - rd).toNat) (hrd : q ≠ rd) (ra rb : Reg) :
    OnNext (SameRegisters q s) (execLswx rd ra rb s) := by
  unfold execLswx
  extract_lets n
  split
  · exact onNext_refused _ _
  · exact sameRegisters_loadStringFrom _ _ _ _ (fun _ => hrd) h

theorem sameRegisters_moveToFpscr (w : Word) (rc : Bool) (f : Word) : SameRegisters q s (s.moveToFpscr w rc f) := by
  unfold State.moveToFpscr
  split
  · have hmove : SameRegisters q s (s.setFpscr f rc).advance := sameRegisters_setFpscr q s f rc
    exact sameRegisters_completeFp hmove _ _ _
  · exact sameRegisters_of_entered (fpUnavailable_entered s)

theorem sameRegisters_execMtfsb0 (crbd : BitVec 5) (rc : Bool) :
    OnNext (SameRegisters q s) (execMtfsb0 crbd rc s) := by
  unfold execMtfsb0
  split
  · exact onNext_of (sameRegisters_retire (sameRegisters_setFpscr q s _ rc) _ _)
  · exact onNext_of (sameRegisters_of_entered (fpUnavailable_entered s))

end Frame

end Sys2Proof.Machine

namespace Sys2Proof.Proofs

open Sys2Proof.Machine

/-- Settles O60: only `State.setGpr` writes a general register, and each instruction calls it for its destination
registers alone. -/
theorem onlyDestinationRegistersChange : Obligations.OnlyDestinationRegistersChange := by
  intro i s t q h hq
  have hkeeps : OnNext (SameRegisters q s) (exec i s) := by
    cases i with
    | twi cond ra simm => exact onNext_of (sameRegisters_trapOn _ _ _ _)
    | sc => exact onNext_of (sameRegisters_of_entered (takeException_entered s _ _ _ _))
    | rfi => exact sameRegisters_execRfi
    | tw cond ra rb => exact onNext_of (sameRegisters_trapOn _ _ _ _)
    | lwarx rd ra rb => exact sameRegisters_withAlignment fun _ => sameRegisters_loadReserved hq _ _ _
    | mfmsr rd => exact sameRegisters_execMfmsr hq
    | mtmsr rs => exact sameRegisters_execMtmsr rs
    | stwcx rs ra rb =>
      exact sameRegisters_withAlignment (s := s.skip 1) fun _ => sameRegisters_storeConditional _ _ _ _ _
    | eciwx rd ra rb => exact sameRegisters_externalControl _ _ _ _ fun u _ => sameRegisters_setGpr hq u _
    | mfspr rd spr => exact sameRegisters_execMfspr hq spr
    | ecowx rs ra rb => exact sameRegisters_externalControl _ _ _ _ fun u _ => sameRegisters_refl q u
    | mtspr spr rs => exact sameRegisters_execMtspr spr rs
    | lswx rd ra rb =>
      obtain ⟨hcount, hrd⟩ := hq
      exact sameRegisters_execLswx (byteCount_eq s ▸ hcount) hrd ra rb
    | lswi rd ra nb => exact sameRegisters_execLswi hq ra
    | stswx rs ra rb => exact sameRegisters_storeStringTo _ _ _ _
    | stswi rs ra nb => exact sameRegisters_storeStringTo _ _ _ _
    | lmw rd ra d => exact sameRegisters_execLmw hq ra d
    | stmw rs ra d => exact sameRegisters_execStmw rs ra d
    | mtfsb1 crbd rc => exact onNext_of (sameRegisters_moveToFpscr _ _ _)
    | mtfsb0 crbd rc => exact sameRegisters_execMtfsb0 crbd rc
    | mtfsfi crfd imm rc => exact onNext_of (sameRegisters_moveToFpscr _ _ _)
    | mtfsf fm frb rc => exact onNext_of (sameRegisters_moveToFpscr _ _ _)
  exact hkeeps t h

end Sys2Proof.Proofs

/-! SUPPORT. Load and store multiple and string: what an access does by its physical addresses, the loops of the six
instructions as one run over elements, then what the run leaves where it completes, where it is stopped, and on every
path. -/
namespace Sys2Proof.Machine

/-! ### What an access finds and does, by its physical addresses (20_memory.md R41, R49) -/

section Access

variable {s t u : State}

theorem readGpr_setGpr_same (s : State) (r : Reg) (v : Word) : (s.setGpr r v).readGpr r = v :=
  Vector.getElem_set_self r.isLt

theorem readGpr_setGpr_other {q r : Reg} (h : q ≠ r) (s : State) (v : Word) :
    (s.setGpr r v).readGpr q = s.readGpr q := (sameRegisters_setGpr h s v).1

theorem readBytes_eq_map (s : State) (k : AccessKind) (ea : Word) (n : Nat) :
    s.readBytes k ea n = (s.physBytes k ea n).map fun as => as.map s.mem.read := by
  unfold State.readBytes
  cases s.physBytes k ea n <;> rfl

theorem readWord_eq_map (s : State) (ea : Word) :
    s.readWord ea = (s.physBytes .load ea 4).map fun as => wordOfBytes (msrLE s.msr) (as.map s.mem.read) := by
  unfold State.readWord
  rw [readBytes_eq_map]
  cases s.physBytes .load ea 4 <;> rfl

theorem writeBytes_eq_map (s : State) (ea : Word) (bs : List Byte) :
    s.writeBytes ea bs = (s.physBytes .store ea bs.length).map fun as => (State.storeBytes as bs s).afterAccess := by
  unfold State.writeBytes
  cases s.physBytes .store ea bs.length <;> rfl

/-- Loads do not move the addresses of what follows them. -/
theorem physBytes_of_loaded (h : Loaded s t) (k : AccessKind) (ea : Word) (n : Nat) :
    t.physBytes k ea n = s.physBytes k ea n := by
  obtain ⟨_, _, _, _, _, _, rfl⟩ := h
  rfl

theorem physBytes_of_stored (h : Stored s t) (k : AccessKind) (ea : Word) (n : Nat) :
    t.physBytes k ea n = s.physBytes k ea n := by
  obtain ⟨_, _, _, _, _, _, _, rfl⟩ := h
  rfl

theorem readGpr_afterAccess (s : State) (r : Reg) : s.afterAccess.readGpr r = s.readGpr r :=
  (sameRegisters_afterAccess r s).1

theorem memory_afterAccess (s : State) : s.afterAccess.mem = s.mem ∧ s.afterAccess.stored = s.stored := by
  obtain ⟨_, _, _, _, _, e⟩ := afterAccess_eq s
  rw [e]
  exact ⟨rfl, rfl⟩

theorem loaded_refl (s : State) : Loaded s s := ⟨s.gpr, disturbed_refl s⟩

theorem stored_refl (s : State) : Stored s s := ⟨s.mem, s.stored, disturbed_refl s⟩

theorem loaded_setGpr (h : Loaded s u) (r : Reg) (v : Word) : Loaded s (u.setGpr r v).afterAccess :=
  loaded_trans s u _ h ⟨_, afterAccess_eq (u.setGpr r v)⟩

/-! ### An access that cannot be made (60_exceptions.md R132, R133) -/

theorem dsi_took (s : State) (ea : Word) (n : Nat) (h0 : n ≠ 0) (hn : n < 2 ^ 32) :
    TookAccessException s (s.dsi ea n) .dsi ea n :=
  ⟨(takeException_took (s.faultRegisters ea n) .dsi s.pc 0).of_draws (s := { s with
      dar := (s.faultRegisters ea n).dar, dsisr := (s.faultRegisters ea n).dsisr }),
    inOperand_mod ea _ n h0 hn⟩

theorem accessMachineCheck_stops (s : State) (h : msrME s.msr = false) :
    s.accessMachineCheck = { s with checkstop := true, draws := s.draws + 1 } :=
  if_neg (Bool.eq_false_iff.mp h)

theorem accessMachineCheck_enters (s : State) (h : msrME s.msr = true) :
    s.accessMachineCheck =
      (s.skip 3).takeException .machineCheck ((s.skip 1).drawn 0) ((s.skip 1).drawn 1) s.drawnBool :=
  if_pos h

/-- With `corrupt`, SRR1[30] is 0 and says that the MSR is not saved; without it the MSR is (60_exceptions.md R169). -/
theorem takeException_srr1_saved (s : State) (T : ExcType) (a info : Word) (corrupt : Bool)
    (h : (s.takeException T a info corrupt).srr1.getMsbD 30 = true) :
    (s.takeException T a info corrupt).srr1 &&& 0x0000FF73 = s.msr &&& 0x0000FF73 := by
  cases corrupt with
  | false => exact savedStatus_saved s.params s.msr info _
  | true =>
    have hclear : (s.drawn 0 &&& ~~~0x00000002 : Word).getMsbD 30 = false := by simp [BitVec.getMsbD]
    exact absurd (hclear.symm.trans h) Bool.false_ne_true

theorem accessMachineCheck_took (s : State) : TookMachineCheck s s.accessMachineCheck where
  msr h := by rw [accessMachineCheck_enters s h]; rfl
  pc h := by
    rw [accessMachineCheck_enters s h]
    show vectorAddress (msrIP s.msr) .machineCheck = _
    cases msrIP s.msr <;> rfl
  saved h := by
    rw [accessMachineCheck_enters s h]
    exact takeException_srr1_saved (s.skip 3) _ _ _ _
  frame h := by rw [accessMachineCheck_enters s h]; rfl
  stops h := by rw [accessMachineCheck_stops s h]

theorem accessException_took (s : State) (f : AccessFault) (ea : Word) (n : Nat) (h0 : n ≠ 0) (hn : n < 2 ^ 32) :
    TookAccessFault s (s.accessException f ea n) f ea n := by
  cases f with
  | machineCheck => exact accessMachineCheck_took s
  | storage cause => exact dsi_took s ea n h0 hn

end Access

/-! ### Accesses element by element (42_load_store_multiple_and_string.md R100) -/

/-- `n` elements from element `k` on, each accessed by `act`, until one cannot be: what the four loops of the multiple
and string instructions have in common. -/
def accessRun (act : Nat → State → Except AccessFault State) : Nat → Nat → State → State × Option AccessFault
  | 0, _, s => (s, none)
  | n + 1, k, s =>
    match act k s with
    | .ok t => accessRun act n (k + 1) t
    | .error f => (s, some f)

/-- Element `k` of a multiple load. -/
def loadWordAt (rd : Reg) (ea : Word) (k : Nat) (s : State) : Except AccessFault State :=
  (s.readWord (ea + BitVec.ofNat 32 (4 * k))).map fun v => (s.setGpr (rd + BitVec.ofNat 5 k) v).afterAccess

/-- Element `k` of a multiple store. -/
def storeWordAt (rs : Reg) (ea : Word) (k : Nat) (s : State) : Except AccessFault State :=
  s.writeWord (ea + BitVec.ofNat 32 (4 * k)) (s.readGpr (rs + BitVec.ofNat 5 k))

/-- Byte `k` of a string load. -/
def loadByteAt (rd : Reg) (ea : Word) (k : Nat) (s : State) : Except AccessFault State :=
  (s.readBytes .load (ea + BitVec.ofNat 32 k) 1).map fun bs =>
    let r := rd + BitVec.ofNat 5 (k / 4)
    (s.setGpr r (insertByte (s.readGpr r) (k % 4) (bs.headD Memory.unlisted))).afterAccess

/-- Byte `k` of a string store. -/
def storeByteAt (rs : Reg) (ea : Word) (k : Nat) (s : State) : Except AccessFault State :=
  s.writeBytes (ea + BitVec.ofNat 32 k) [selectByte (s.readGpr (rs + BitVec.ofNat 5 (k / 4))) (k % 4)]

theorem operandAddress_next (ea : Word) (k : Nat) :
    ea + BitVec.ofNat 32 (4 * k) + 4 = ea + BitVec.ofNat 32 (4 * (k + 1)) := operandAddress_add ea (4 * k) 4

theorem loadWords_eq_accessRun (rd : Reg) (ea : Word) (n k : Nat) (s : State) :
    State.loadWords ((List.range' k n).map fun i => rd + BitVec.ofNat 5 i) (ea + BitVec.ofNat 32 (4 * k)) s =
      accessRun (loadWordAt rd ea) n k s := by
  induction n generalizing k s with
  | zero => rfl
  | succ n ih =>
    simp only [List.range'_succ, List.map_cons, State.loadWords, accessRun, loadWordAt, operandAddress_next]
    cases s.readWord (ea + BitVec.ofNat 32 (4 * k)) with
    | ok v => exact ih (k + 1) _
    | error f => rfl

theorem storeWords_eq_accessRun (rs : Reg) (ea : Word) (n k : Nat) (s : State) :
    State.storeWords ((List.range' k n).map fun i => rs + BitVec.ofNat 5 i) (ea + BitVec.ofNat 32 (4 * k)) s =
      accessRun (storeWordAt rs ea) n k s := by
  induction n generalizing k s with
  | zero => rfl
  | succ n ih =>
    simp only [List.range'_succ, List.map_cons, State.storeWords, accessRun, storeWordAt, operandAddress_next]
    cases s.writeWord (ea + BitVec.ofNat 32 (4 * k)) (s.readGpr (rs + BitVec.ofNat 5 k)) with
    | ok t => exact ih (k + 1) t
    | error f => rfl

theorem loadString_eq_accessRun (rd : Reg) (ea : Word) (n k : Nat) (s : State) :
    State.loadString rd ea n k s = accessRun (loadByteAt rd ea) n k s := by
  induction n generalizing k s with
  | zero => rfl
  | succ n ih =>
    simp only [State.loadString, accessRun, loadByteAt]
    cases s.readBytes .load (ea + BitVec.ofNat 32 k) 1 with
    | ok bs => exact ih (k + 1) _
    | error f => rfl

theorem storeString_eq_accessRun (rs : Reg) (ea : Word) (n k : Nat) (s : State) :
    State.storeString rs ea n k s = accessRun (storeByteAt rs ea) n k s := by
  induction n generalizing k s with
  | zero => rfl
  | succ n ih =>
    simp only [State.storeString, accessRun, storeByteAt]
    cases s.writeBytes (ea + BitVec.ofNat 32 k) [selectByte (s.readGpr (rs + BitVec.ofNat 5 (k / 4))) (k % 4)] with
    | ok t => exact ih (k + 1) t
    | error f => rfl

theorem loadWords_registersFrom (rd : Reg) (ea : Word) (s : State) :
    State.loadWords (registersFrom rd) ea s = accessRun (loadWordAt rd ea) (32 - rd.toNat) 0 s := by
  rw [← loadWords_eq_accessRun, ← List.range_eq_range']
  exact congrArg (State.loadWords _ · s) (BitVec.add_zero ea).symm

theorem storeWords_registersFrom (rs : Reg) (ea : Word) (s : State) :
    State.storeWords (registersFrom rs) ea s = accessRun (storeWordAt rs ea) (32 - rs.toNat) 0 s := by
  rw [← storeWords_eq_accessRun, ← List.range_eq_range']
  exact congrArg (State.storeWords _ · s) (BitVec.add_zero ea).symm

/-- A run stopped at element `k` ends in a state with the property that each element before it carries on to the
next. -/
theorem accessRun_stops {act : Nat → State → Except AccessFault State} {P : Nat → State → Prop} {k : Nat}
    {f : AccessFault} (hact : ∀ j < k, ∀ u, P j u → ∃ t, act j u = .ok t ∧ P (j + 1) t)
    (hstop : ∀ u, P k u → act k u = .error f) (n i : Nat) (s : State) (hi : i ≤ k) (hn : k < i + n) (hs : P i s) :
    ∃ b, accessRun act n i s = (b, some f) ∧ P k b := by
  induction n generalizing i s with
  | zero => omega
  | succ n ih =>
    unfold accessRun
    rcases Nat.lt_or_eq_of_le hi with hlt | rfl
    · obtain ⟨t, e, ht⟩ := hact i hlt s hs
      rw [e]
      exact ih (i + 1) t hlt (by omega) ht
    · rw [hstop s hs]
      exact ⟨s, rfl, hs⟩

/-- What each element of a run keeps, the run keeps, wherever it ends. -/
theorem accessRun_keeps {act : Nat → State → Except AccessFault State} {P : State → Prop} (n k : Nat) (s : State)
    (hact : ∀ j, j < k + n → ∀ u t, P u → act j u = .ok t → P t) (hs : P s) : P (accessRun act n k s).1 := by
  induction n generalizing k s with
  | zero => exact hs
  | succ n ih =>
    unfold accessRun
    split
    · next t e => exact ih (k + 1) t (fun j hj => hact j (by omega)) (hact k (by omega) s t hs e)
    · exact hs

/-! ### The multiple and string instructions where no alignment exception is taken (42 R101 to R106) -/

section Performed

variable (s : State) (w : Word) (r ra rb : Reg) (ea : Word) (n : Nat) (d : BitVec 16) (nb : BitVec 5)

theorem execLmw_performs (hform : ra.toNat < r.toNat)
    (hp : s.performs (s.multipleCauses (s.displacedAddress ra d) (4 * (32 - r.toNat)))) :
    execLmw r ra d s = finishAccess s.msr (encode (.lmw r ra d)) (s.displacedAddress ra d) (4 * (32 - r.toNat))
      (State.loadWords (registersFrom r) (s.displacedAddress ra d) s) := by
  rw [execLmw, if_neg (Nat.not_le.mpr hform)]
  exact withAlignment_performs s _ _ _ _ _ _ hp

theorem execStmw_performs (hp : s.performs (s.multipleCauses (s.displacedAddress ra d) (4 * (32 - r.toNat)))) :
    execStmw r ra d s = finishAccess s.msr (encode (.stmw r ra d)) (s.displacedAddress ra d) (4 * (32 - r.toNat))
      (State.storeWords (registersFrom r) (s.displacedAddress ra d) s) :=
  withAlignment_performs s _ _ _ _ _ _ hp

theorem loadStringFrom_performs (hp : s.performs (s.stringCauses ea n)) :
    s.loadStringFrom w r ea n = finishAccess s.msr w ea n (State.loadString r ea n 0 (s.noBytes r n)) :=
  withAlignment_performs s _ _ _ _ _ _ hp

theorem storeStringTo_performs (hp : s.performs (s.stringCauses ea n)) :
    s.storeStringTo w r ea n = finishAccess s.msr w ea n (State.storeString r ea n 0 s) :=
  withAlignment_performs s _ _ _ _ _ _ hp

/-- An access that was made to its end completes the instruction. -/
theorem completes_of_run {s t : State} {o : Host.Outcome State Fault Refusal} {w ea : Word} {n : Nat}
    {r : State × Option AccessFault} (hexec : o = finishAccess s.msr w ea n r) (hrun : r = (t, none))
    (hp : t.params = s.params) : ∃ u, o = .next u ∧ Retired s w t.advance u :=
  ⟨_, hexec.trans (congrArg _ hrun), retire_retired s t.advance w hp⟩

/-- One that was stopped takes the exception from the state it was stopped in. -/
theorem faults_of_run {s b : State} {o : Host.Outcome State Fault Refusal} {w ea : Word} {n : Nat} {f : AccessFault}
    {r : State × Option AccessFault} (hexec : o = finishAccess s.msr w ea n r) (hrun : r = (b, some f))
    (h0 : n ≠ 0) (hn : n < 2 ^ 32) : ∃ t, o = .next t ∧ TookAccessFault b t f ea n :=
  ⟨_, hexec.trans (congrArg _ hrun), accessException_took b f ea n h0 hn⟩

theorem noBytes_of_ne_zero (h : n ≠ 0) : s.noBytes r n = s := if_neg h

/-- The string loads as the statements list them: instruction, effective address and byte count. -/
def stringLoads : List (Instr × Word × Nat) :=
  [(.lswi r ra nb, s.regOrZero ra, immediateCount nb), (.lswx r ra rb, s.indexedAddress ra rb, s.xer.toNat % 128)]

/-- The string stores likewise. -/
def stringStores : List (Instr × Word × Nat) :=
  [(.stswi r ra nb, s.regOrZero ra, immediateCount nb), (.stswx r ra rb, s.indexedAddress ra rb, s.xer.toNat % 128)]

theorem immediateCount_le : immediateCount nb ≤ 128 := by
  have := nb.isLt
  unfold immediateCount
  split <;> omega

theorem xerCount_le : s.xer.toNat % 128 ≤ 128 := (Nat.mod_lt _ (by decide)).le

variable {s r ra rb nb} {p : Instr × Word × Nat}

theorem exec_stringLoads (h : p ∈ stringLoads s r ra rb nb) (ha : loadedByString r ra p.2.2 = false)
    (hx : p.1 ∉ [Instr.lswx r ra rb] ∨ (r ≠ ra ∧ r ≠ rb ∧ loadedByString r rb p.2.2 = false)) :
    exec p.1 s = s.loadStringFrom (encode p.1) r p.2.1 p.2.2 ∧ p.2.2 ≤ 128 := by
  rcases List.mem_pair.mp h with rfl | rfl
  · exact ⟨execLswi_valid s r ra nb ha, immediateCount_le nb⟩
  · obtain ⟨hra, hrb, hb⟩ := hx.resolve_left (by simp)
    have e := execLswx_valid s r ra rb hra hrb (byteCount_eq s ▸ ha) (byteCount_eq s ▸ hb)
    exact ⟨byteCount_eq s ▸ e, xerCount_le s⟩

theorem exec_stringStores (h : p ∈ stringStores s r ra rb nb) :
    exec p.1 s = s.storeStringTo (encode p.1) r p.2.1 p.2.2 ∧ p.2.2 ≤ 128 := by
  rcases List.mem_pair.mp h with rfl | rfl
  · exact ⟨rfl, immediateCount_le nb⟩
  · have e : exec (.stswx r ra rb) s = _ := congrArg (s.storeStringTo _ r _) (byteCount_eq s)
    exact ⟨e, xerCount_le s⟩

end Performed

/-- The registers of a multiple, by number. -/
theorem registersFrom_getElem_eq (r q : Reg) (h : r.toNat ≤ q.toNat)
    (hi : q.toNat - r.toNat < (registersFrom r).length) : (registersFrom r)[q.toNat - r.toNat] = q :=
  BitVec.eq_of_toNat_eq ((registersFrom_getElem r _ hi).trans (Nat.add_sub_cancel' h))

theorem index_lt_registersFrom (r q : Reg) : q.toNat - r.toNat < (registersFrom r).length := by
  have := q.isLt
  have := r.isLt
  rw [registersFrom_length]
  omega

/-- Loading no byte yet: the registers hold a string of length 0. -/
theorem stringLoaded_zero (s : State) (rd : Reg) (ea : Word) : StringLoaded s rd ea 0 s.gpr :=
  ⟨fun _ h => absurd h (Nat.not_lt_zero _), fun _ _ h => absurd h (Nat.not_lt_zero _), fun _ _ => rfl⟩

theorem stringStored_zero (s : State) (rs : Reg) (ea : Word) (hm : Memory.wf s.mem) :
    StringStored s rs ea 0 s.mem s.stored :=
  ⟨fun _ h => absurd h (Nat.not_lt_zero _), fun _ _ => rfl, fun _ => by simp [inOperand], hm⟩

/-! ### Loads stopped part-way (42 R100, R101, R103) -/

/-- `b` is `s` after the first `k` words of a multiple load, the bytes of word `i` being at the addresses `as i`. -/
structure WordsLoaded (s : State) (rd : Reg) (as : Nat → List Nat) (k : Nat) (b : State) : Prop where
  loaded : Loaded s b
  words : ∀ i < k, b.readGpr (rd + BitVec.ofNat 5 i) = wordOfBytes (msrLE s.msr) ((as i).map s.mem.read)
  others : ∀ q : Reg, q.toNat < rd.toNat ∨ rd.toNat + k ≤ q.toNat → b.readGpr q = s.readGpr q

/-- `b` is `s` after the first `k` bytes of a string load; the bytes of the last register that are not loaded yet
are 0. -/
structure BytesLoaded (s : State) (rd : Reg) (bytes : Nat → Byte) (k : Nat) (b : State) : Prop where
  loaded : Loaded s b
  bytes : ∀ j < 4 * ((k + 3) / 4),
    selectByte (b.readGpr (rd + BitVec.ofNat 5 (j / 4))) (j % 4) = if j < k then bytes j else 0
  others : ∀ q : Reg, (k + 3) / 4 ≤ (q - rd).toNat → b.readGpr q = s.readGpr q

theorem mem_msr_of_loaded {s t : State} (h : Loaded s t) : t.mem = s.mem ∧ t.msr = s.msr := by
  obtain ⟨_, _, _, _, _, _, rfl⟩ := h
  exact ⟨rfl, rfl⟩

theorem wordsLoaded_zero (s : State) (rd : Reg) (as : Nat → List Nat) : WordsLoaded s rd as 0 s :=
  ⟨loaded_refl s, fun _ h => absurd h (Nat.not_lt_zero _), fun _ _ => rfl⟩

theorem bytesLoaded_zero (s : State) (rd : Reg) (bytes : Nat → Byte) : BytesLoaded s rd bytes 0 s :=
  ⟨loaded_refl s, fun _ h => absurd h (Nat.not_lt_zero _), fun _ _ => rfl⟩

/-- The register of word `k`, none being past r31. -/
theorem wordRegister_toNat (rd : Reg) (k : Nat) (hk : k < 32 - rd.toNat) :
    (rd + BitVec.ofNat 5 k).toNat = rd.toNat + k := by
  rw [BitVec.toNat_add, BitVec.toNat_ofNat]
  omega

theorem wordsLoaded_step {s u : State} {rd : Reg} {as : Nat → List Nat} {k : Nat} (hk : k < 32 - rd.toNat)
    (h : WordsLoaded s rd as k u) :
    WordsLoaded s rd as (k + 1) (u.setGpr (rd + BitVec.ofNat 5 k)
      (wordOfBytes (msrLE s.msr) ((as k).map s.mem.read))).afterAccess where
  loaded := loaded_setGpr h.loaded _ _
  words i hi := by
    rw [readGpr_afterAccess]
    rcases Nat.lt_succ_iff_lt_or_eq.mp hi with hlt | rfl
    · rw [readGpr_setGpr_other, h.words i hlt]
      intro e
      have := congrArg BitVec.toNat e
      rw [wordRegister_toNat rd i (by omega), wordRegister_toNat rd k hk] at this
      omega
    · exact readGpr_setGpr_same u _ _
  others q hq := by
    rw [readGpr_afterAccess, readGpr_setGpr_other, h.others q (by omega)]
    rintro rfl
    rw [wordRegister_toNat rd k hk] at hq
    omega

/-- Byte `j` of the registers of a string, after byte `k` has been put into them (42 R103). -/
theorem stringByte_set (u : State) (rd : Reg) (k j : Nat) (b : Byte) (hk : k < 128) (hj : j < 128) :
    let r := rd + BitVec.ofNat 5 (k / 4)
    selectByte ((u.setGpr r (insertByte (u.readGpr r) (k % 4) b)).readGpr (rd + BitVec.ofNat 5 (j / 4))) (j % 4) =
      if j = k then b else if j / 4 = k / 4 ∧ k % 4 = 0 then 0
      else selectByte (u.readGpr (rd + BitVec.ofNat 5 (j / 4))) (j % 4) := by
  intro r
  by_cases hq : j / 4 = k / 4
  · have hplace : j % 4 = k % 4 ↔ j = k := by omega
    rw [hq, readGpr_setGpr_same, selectByte_insertByte _ _ _ (Nat.mod_lt _ (by decide)) _ (Nat.mod_lt _ (by decide))]
    simp only [hplace, true_and]
    rfl
  · rw [readGpr_setGpr_other, if_neg (by rintro rfl; exact hq rfl), if_neg (fun h => hq h.1)]
    exact fun e => hq (stringRegister_injective rd _ _ (by omega) (by omega) (congrArg BitVec.toNat e))

theorem bytesLoaded_step {s u : State} {rd : Reg} {bytes : Nat → Byte} {k : Nat} (hk : k < 128)
    (h : BytesLoaded s rd bytes k u) :
    BytesLoaded s rd bytes (k + 1) (u.setGpr (rd + BitVec.ofNat 5 (k / 4))
      (insertByte (u.readGpr (rd + BitVec.ofNat 5 (k / 4))) (k % 4) (bytes k))).afterAccess where
  loaded := loaded_setGpr h.loaded _ _
  bytes j hj := by
    rw [readGpr_afterAccess, stringByte_set u rd k j (bytes k) hk (by omega)]
    rcases Nat.lt_trichotomy j k with hlt | rfl | hgt
    · rw [if_neg hlt.ne, if_neg (by omega), h.bytes j (by omega), if_pos hlt, if_pos (by omega)]
    · rw [if_pos rfl, if_pos (Nat.lt_succ_self j)]
    · rw [if_neg hgt.ne', if_neg (by omega : ¬j < k + 1)]
      split
      · rfl
      · rw [h.bytes j (by omega), if_neg (by omega)]
  others q hq := by
    rw [readGpr_afterAccess, readGpr_setGpr_other, h.others q (by omega)]
    exact ne_stringRegister (n := 0) hq

section Stopped

variable {s : State} {rd : Reg} {ea : Word} {as : Nat → List Nat} {k : Nat} {f : AccessFault}

theorem loadWords_stopped (hk : k < 32 - rd.toNat)
    (hok : ∀ j < k, s.physBytes .load (ea + BitVec.ofNat 32 (4 * j)) 4 = .ok (as j))
    (herr : s.physBytes .load (ea + BitVec.ofNat 32 (4 * k)) 4 = .error f) :
    ∃ b, State.loadWords (registersFrom rd) ea s = (b, some f) ∧ WordsLoaded s rd as k b := by
  rw [loadWords_registersFrom]
  refine accessRun_stops (P := WordsLoaded s rd as)
    (fun j hj u hu => ⟨_, ?_, wordsLoaded_step (hj.trans hk) hu⟩) (fun u hu => ?_) _ 0 s (Nat.zero_le k)
    (by rwa [Nat.zero_add]) (wordsLoaded_zero s rd as)
  · obtain ⟨hmem, hmsr⟩ := mem_msr_of_loaded hu.loaded
    rw [loadWordAt, readWord_eq_map, physBytes_of_loaded hu.loaded, hok j hj, hmem, hmsr]
    rfl
  · rw [loadWordAt, readWord_eq_map, physBytes_of_loaded hu.loaded, herr]
    rfl

/-- The byte a load of one byte finds. -/
def firstByte (s : State) (as : List Nat) : Byte := (as.map s.mem.read).headD Memory.unlisted

theorem singleton_firstByte (s : State) (ea : Word) (l : List Nat) (h : s.physBytes .load ea 1 = .ok l) :
    [firstByte s l] = l.map s.mem.read := by
  obtain ⟨a, rfl⟩ := List.length_eq_one_iff.mp (physBytes_ok s _ _ _ l h).1
  rfl

theorem loadString_stopped {n : Nat} (hk : k < n) (hn : n ≤ 128)
    (hok : ∀ j < k, s.physBytes .load (ea + BitVec.ofNat 32 j) 1 = .ok (as j))
    (herr : s.physBytes .load (ea + BitVec.ofNat 32 k) 1 = .error f) :
    ∃ b, State.loadString rd ea n 0 s = (b, some f) ∧ BytesLoaded s rd (fun j => firstByte s (as j)) k b := by
  rw [loadString_eq_accessRun]
  refine accessRun_stops (P := BytesLoaded s rd fun j => firstByte s (as j))
    (fun j hj u hu => ⟨_, ?_, bytesLoaded_step (by omega) hu⟩) (fun u hu => ?_) n 0 s (Nat.zero_le k)
    (by rwa [Nat.zero_add]) (bytesLoaded_zero s rd _)
  · rw [loadByteAt, readBytes_eq_map, physBytes_of_loaded hu.loaded, hok j hj, (mem_msr_of_loaded hu.loaded).1]
    rfl
  · rw [loadByteAt, readBytes_eq_map, physBytes_of_loaded hu.loaded, herr]
    rfl

end Stopped

/-- A load leaves all but the general registers, and SRR0 and SRR1 where they are volatile. -/
theorem frame_of_loaded {s b : State} (h : Loaded s b) : b = { s with
    gpr := b.gpr, srr0 := b.srr0, srr1 := b.srr1, srr0Undefined := b.srr0Undefined,
    srr1Undefined := b.srr1Undefined, draws := b.draws } := by
  obtain ⟨_, _, _, _, _, _, rfl⟩ := h
  rfl

/-! ### Stores stopped part-way (42 R100, R102, R105) -/

/-- `b` is `s` after the first `k` elements of a store, element `j` being `bytes j`, stored at the addresses `as j`. -/
structure ElementsStored (s : State) (as : Nat → List Nat) (bytes : Nat → List Byte) (k : Nat) (b : State) : Prop where
  stored : Stored s b
  wf : Memory.wf b.mem
  content : ∀ j < k, (as j).map b.mem.read = bytes j
  others : ∀ a, (∀ j < k, a ∉ as j) → b.mem.read a = s.mem.read a
  recorded : ∀ a, a ∈ b.stored ↔ a ∈ s.stored ∨ ∃ j < k, a ∈ as j

theorem elementsStored_zero (s : State) (as : Nat → List Nat) (bytes : Nat → List Byte) (hm : Memory.wf s.mem) :
    ElementsStored s as bytes 0 s :=
  ⟨stored_refl s, hm, fun _ h => absurd h (Nat.not_lt_zero _), fun _ _ => rfl, fun _ => by simp⟩

theorem stored_storeBytes (s : State) (as : List Nat) (bs : List Byte) :
    Stored s (State.storeBytes as bs s).afterAccess := by
  obtain ⟨m, l, e⟩ := storeBytes_eq as bs s
  exact ⟨m, l, e ▸ afterAccess_eq (State.storeBytes as bs s)⟩

/-- Bytes stored at as many distinct addresses read back there. -/
theorem map_read_storeBytes (s : State) (as : List Nat) (bs : List Byte) (hm : Memory.wf s.mem)
    (ha : ∀ a ∈ as, a < 2 ^ 32) (hd : as.Nodup) (hlen : as.length = bs.length) :
    as.map (State.storeBytes as bs s).mem.read = bs := by
  refine List.ext_getElem (by rwa [List.length_map]) fun i hi hb => ?_
  rw [List.getElem_map]
  exact storeBytes_read_same as bs s i hm ha hd (hlen ▸ hb) hb

theorem elementsStored_step {s u : State} {as : Nat → List Nat} {bytes : Nat → List Byte} {k : Nat}
    (hlen : (as k).length = (bytes k).length) (ha : ∀ a ∈ as k, a < 2 ^ 32) (hd : (as k).Nodup)
    (happart : ∀ j < k, ∀ a ∈ as j, a ∉ as k) (h : ElementsStored s as bytes k u) :
    ElementsStored s as bytes (k + 1) (State.storeBytes (as k) (bytes k) u).afterAccess := by
  obtain ⟨hmem, hlist⟩ := memory_afterAccess (State.storeBytes (as k) (bytes k) u)
  refine ⟨stored_trans s u _ h.stored (stored_storeBytes u _ _), ?_, fun j hj => ?_, fun a hout => ?_, fun a => ?_⟩
  · rw [hmem]
    exact storeBytes_memory_wf _ _ u h.wf ha
  · rw [hmem]
    rcases Nat.lt_succ_iff_lt_or_eq.mp hj with hlt | rfl
    · rw [← h.content j hlt]
      exact List.map_congr_left fun a hin => storeBytes_read_other _ _ u a (happart j hlt a hin)
    · exact map_read_storeBytes u _ _ h.wf ha hd hlen
  · rw [hmem, storeBytes_read_other _ _ u a (hout k (Nat.lt_succ_self k))]
    exact h.others a fun j hj => hout j (Nat.lt_succ_of_lt hj)
  · rw [hlist, mem_stored_storeBytes _ _ u hlen.le, h.recorded a, or_assoc]
    simp only [Nat.lt_succ_iff_lt_or_eq, or_and_right, exists_or, exists_eq_left]

/-- Elements at addresses that all differ: each has no address twice, and none of another's. -/
theorem elements_apart {as : Nat → List Nat} {k : Nat} (h : ((List.range k).flatMap as).Nodup) :
    (∀ j < k, (as j).Nodup) ∧ ∀ i < k, ∀ j < i, ∀ a ∈ as j, a ∉ as i := by
  obtain ⟨hone, htwo⟩ := List.nodup_flatMap.mp h
  refine ⟨fun j hj => hone j (List.mem_range.mpr hj), fun i hi j hj a haj hai => ?_⟩
  have hlen : (List.range k).length = k := List.length_range
  have hji := List.pairwise_iff_getElem.mp htwo j i (by omega) (by omega) hj
  simp only [List.getElem_range] at hji
  exact hji haj hai

section Stopped

variable {s : State} {rs : Reg} {ea : Word} {as : Nat → List Nat} {k n : Nat} {f : AccessFault}

/-- A run of stores, element `j` being `bytes j` at the address `addr j`, stopped at element `k`. -/
theorem storeRun_stopped {act : Nat → State → Except AccessFault State} {addr : Nat → Word} {bytes : Nat → List Byte}
    (hact : ∀ j u, Stored s u → act j u = u.writeBytes (addr j) (bytes j)) (hm : Memory.wf s.mem)
    (hapart : ((List.range k).flatMap as).Nodup) (hk : k < n)
    (hok : ∀ j < k, s.physBytes .store (addr j) (bytes j).length = .ok (as j))
    (herr : s.physBytes .store (addr k) (bytes k).length = .error f) :
    ∃ b, accessRun act n 0 s = (b, some f) ∧ ElementsStored s as bytes k b := by
  obtain ⟨hone, htwo⟩ := elements_apart hapart
  refine accessRun_stops (P := ElementsStored s as bytes)
    (fun j hj u hu => ⟨(State.storeBytes (as j) (bytes j) u).afterAccess, ?_, ?_⟩) (fun u hu => ?_) n 0 s
    (Nat.zero_le k) (by rwa [Nat.zero_add]) (elementsStored_zero s as bytes hm)
  · rw [hact j u hu.stored, writeBytes_eq_map, physBytes_of_stored hu.stored, hok j hj]
    rfl
  · obtain ⟨hlen, ha⟩ := physBytes_ok s _ _ _ _ (hok j hj)
    exact elementsStored_step hlen (fun a h => (ha a h).1) (hone j hj) (htwo j hj) hu
  · rw [hact k u hu.stored, writeBytes_eq_map, physBytes_of_stored hu.stored, herr]
    rfl

theorem storeWordAt_of_stored {u : State} (h : Stored s u) (j : Nat) :
    storeWordAt rs ea j u = u.writeBytes (ea + BitVec.ofNat 32 (4 * j))
      (bytesOfWord (msrLE s.msr) (s.readGpr (rs + BitVec.ofNat 5 j))) := by
  obtain ⟨_, _, _, _, _, _, _, rfl⟩ := h
  rfl

theorem storeByteAt_of_stored {u : State} (h : Stored s u) (j : Nat) :
    storeByteAt rs ea j u = u.writeBytes (ea + BitVec.ofNat 32 j)
      [selectByte (s.readGpr (rs + BitVec.ofNat 5 (j / 4))) (j % 4)] := by
  obtain ⟨_, _, _, _, _, _, _, rfl⟩ := h
  rfl

theorem storeWords_stopped (hm : Memory.wf s.mem) (hapart : ((List.range k).flatMap as).Nodup)
    (hk : k < 32 - rs.toNat) (hok : ∀ j < k, s.physBytes .store (ea + BitVec.ofNat 32 (4 * j)) 4 = .ok (as j))
    (herr : s.physBytes .store (ea + BitVec.ofNat 32 (4 * k)) 4 = .error f) :
    ∃ b, State.storeWords (registersFrom rs) ea s = (b, some f) ∧
      ElementsStored s as (fun j => bytesOfWord (msrLE s.msr) (s.readGpr (rs + BitVec.ofNat 5 j))) k b := by
  rw [storeWords_registersFrom]
  exact storeRun_stopped (fun j u hu => storeWordAt_of_stored hu j) hm hapart hk
    (fun j hj => by rw [bytesOfWord_length, hok j hj]) (by rw [bytesOfWord_length, herr])

theorem storeString_stopped (hm : Memory.wf s.mem) (hapart : ((List.range k).flatMap as).Nodup)
    (hk : k < n) (hok : ∀ j < k, s.physBytes .store (ea + BitVec.ofNat 32 j) 1 = .ok (as j))
    (herr : s.physBytes .store (ea + BitVec.ofNat 32 k) 1 = .error f) :
    ∃ b, State.storeString rs ea n 0 s = (b, some f) ∧
      ElementsStored s as (fun j => [selectByte (s.readGpr (rs + BitVec.ofNat 5 (j / 4))) (j % 4)]) k b := by
  rw [storeString_eq_accessRun]
  exact storeRun_stopped (fun j u hu => storeByteAt_of_stored hu j) hm hapart hk hok herr

end Stopped

/-- A store leaves all but memory, the list of stored addresses, and SRR0 and SRR1 where they are volatile. -/
theorem frame_of_stored {s b : State} (h : Stored s b) : b = { s with
    mem := b.mem, stored := b.stored, srr0 := b.srr0, srr1 := b.srr1, srr0Undefined := b.srr0Undefined,
    srr1Undefined := b.srr1Undefined, draws := b.draws } := by
  obtain ⟨_, _, _, _, _, _, _, rfl⟩ := h
  rfl

/-! ### Every path of a store (42 R100, 43 R111) -/

/-- Address `a` is the physical address of one of the `n` bytes at `ea`, as a store translates them. -/
def State.storesTo (s : State) (ea : Word) (n a : Nat) : Prop :=
  ∃ i < n, (s.physicalAddress .store (ea + BitVec.ofNat 32 i)).map BitVec.toNat = some a

/-- From `s` to `t` no byte has changed but at the physical addresses of the `n` bytes at `ea`. -/
def OnlyStoresTo (s : State) (ea : Word) (n : Nat) (t : State) : Prop :=
  ∀ a, ¬s.storesTo ea n a → t.mem.read a = s.mem.read a

theorem storesTo_of_mem_physBytes {s : State} {ea : Word} {n : Nat} {as : List Nat}
    (h : s.physBytes .store ea n = .ok as) {a : Nat} (ha : a ∈ as) : s.storesTo ea n a := by
  unfold State.physBytes at h
  extract_lets ts at h
  split at h
  · cases h
  · obtain ⟨pa, hpa, rfl⟩ := (collectAddresses_ok ts as h).2 a ha
    obtain ⟨i, hi, e⟩ := List.mem_map.mp hpa
    exact ⟨i, List.mem_range.mp hi, by rw [State.physicalAddress, e]; rfl⟩

theorem storesTo_of_part {s : State} {ea : Word} {i m n a : Nat} (h : s.storesTo (ea + BitVec.ofNat 32 i) m a)
    (hn : i + m ≤ n) : s.storesTo ea n a := by
  obtain ⟨j, hj, e⟩ := h
  rw [operandAddress_add] at e
  exact ⟨i + j, by omega, e⟩

theorem storesTo_of_stored {s u : State} (h : Stored s u) {ea : Word} {n a : Nat} (hu : u.storesTo ea n a) :
    s.storesTo ea n a := by
  obtain ⟨_, _, _, _, _, _, _, rfl⟩ := h
  exact hu

theorem onlyStoresTo_refl (s : State) (ea : Word) (n : Nat) : OnlyStoresTo s ea n s := fun _ _ => rfl

theorem onlyStoresTo_congr {s t u : State} {ea : Word} {n : Nat} (h : OnlyStoresTo s ea n t) (e : u.mem = t.mem) :
    OnlyStoresTo s ea n u := fun a ha => e ▸ h a ha

theorem onlyStoresTo_writeBytes {s t : State} {ea : Word} {bs : List Byte} (h : s.writeBytes ea bs = .ok t) :
    OnlyStoresTo s ea bs.length t := by
  intro a ha
  rw [writeBytes_eq_map] at h
  cases hp : s.physBytes .store ea bs.length with
  | error f => rw [hp] at h; cases h
  | ok as =>
    rw [hp] at h
    obtain rfl : (State.storeBytes as bs s).afterAccess = t := Except.ok.inj h
    rw [(memory_afterAccess _).1]
    exact storeBytes_read_other as bs s a fun hin => ha (storesTo_of_mem_physBytes hp hin)

/-- A run of stores, each within the operand, stores within it wherever the run ends. -/
theorem onlyStoresTo_accessRun {act : Nat → State → Except AccessFault State} {s : State} {ea : Word} {n size : Nat}
    (hact : ∀ j < n, ∀ u, ∃ bs : List Byte,
      act j u = u.writeBytes (ea + BitVec.ofNat 32 (size * j)) bs ∧ bs.length = size) :
    OnlyStoresTo s ea (size * n) (accessRun act n 0 s).1 := by
  refine (accessRun_keeps (P := fun u => Stored s u ∧ OnlyStoresTo s ea (size * n) u) n 0 s
    (fun j hj u t hu e => ?_) ⟨stored_refl s, onlyStoresTo_refl s ea _⟩).2
  have hjn : j < n := by omega
  obtain ⟨hstored, honly⟩ := hu
  obtain ⟨bs, hwrite, hlen⟩ := hact j hjn u
  rw [hwrite] at e
  refine ⟨stored_trans s u t hstored (writeBytes_eq u t _ bs e), fun a ha => ?_⟩
  rw [onlyStoresTo_writeBytes e a, honly a ha]
  have hpart : size * j + bs.length ≤ size * n := by
    rw [hlen, ← Nat.mul_succ]
    exact Nat.mul_le_mul_left size hjn
  exact fun hin => ha (storesTo_of_part (storesTo_of_stored hstored hin) hpart)

theorem onlyStoresTo_storeWords (rs : Reg) (ea : Word) (s : State) :
    OnlyStoresTo s ea (4 * (32 - rs.toNat)) (State.storeWords (registersFrom rs) ea s).1 := by
  rw [storeWords_registersFrom]
  exact onlyStoresTo_accessRun fun j _ u => ⟨_, rfl, bytesOfWord_length _ _⟩

theorem onlyStoresTo_storeString (rs : Reg) (ea : Word) (n : Nat) (s : State) :
    OnlyStoresTo s ea n (State.storeString rs ea n 0 s).1 := by
  have hrun := onlyStoresTo_accessRun (act := storeByteAt rs ea) (s := s) (ea := ea) (n := n) (size := 1)
    fun j _ u => ⟨_, by rw [Nat.one_mul]; rfl, rfl⟩
  rwa [Nat.one_mul, ← storeString_eq_accessRun] at hrun

theorem memory_of_entered_or_stopped {s t : State} (e : Entered s t ∨ Stopped s t) : t.mem = s.mem := by
  rcases e with ⟨_, _, _, _, _, _, rfl⟩ | ⟨_, rfl⟩ <;> rfl

theorem memory_retire (t : State) (m w : Word) : (t.retire m w).mem = t.mem := by
  rcases retire_cases t m w with e | e
  · rw [e]
  · exact memory_of_entered_or_stopped (.inl e)

section Paths

variable {s : State} {ea : Word} {n : Nat}

/-- An access under alignment conditions stores where what is performed stores. -/
theorem onlyStoresTo_withAlignment {cs : List AlignCause} {k : AccessKind} {ea' : Word} {scan size : Nat}
    {perform : State → Host.Outcome State Fault Refusal}
    (hperform : ∀ t, OnNext (OnlyStoresTo t ea n) (perform t)) :
    OnNext (OnlyStoresTo s ea n) (s.withAlignment cs k ea' scan size perform) :=
  onNext_withAlignment _ s cs k ea' scan size perform
    (fun _ e => onlyStoresTo_congr (onlyStoresTo_refl s ea n) (memory_of_entered_or_stopped e))
    fun d => hperform { s with draws := d }

theorem onlyStoresTo_finishAccess (m w ea' : Word) (size : Nat) (r : State × Option AccessFault)
    (h : OnlyStoresTo s ea n r.1) : OnNext (OnlyStoresTo s ea n) (finishAccess m w ea' size r) := by
  obtain ⟨t, f⟩ := r
  cases f with
  | none => exact onNext_of (onlyStoresTo_congr h (memory_retire t.advance m w))
  | some f => exact onNext_of (onlyStoresTo_congr h (memory_of_entered_or_stopped (accessException_cases t f ea' size)))

theorem onlyStoresTo_execStmw (rs ra : Reg) (d : BitVec 16) :
    OnNext (OnlyStoresTo s (s.displacedAddress ra d) (4 * (32 - rs.toNat))) (execStmw rs ra d s) :=
  onlyStoresTo_withAlignment fun t => onlyStoresTo_finishAccess _ _ _ _ _ (onlyStoresTo_storeWords rs _ t)

theorem onlyStoresTo_storeStringTo (w : Word) (rs : Reg) :
    OnNext (OnlyStoresTo s ea n) (s.storeStringTo w rs ea n) :=
  onlyStoresTo_withAlignment fun t => onlyStoresTo_finishAccess _ _ _ _ _ (onlyStoresTo_storeString rs ea n t)

theorem onlyStoresTo_storeConditional (m w : Word) (rs : Reg) (attempt : Bool) :
    OnNext (OnlyStoresTo s ea 4) (s.storeConditional m w rs ea attempt) := by
  unfold State.storeConditional
  split
  · split
    · next u e =>
      have hword : OnlyStoresTo s ea 4 u := bytesOfWord_length _ _ ▸ onlyStoresTo_writeBytes e
      exact onNext_of (onlyStoresTo_congr hword (memory_retire _ m w))
    · next f _ =>
      exact onNext_of (onlyStoresTo_congr (onlyStoresTo_refl s ea 4)
        (memory_of_entered_or_stopped (accessException_cases s f ea 4)))
  · exact onNext_of (onlyStoresTo_congr (onlyStoresTo_refl s ea 4) (memory_retire _ m w))

theorem onlyStoresTo_execStwcx (rs ra rb : Reg) :
    OnNext (OnlyStoresTo s (s.indexedAddress ra rb) 4) (execStwcx rs ra rb s) :=
  onlyStoresTo_withAlignment (s := s.skip 1) fun _ => onlyStoresTo_storeConditional _ _ rs _

end Paths

/-- An instruction that has no destination register leaves the general and floating-point registers. -/
theorem registers_eq_of_same {s t : State} (h : ∀ q, SameRegisters q s t) : t.gpr = s.gpr ∧ t.fpr = s.fpr :=
  ⟨Vector.ext fun i hi => by simpa [State.readGpr, Nat.mod_eq_of_lt hi] using (h (BitVec.ofNat 5 i)).1, (h 0).2⟩

end Sys2Proof.Machine

namespace Sys2Proof.Proofs

open Sys2Proof.Machine

/-- Settles O40: each form is looked at before anything else. -/
theorem invalidLoadFormsAreRefused : Obligations.InvalidLoadFormsAreRefused := by
  refine fun s rd ra rb d nb => ⟨fun h => if_pos h, fun h => if_pos (decide_eq_true h), fun h => ?_⟩
  have hform : rd = ra ∨ rd = rb ∨ loadedByString rd ra s.byteCount = true ∨
      loadedByString rd rb s.byteCount = true := by
    simpa only [loadedByString, decide_eq_true_eq, byteCount_eq] using h
  exact if_pos hform

/-- Settles O38: a string of no byte is loaded at once, after rD has taken its free value. -/
theorem lswxOfZeroBytes : Obligations.LswxOfZeroBytes := by
  intro s rd ra rb hzero ha hb hp
  have hnone (q : Reg) : loadedByString rd q s.byteCount = false := by
    simp [loadedByString, byteCount_eq, hzero]
  have hexec := execLswx_valid s rd ra rb ha hb (hnone ra) (hnone rb)
  rw [byteCount_eq, hzero, loadStringFrom_performs s _ rd (s.indexedAddress ra rb) 0 hp] at hexec
  obtain ⟨u, hnext, hretired⟩ := completes_of_run hexec rfl rfl
  exact ⟨s.drawn 0, u, hnext, hretired⟩

/-- Settles O35: `loadWords_reaches`, the register numbers being the places in the list. -/
theorem lmwLoadsWords : Obligations.LmwLoadsWords := by
  intro s rd ra d ea n hform hreach hp
  obtain ⟨g, hload, hloaded, hkept⟩ := loadWords_reaches (registersFrom rd) ea s (registersFrom_length rd ▸ hreach)
  obtain ⟨u, hnext, hretired⟩ := completes_of_run (execLmw_performs s rd ra d hform hp) hload rfl
  refine ⟨_, u, hnext, hretired, rfl, fun r => ?_⟩
  split
  · next h =>
    have hword := hloaded (registersFrom_nodup rd) _ (index_lt_registersFrom rd r)
    simp only [registersFrom_getElem_eq rd r h] at hword
    exact hword
  · next h => exact hkept r (not_mem_registersFrom rd r (Nat.not_le.mp h))

/-- Settles O36: `storeWords_reaches`, the register numbers being the places in the list. -/
theorem stmwStoresWords : Obligations.StmwStoresWords := by
  intro s rs ra d ea n hreach hp hm
  have hlen : 4 * (registersFrom rs).length = n := congrArg (4 * ·) (registersFrom_length rs)
  obtain ⟨m, l, hstore, hwords, hother, hstored⟩ := storeWords_reaches (registersFrom rs) ea s (hlen ▸ hreach) hm
    (hlen ▸ (multipleSize_bounds rs).2.le)
  rw [hlen] at hother hstored
  obtain ⟨u, hnext, hretired⟩ := completes_of_run (execStmw_performs s rs ra d hp) hstore rfl
  refine ⟨_, u, hnext, hretired, rfl, fun r h => ?_, hother, hstored⟩
  have hword := hwords _ (index_lt_registersFrom rs r)
  rwa [registersFrom_getElem_eq rs r h] at hword

/-- Settles O37: `loadString_reaches` from a string of length 0. -/
theorem stringLoadsLoadBytes : Obligations.StringLoadsLoadBytes := by
  intro s rd ra rb nb base p hmem ea n h0 ha hx hreach hp
  obtain ⟨hexec, hn⟩ := exec_stringLoads hmem ha hx
  obtain ⟨g, hload, hbytes, hclear, hkept⟩ :=
    loadString_reaches s rd ea n hn hreach n 0 (Nat.zero_add n) s.gpr (stringLoaded_zero s rd ea)
  rw [loadStringFrom_performs s _ rd _ _ hp, noBytes_of_ne_zero s rd _ h0] at hexec
  obtain ⟨u, hnext, hretired⟩ := completes_of_run hexec hload rfl
  exact ⟨_, u, hnext, hretired, rfl, hbytes, hclear, hkept⟩

/-- Settles O39: `storeString_reaches` from a string of length 0. -/
theorem stringStoresStoreBytes : Obligations.StringStoresStoreBytes := by
  intro s rs ra rb nb base p hmem ea n hreach hp hm
  obtain ⟨hexec, hn⟩ := exec_stringStores hmem
  obtain ⟨m, l, hstore, hbytes, hother, hstored, -⟩ :=
    storeString_reaches s rs ea n (hn.trans (by decide)) hreach n 0 (Nat.zero_add n) s.mem s.stored
      (stringStored_zero s rs ea hm)
  rw [storeStringTo_performs s _ rs _ _ hp] at hexec
  obtain ⟨u, hnext, hretired⟩ := completes_of_run hexec hstore rfl
  exact ⟨_, u, hnext, hretired, rfl, hbytes, hother, hstored⟩

/-- Settles O45: `WordsLoaded` and `BytesLoaded` hold of the state before each element (`accessRun_stops`). -/
theorem loadsStoppedPartWayKeepWhatTheyLoaded : Obligations.LoadsStoppedPartWayKeepWhatTheyLoaded := by
  intro s rd ra rb d nb k as f base ed part
  refine ⟨fun hform hp hk hok herr => ?_, ?_⟩
  · obtain ⟨b, hrun, hb⟩ := loadWords_stopped hk hok herr
    obtain ⟨h0, hn⟩ := multipleSize_bounds rd
    obtain ⟨t, hnext, htook⟩ := faults_of_run (execLmw_performs s rd ra d hform hp) hrun h0 hn
    exact ⟨b, t, hnext, frame_of_loaded hb.loaded, htook, hb.words, hb.others⟩
  · intro p hmem ea n ha hx hp hk hok herr
    obtain ⟨hexec, hn⟩ := exec_stringLoads hmem ha hx
    have h0 : n ≠ 0 := Nat.ne_of_gt (Nat.zero_lt_of_lt hk)
    rw [loadStringFrom_performs s _ rd _ _ hp, noBytes_of_ne_zero s rd _ h0] at hexec
    obtain ⟨b, hrun, hb⟩ := loadString_stopped (rd := rd) hk hn hok herr
    obtain ⟨t, hnext, htook⟩ := faults_of_run hexec hrun h0 (hn.trans_lt (by decide))
    refine ⟨b, t, hnext, frame_of_loaded hb.loaded, htook, fun j hj => ?_, fun j hj hj' => ?_, hb.others⟩
    · rw [hb.bytes j (by omega), if_pos hj]
      exact singleton_firstByte s _ _ (hok j hj)
    · rw [hb.bytes j hj', if_neg (Nat.not_lt.mpr hj)]

/-- Settles O46: `ElementsStored` holds of the state before each element (`storeRun_stopped`), words and bytes alike. -/
theorem storesStoppedPartWayKeepWhatTheyStored : Obligations.StoresStoppedPartWayKeepWhatTheyStored := by
  intro s rs ra rb d nb k as f base ed part hm hapart
  have hpart {bytes : Nat → List Byte} {b : State} (hb : ElementsStored s as bytes k b) : part b :=
    ⟨frame_of_stored hb.stored, hb.others, hb.recorded⟩
  refine ⟨fun hp hk hok herr => ?_, ?_⟩
  · obtain ⟨b, hrun, hb⟩ := storeWords_stopped hm hapart hk hok herr
    obtain ⟨h0, hn⟩ := multipleSize_bounds rs
    obtain ⟨t, hnext, htook⟩ := faults_of_run (execStmw_performs s rs ra d hp) hrun h0 hn
    refine ⟨b, t, hnext, hpart hb, htook, fun j hj => ?_⟩
    rw [hb.content j hj]
    exact wordOfBytes_bytesOfWord _ _
  · intro p hmem ea n hp hk hok herr
    obtain ⟨hexec, hn⟩ := exec_stringStores hmem
    rw [storeStringTo_performs s _ rs _ _ hp] at hexec
    obtain ⟨b, hrun, hb⟩ := storeString_stopped (rs := rs) hm hapart hk hok herr
    obtain ⟨t, hnext, htook⟩ :=
      faults_of_run hexec hrun (Nat.ne_of_gt (Nat.zero_lt_of_lt hk)) (hn.trans_lt (by decide))
    exact ⟨b, t, hnext, hpart hb, htook, hb.content⟩

/-- Settles O59: the registers by the frame of O60; memory by `OnlyStoresTo` over every path. -/
theorem storesChangeOnlyTheirOperand : Obligations.StoresChangeOnlyTheirOperand := by
  intro s t r ra rb d nb base p hmem hexec
  simp only [List.mem_cons, List.not_mem_nil, or_false] at hmem
  have hsame (q : Reg) : SameRegisters q s t := by
    refine onlyDestinationRegistersChange p.1 s t q hexec ?_
    rcases hmem with rfl | rfl | rfl | rfl <;> trivial
  have honly : OnlyStoresTo s p.2.1 p.2.2 t := by
    rcases hmem with rfl | rfl | rfl | rfl
    · exact onlyStoresTo_execStmw r ra d t hexec
    · exact onlyStoresTo_storeStringTo _ r t hexec
    · exact onlyStoresTo_storeStringTo _ r t (byteCount_eq s ▸ hexec)
    · exact onlyStoresTo_execStwcx r ra rb t hexec
  obtain ⟨hgpr, hfpr⟩ := registers_eq_of_same hsame
  exact ⟨hgpr, hfpr, fun a ha => honly a fun ⟨i, hi, e⟩ => ha i hi e⟩

end Sys2Proof.Proofs

/-! SUPPORT. The reservation and external control: what `lwarx` and `stwcx.` do once no alignment exception is taken,
whether a `stwcx.` stores, and the four ends of `eciwx` and `ecowx`. -/
namespace Sys2Proof.Machine

/-! ### `lwarx` (43_reservation_and_external_control.md R110) -/

section LoadReserved

variable (s : State) (m w : Word) (rd ra rb : Reg) (ea : Word)

theorem elementaryCauses_of_aligned (hm : ea.toNat % 4 = 0) (hdr : msrDR s.msr = false) :
    s.elementaryCauses ea = [] := by
  have halign : misaligned ea = false := Bool.eq_false_iff.mpr fun h => (misaligned_iff ea).mp h hm
  rw [State.elementaryCauses, wordCauses, State.protectionCauses, halign, hdr]
  rfl

theorem execLwarx_performs (hp : s.performs (s.elementaryCauses (s.indexedAddress ra rb))) :
    execLwarx rd ra rb s =
      s.loadReserved s.msr (encode (.lwarx rd ra rb)) rd (s.indexedAddress ra rb) :=
  withAlignment_performs s _ _ _ _ _ _ hp

theorem loadReserved_of_misaligned (hm : ea.toNat % 4 ≠ 0) :
    s.loadReserved m w rd ea = .refused .misalignedReservation := if_pos ((misaligned_iff ea).mpr hm)

theorem loadReserved_reaches (hm : ea.toNat % 4 = 0) (hr : s.reaches ea 4) :
    s.loadReserved m w rd ea =
      .next (({ s with reservation := some ea }.setGpr rd (s.wordAt ea)).advance.retire m w) := by
  rw [State.loadReserved, if_neg fun h => (misaligned_iff ea).mp h hm, readWord_reaches s ea hr,
    physicalAddress_off s .load (by decide) ea hr.1]
  exact congrArg (fun t : State => Host.Outcome.next (t.advance.retire m w)) (afterAccess_off (State.setGpr _ _ _) hr.1)

end LoadReserved

/-! ### `stwcx.` (43_reservation_and_external_control.md R111) -/

section StoreConditional

variable {s : State} {rs ra rb : Reg} {ea : Word}

theorem conditionalStores_of_none (h : s.reservation = none) : s.conditionalStores ea = false := by
  rw [State.conditionalStores, h]

theorem conditionalStores_of_own (h : s.reservation = some ea) (hdr : msrDR s.msr = false) :
    s.conditionalStores ea = true := by
  rw [State.conditionalStores, h]
  exact if_pos (physicalAddress_off s .store (by decide) ea hdr)

theorem conditionalStores_of_other {a : Word} (h : s.reservation = some a) (ha : a ≠ ea) (hdr : msrDR s.msr = false) :
    s.conditionalStores ea = s.drawnBool := by
  rw [State.conditionalStores, h]
  refine if_neg fun hown => ha ?_
  rw [physicalAddress_off s .store (by decide) ea hdr] at hown
  exact (Option.some.inj hown).symm

theorem execStwcx_performs (hp : s.performs (s.elementaryCauses (s.indexedAddress ra rb))) :
    execStwcx rs ra rb s = (s.skip 1).storeConditional s.msr (encode (.stwcx rs ra rb)) rs (s.indexedAddress ra rb)
      (s.conditionalStores (s.indexedAddress ra rb)) :=
  withAlignment_performs (s.skip 1) _ _ _ _ _ _ hp

/-- `s` after a `stwcx.` of x[rS] at `ea` that has stored the word, before it retires. -/
structure WordConditionallyStored (s : State) (rs : Reg) (ea : Word) (t : State) : Prop where
  frame : t = { s with
    mem := t.mem, stored := t.stored, reservation := none, pc := s.pc + 4, draws := t.draws,
    cr := (s.cr &&& 0x0FFFFFFF) ||| 0x20000000 ||| (if s.xer.getMsbD 0 then 0x10000000 else 0) }
  word : t.wordAt ea = s.readGpr rs
  others : ∀ a, ¬inOperand ea 4 a → t.mem.read a = s.mem.read a
  recorded : ∀ a, a ∈ t.stored ↔ a ∈ s.stored ∨ inOperand ea 4 a

/-- `s` after a `stwcx.` that has stored nothing, before it retires. -/
def NothingConditionallyStored (s t : State) : Prop :=
  t = { s with
    reservation := none, pc := s.pc + 4, draws := t.draws,
    cr := (s.cr &&& 0x0FFFFFFF) ||| (if s.xer.getMsbD 0 then 0x10000000 else 0) }

/-- Instruction `i`, started in `s`, completes, and `P` holds of the state it leaves before a trace exception. -/
def CompletesWith (s : State) (i : Instr) (P : State → Prop) : Prop :=
  ∃ t u, exec i s = .next u ∧ Retired s (encode i) t u ∧ P t

theorem completesWith_of_retire {i : Instr} {P : State → Prop} {t : State}
    (hexec : exec i s = .next (t.retire s.msr (encode i))) (hparams : t.params = s.params) (ht : P t) :
    CompletesWith s i P := ⟨t, _, hexec, retire_retired s t _ hparams, ht⟩

theorem setCr0_false (s : State) : s.setCr0 false = { s with
    cr := (s.cr &&& 0x0FFFFFFF) ||| (if s.xer.getMsbD 0 then 0x10000000 else 0) } :=
  congrArg (fun cr => { s with cr := cr ||| (if s.xer.getMsbD 0 then 0x10000000 else 0) }) BitVec.or_zero

theorem storeConditional_of_written {t u : State} (m w : Word) (h : t.writeWord ea (t.readGpr rs) = .ok u) :
    t.storeConditional m w rs ea true =
      .next ((({ u with reservation := none } : State).setCr0 true).advance.retire m w) := by
  rw [State.storeConditional, if_pos rfl, h]

theorem storeConditional_false (t : State) (m w : Word) (rs : Reg) (ea : Word) :
    t.storeConditional m w rs ea false =
      .next ((({ t with reservation := none } : State).setCr0 false).advance.retire m w) := rfl

theorem stwcx_stores (hattempt : s.conditionalStores (s.indexedAddress ra rb) = true)
    (hp : s.performs (s.elementaryCauses (s.indexedAddress ra rb))) (hr : s.reaches (s.indexedAddress ra rb) 4)
    (hm : Memory.wf s.mem) :
    CompletesWith s (.stwcx rs ra rb) (WordConditionallyStored s rs (s.indexedAddress ra rb)) := by
  obtain ⟨mem, stored, hwrite, hword, hothers, hrecorded, -⟩ :=
    writeWord_reaches (s.skip 1) (s.indexedAddress ra rb) ((s.skip 1).readGpr rs) hr hm
  have hexec := execStwcx_performs (rs := rs) hp
  rw [hattempt, storeConditional_of_written s.msr _ hwrite] at hexec
  exact completesWith_of_retire hexec rfl ⟨rfl, hword, hothers, hrecorded⟩

theorem stwcx_stores_nothing (hattempt : s.conditionalStores (s.indexedAddress ra rb) = false)
    (hp : s.performs (s.elementaryCauses (s.indexedAddress ra rb))) :
    CompletesWith s (.stwcx rs ra rb) (NothingConditionallyStored s) := by
  have hexec := execStwcx_performs (rs := rs) hp
  rw [hattempt, storeConditional_false, setCr0_false] at hexec
  exact completesWith_of_retire hexec rfl rfl

end StoreConditional

/-! ### `eciwx` and `ecowx` (43_reservation_and_external_control.md R112, R113, 30_encoding.md R70) -/

section ExternalControl

variable {s : State} {w : Word} {k : AccessKind} {ea : Word} {act : State → Word → State}

theorem exec_externalControl {i : Instr} {r ra rb : Reg} (hi : i ∈ [Instr.eciwx r ra rb, .ecowx r ra rb]) :
    ∃ k act, exec i s = s.externalControl (encode i) k (s.indexedAddress ra rb) act := by
  rcases List.mem_pair.mp hi with rfl | rfl <;> exact ⟨_, _, rfl⟩

theorem externalControl_nop (hnop : wordIn s.params.optionalNop w = true) :
    s.externalControl w k ea act = .next (s.advance.retire s.msr w) := if_pos hnop

theorem externalControl_absent (hnop : wordIn s.params.optionalNop w = false)
    (habsent : wordIn s.params.optionalAbsent w = true) :
    s.externalControl w k ea act = .next (s.program .illegal s.pc) := by
  rw [State.externalControl, hnop, habsent]
  rfl

theorem externalControl_disabled (hnop : wordIn s.params.optionalNop w = false)
    (habsent : wordIn s.params.optionalAbsent w = false) (hear : s.ear.getMsbD 0 = false) :
    s.externalControl w k ea act = .next (s.dsi ea 4) := by
  rw [State.externalControl, hnop, habsent, State.externalEnabled, hear]
  rfl

theorem externalControl_reaches (hnop : wordIn s.params.optionalNop w = false)
    (habsent : wordIn s.params.optionalAbsent w = false) (hear : s.ear.getMsbD 0 = true) (hk : k ≠ .fetch)
    (hp : s.performs (s.elementaryCauses ea)) (hr : s.reaches ea 4) (hact : (act s ea).msr = s.msr) :
    s.externalControl w k ea act = .next ((act s ea).advance.retire s.msr w) := by
  have hoff : (act s ea).afterAccess = act s ea := afterAccess_off _ (hact ▸ hr.1)
  rw [State.externalControl, hnop, habsent, State.externalEnabled, hear]
  refine (withAlignment_performs s _ _ _ _ _ _ hp).trans ?_
  rw [physBytes_reaches s k hk ea 4 hr, physicalAddress_off s k hk ea hr.1]
  exact congrArg (fun t : State => Host.Outcome.next (t.advance.retire s.msr w)) hoff

theorem resourceId_eq (s : State) : s.resourceId = BitVec.ofNat 6 (s.ear.toNat % 64) := by
  apply BitVec.eq_of_toNat_eq
  simp [State.resourceId]

end ExternalControl

end Sys2Proof.Machine

namespace Sys2Proof.Proofs

open Sys2Proof.Machine

/-- Settles O41: the address is looked at before the access is begun. -/
theorem lwarxOfAMisalignedWordIsRefused : Obligations.LwarxOfAMisalignedWordIsRefused := fun s rd ra rb hm hp =>
  (execLwarx_performs s rd ra rb hp).trans (loadReserved_of_misaligned s _ _ rd _ hm)

/-- Settles O47: an aligned word meets no alignment condition, so the policies do not matter. -/
theorem lwarxLoadsAndReserves : Obligations.LwarxLoadsAndReserves := by
  intro s rd ra rb ea hm hr
  have hp : s.performs (s.elementaryCauses ea) := by
    rw [elementaryCauses_of_aligned s ea hm hr.1]
    exact fun _ h => nomatch h
  exact ⟨_, (execLwarx_performs s rd ra rb hp).trans (loadReserved_reaches s _ _ rd ea hm hr), retire_retired s _ _ rfl⟩

/-- Settles O48: a reservation at the word's own address makes `stwcx.` store. -/
theorem stwcxStoresUnderItsReservation : Obligations.StwcxStoresUnderItsReservation := by
  intro s rs ra rb ea hres hp hr hm
  obtain ⟨t, u, hnext, hretired, hstored⟩ := stwcx_stores (conditionalStores_of_own hres hr.1) hp hr hm
  exact ⟨t, u, hnext, hretired, hstored.word, hstored.others, hstored.recorded, hstored.frame⟩

/-- Settles O49: without a reservation `stwcx.` does not store; with one elsewhere a free value decides. -/
theorem stwcxWithoutItsOwnReservation : Obligations.StwcxWithoutItsOwnReservation := by
  intro s rs ra rb ea so notStored
  refine ⟨fun hres hp => stwcx_stores_nothing (conditionalStores_of_none hres) hp, fun a hres ha hp hr hm => ?_⟩
  have hfree := conditionalStores_of_other hres ha hr.1
  cases hdraw : s.drawnBool with
  | true =>
    obtain ⟨t, u, hnext, hretired, hstored⟩ := stwcx_stores (hfree.trans hdraw) hp hr hm
    exact ⟨t, u, hnext, hretired, .inl ⟨hstored.frame, hstored.word, hstored.others, hstored.recorded⟩⟩
  | false =>
    obtain ⟨t, u, hnext, hretired, hnothing⟩ := stwcx_stores_nothing (hfree.trans hdraw) hp
    exact ⟨t, u, hnext, hretired, .inr hnothing⟩

/-- Settles O50: `externalControl_reaches` for both; the word the device supplies is the next free value. -/
theorem externalControlTransfers : Obligations.ExternalControlTransfers := by
  intro s r ra rb ea provided hear hp hr
  refine ⟨fun ⟨hnop, habsent⟩ => ?_, fun ⟨hnop, habsent⟩ => ?_⟩
  · exact ⟨s.drawn 0, _, externalControl_reaches hnop habsent hear (by decide) hp hr rfl, retire_retired s _ _ rfl⟩
  · rw [← resourceId_eq]
    exact ⟨_, externalControl_reaches hnop habsent hear (by decide) hp hr rfl, retire_retired s _ _ rfl⟩

/-- Settles O51: what `eciwx` and `ecowx` share decides each case before either acts. -/
theorem externalControlNotAvailable : Obligations.ExternalControlNotAvailable := by
  intro s r ra rb i hi ea
  obtain ⟨k, act, hexec⟩ := exec_externalControl (s := s) hi
  rw [hexec]
  exact ⟨fun hnop => ⟨_, externalControl_nop hnop, retire_retired s _ _ rfl⟩,
    fun hnop habsent => ⟨_, externalControl_absent hnop habsent, program_took s .illegal s.pc⟩,
    fun hnop habsent hear =>
      ⟨_, externalControl_disabled hnop habsent hear, dsi_took s ea 4 (by decide) (by decide)⟩⟩

end Sys2Proof.Proofs

/-! SUPPORT. The floating-point class: each bit of the FPSCR after a Move to FPSCR instruction, how such an instruction
ends, and which words find the floating-point unit unavailable. -/

namespace Sys2Proof.Machine

/-! ### Bits of the FPSCR masks (44_floating_point_class.md R123 to R126) -/

theorem bitMask_getMsbD : ∀ i < 32, ∀ j < 32, (bitMask i).getMsbD j = decide (j = i) := by decide

theorem fpscrField_getMsbD : ∀ k < 8, ∀ j < 32, (fpscrField k).getMsbD j = decide (j / 4 = k) := by decide

/-- Folding in the masks of the selected fields of `l`, whatever is there already. -/
theorem foldl_fpscrField_getMsbD (fm : BitVec 8) (j : Nat) (l : List Nat) (m : Word) :
    (l.foldl (fun m k => if fm.getMsbD k then m ||| fpscrField k else m) m).getMsbD j =
      (m.getMsbD j || l.any fun k => fm.getMsbD k && (fpscrField k).getMsbD j) := by
  induction l generalizing m with
  | nil => simp
  | cons k l ih =>
    rw [List.foldl_cons, ih, List.any_cons, ← Bool.or_assoc]
    cases fm.getMsbD k <;> simp

theorem fpscrFields_getMsbD (fm : BitVec 8) (j : Nat) (hj : j < 32) :
    (fpscrFields fm).getMsbD j = fm.getMsbD (j / 4) := by
  have hfield : j / 4 < 8 := by omega
  have hzero : (0 : Word).getMsbD j = false := BitVec.getMsbD_zero
  rw [fpscrFields, foldl_fpscrField_getMsbD, hzero, Bool.false_or, Bool.eq_iff_iff,
    List.any_eq_true]
  constructor
  · rintro ⟨k, hk, h⟩
    rw [fpscrField_getMsbD k (List.mem_range.mp hk) j hj, Bool.and_eq_true, decide_eq_true_eq] at h
    exact h.2 ▸ h.1
  · intro h
    refine ⟨j / 4, List.mem_range.mpr hfield, ?_⟩
    rw [h, fpscrField_getMsbD _ hfield j hj, decide_eq_true rfl]
    rfl

/-- IMM of `mtfsfi`, put where field `k` lies. -/
theorem fpscrImmediate_getMsbD (imm : BitVec 4) (j : Nat) (hj : j < 32) :
    ((imm.setWidth 32 <<< 28) >>> (4 * (j / 4)) : Word).getMsbD j = imm.getMsbD (j % 4) := by
  have hplace : j - 4 * (j / 4) = j % 4 := by omega
  have hin : ¬j < 4 * (j / 4) := by omega
  rw [BitVec.getMsbD_ushiftRight, BitVec.getMsbD_shiftLeft, BitVec.getMsbD_setWidth, hplace]
  simp [hj, hin]

/-! ### Bits of the FPSCR after each move -/

/-- Where a bit may be written, the mask chooses between the new bit and the old one. -/
theorem fpscrInsert_getMsbD (f mask src : Word) (j : Nat) (hj : j < 32) (h1 : j ≠ 1) (h2 : j ≠ 2) :
    (fpscrInsert f mask src).getMsbD j = if mask.getMsbD j then src.getMsbD j else f.getMsbD j := by
  obtain ⟨hkeep, -, -⟩ := fpscrMasks_getMsbD j hj h1 h2
  simp only [fpscrInsert, BitVec.getMsbD_or, BitVec.getMsbD_and, BitVec.getMsbD_not, hkeep, Bool.and_true,
    decide_eq_true hj, Bool.true_and]
  cases mask.getMsbD j <;> simp

theorem fpscrSetBit_getMsbD (f : Word) (i j : Nat) (hi : i < 32) (hj : j < 32) (h1 : j ≠ 1) (h2 : j ≠ 2) :
    (fpscrSetBit f i).getMsbD j =
      (f.getMsbD j || decide (j = i) || (decide (j = 0) && !f.getMsbD i && fpscrConditionBit i)) := by
  have hset : (fpscrInsert f (bitMask i) (bitMask i)).getMsbD j = (f.getMsbD j || decide (j = i)) := by
    rw [fpscrInsert_getMsbD f _ _ j hj h1 h2, bitMask_getMsbD i hi j hj]
    cases decide (j = i) <;> simp
  have hfx : (0x80000000 : Word).getMsbD j = decide (j = 0) := bitMask_getMsbD 0 (by decide) j hj
  rw [fpscrSetBit]
  split
  · next h =>
    rw [BitVec.getMsbD_or, hset, hfx, Bool.and_assoc, Bool.and_comm (!f.getMsbD i), h, Bool.and_true]
  · next h =>
    rw [hset, Bool.and_assoc, Bool.and_comm (!f.getMsbD i), Bool.eq_false_iff.mpr h, Bool.and_false, Bool.or_false]

theorem fpscrClearBit_getMsbD (f : Word) (i j : Nat) (hi : i < 32) (hj : j < 32) (h1 : j ≠ 1) (h2 : j ≠ 2) :
    (fpscrClearBit f i).getMsbD j = (f.getMsbD j && decide (j ≠ i)) := by
  rw [fpscrClearBit, fpscrInsert_getMsbD f _ _ j hj h1 h2, bitMask_getMsbD i hi j hj]
  by_cases h : j = i <;> simp [h]

theorem fpscrConditionBit_eq (i : Nat) :
    fpscrConditionBit i = decide ((3 ≤ i ∧ i ≤ 12) ∨ (21 ≤ i ∧ i ≤ 23)) := by
  simp [fpscrConditionBit]

/-! ### VX and FEX after they are recomputed (44, before R123) -/

theorem fpscrRecompute_getMsbD_two (f : Word) : (fpscrRecompute f).getMsbD 2 = fpscrInvalid f := by
  unfold fpscrRecompute
  cases fpscrInvalid f <;> cases fpscrEnabled f <;> simp [BitVec.getMsbD]

theorem fpscrRecompute_getMsbD_one (f : Word) : (fpscrRecompute f).getMsbD 1 = fpscrEnabled f :=
  fpscrFEX_fpscrRecompute f

theorem fpscrEnabled_eq (f : Word) :
    fpscrEnabled f = (((fpscrRecompute f).getMsbD 2 && f.getMsbD 24) || (f.getMsbD 3 && f.getMsbD 25) ||
      (f.getMsbD 4 && f.getMsbD 26) || (f.getMsbD 5 && f.getMsbD 27) || (f.getMsbD 6 && f.getMsbD 28)) := by
  rw [fpscrRecompute_getMsbD_two, fpscrEnabled]

/-! ### How a Move to FPSCR instruction ends (44_floating_point_class.md R120, R123) -/

theorem setFpscr_frame (s : State) (f : Word) (rc : Bool) : s.setFpscr f rc = { s with
    fpscr := fpscrRecompute f
    cr := if rc then (s.cr &&& 0xF0FFFFFF) ||| ((fpscrRecompute f &&& 0xF0000000) >>> 4) else s.cr } := by
  cases rc <;> rfl

theorem completeFp_program {t : State} (h : t.fpEnabledCondition = true) (cia m w : Word) :
    t.completeFp cia m w = t.program .fpEnabled cia := if_pos h

/-- What `mtfsf`, `mtfsfi` and `mtfsb1` share: the FPSCR with its computed bits, then completion or the enabled
exception. -/
theorem moveToFpscr_moved (s : State) (i : Instr) (rc : Bool) (f : Word) (h : msrFP s.msr = true) :
    MovedToFpscr s i (fpscrRecompute f) rc (s.moveToFpscr (encode i) rc f) := by
  have hmove : s.moveToFpscr (encode i) rc f = (s.setFpscr f rc).advance.completeFp s.pc s.msr (encode i) := if_pos h
  rw [hmove, setFpscr_frame]
  refine ⟨?_, ?_, fun hcondition => ?_, fun hcondition => ?_⟩
  · rw [fpscrRecompute_getMsbD_two, fpscrInvalid_fpscrRecompute]
  · rw [fpscrRecompute_getMsbD_one, fpscrEnabled_fpscrRecompute]
  · exact completeFp_retired s _ s.pc _ rfl hcondition
  · rw [completeFp_program (by exact hcondition)]
    exact program_took _ .fpEnabled s.pc

theorem execMtfsb0_available (s : State) (crbd : BitVec 5) (rc : Bool) (h : msrFP s.msr = true) :
    exec (.mtfsb0 crbd rc) s = .next
      ((s.setFpscr (fpscrClearBit s.fpscr crbd.toNat) rc).advance.retire s.msr (encode (.mtfsb0 crbd rc))) := if_pos h

/-! ### Floating-point unavailable (44_floating_point_class.md R120, 60_exceptions.md R142) -/

theorem moveToFpscr_unavailable (s : State) (w : Word) (rc : Bool) (f : Word) (h : msrFP s.msr = false) :
    s.moveToFpscr w rc f = s.fpUnavailable := if_neg (Bool.eq_false_iff.mp h)

/-- The rows of the opcode table in the floating-point class are those of the four Move to FPSCR instructions. -/
theorem exec_unavailable (s : State) (i : Instr) (hclass : isFloatingPoint (encode i) = true)
    (h : msrFP s.msr = false) : exec i s = .next s.fpUnavailable := by
  cases i with
  | mtfsf fm frb rc => exact congrArg _ (moveToFpscr_unavailable s _ rc _ h)
  | mtfsfi crfd imm rc => exact congrArg _ (moveToFpscr_unavailable s _ rc _ h)
  | mtfsb1 crbd rc => exact congrArg _ (moveToFpscr_unavailable s _ rc _ h)
  | mtfsb0 crbd rc => exact if_neg (Bool.eq_false_iff.mp h)
  | sc | rfi => exact absurd hclass (by decide)
  | _ => simp [encode, isFloatingPoint, isDisplacedFpAccess, isIndexedFpAccess] at hclass

theorem execUnlisted_unavailable (s : State) (w : Word) (hclass : isFloatingPoint w = true) (h : msrFP s.msr = false)
    (habsent : (wordIn s.params.optionalAbsent w && !wordIn s.params.optionalNop w) = false)
    (hprivileged : (wordIn s.params.privileged w && msrPR s.msr) = false) :
    s.execUnlisted w = .next s.fpUnavailable := by
  rw [State.execUnlisted, habsent, hprivileged, hclass, h]
  rfl

theorem row_ne_tooShort {c : Prop} [Decidable c] {ok : Bool} {m : String} {i : Instr} {rest : Except DecodeError Instr}
    (h : rest ≠ .error .tooShort) : (if c then decodeRow ok m i else rest) ≠ .error .tooShort := by
  split
  · cases ok <;> simp
  · exact h

theorem decode31_ne_tooShort (w : Word) : decode31 w ≠ .error .tooShort := by
  unfold decode31
  iterate 13 refine row_ne_tooShort ?_
  simp

theorem decode63_ne_tooShort (w : Word) : decode63 w ≠ .error .tooShort := by
  unfold decode63
  iterate 4 refine row_ne_tooShort ?_
  simp

/-- Only bytes can be too few: a whole word is not. -/
theorem decodeWord_ne_tooShort (w : Word) : decodeWord w ≠ .error .tooShort := by
  unfold decodeWord
  dsimp only
  split
  · simp
  refine row_ne_tooShort ?_
  split
  · exact row_ne_tooShort (by simp)
  split
  · exact decode31_ne_tooShort w
  split
  · simp
  split
  · simp
  split
  · exact decode63_ne_tooShort w
  · simp

theorem fpUnavailable_took (s : State) : TookException s s.fpUnavailable .fpUnavailable s.pc 0 :=
  takeException_took s .fpUnavailable s.pc 0

end Sys2Proof.Machine

namespace Sys2Proof.Proofs

open Sys2Proof.Machine

/-- Settles O52: VX and FEX read only bits that recomputing them leaves alone. -/
theorem fpscrSummaryBits : Obligations.FpscrSummaryBits := by
  refine fun f => ⟨?_, ?_, fun j h1 h2 => ?_, fpscrRecompute_fpscrRecompute f⟩
  · rw [fpscrRecompute_getMsbD_two]
    simp [fpscrInvalid, Bool.or_assoc]
  · rw [fpscrRecompute_getMsbD_one, fpscrEnabled_eq]
  · rcases Nat.lt_or_ge j 32 with hj | hj
    · exact fpscrRecompute_getMsbD f j hj h1 h2
    · rw [BitVec.getMsbD_of_ge _ _ hj, BitVec.getMsbD_of_ge _ _ hj]

/-- Settles O53: both are `State.moveToFpscr`, and the mask of the selected fields chooses each bit's source. -/
theorem mtfsfAndMtfsfiMoveFields : Obligations.MtfsfAndMtfsfiMoveFields := by
  refine fun s fm frb crfd imm rc hfp => ⟨⟨_, _, rfl, moveToFpscr_moved s _ rc _ hfp, fun j hj h1 h2 => ?_⟩,
    ⟨_, _, rfl, moveToFpscr_moved s _ rc _ hfp, fun j hj h1 h2 => ?_⟩⟩
  · rw [fpscrRecompute_getMsbD _ j hj h1 h2, fpscrInsert_getMsbD _ _ _ j hj h1 h2, fpscrFields_getMsbD fm j hj,
      BitVec.getMsbD_setWidth]
    simp [Nat.add_comm]
  · rw [fpscrRecompute_getMsbD _ j hj h1 h2, fpscrInsert_getMsbD _ _ _ j hj h1 h2,
      fpscrField_getMsbD _ crfd.isLt j hj]
    by_cases hfield : j / 4 = crfd.toNat
    · rw [decide_eq_true hfield, if_pos rfl, if_pos hfield, ← hfield, fpscrImmediate_getMsbD imm j hj]
    · rw [decide_eq_false hfield, if_neg Bool.false_ne_true, if_neg hfield]

/-- Settles O54: the bit itself, and FX where the bit is an exception condition that was 0 (`fpscrSetBit_getMsbD`). -/
theorem mtfsb1SetsABit : Obligations.Mtfsb1SetsABit := by
  refine fun s crbd rc hfp => ⟨_, _, rfl, moveToFpscr_moved s _ rc _ hfp, fun j hj h1 h2 => ?_⟩
  rw [fpscrRecompute_getMsbD _ j hj h1 h2, fpscrSetBit_getMsbD _ _ j crbd.isLt hj h1 h2, fpscrConditionBit_eq]

/-- Settles O55: `mtfsb0` ends like an instruction outside the class, without a look at the enabled condition. -/
theorem mtfsb0ClearsABit : Obligations.Mtfsb0ClearsABit := by
  intro s crbd rc hfp
  have hexec := execMtfsb0_available s crbd rc hfp
  rw [setFpscr_frame] at hexec
  refine ⟨_, _, hexec, retire_retired s _ _ rfl, rfl, ?_, ?_, fun j hj h1 h2 => ?_⟩
  · exact (fpscrRecompute_getMsbD_two _).trans (fpscrInvalid_fpscrRecompute _).symm
  · exact (fpscrRecompute_getMsbD_one _).trans (fpscrEnabled_fpscrRecompute _).symm
  · exact (fpscrRecompute_getMsbD _ j hj h1 h2).trans (fpscrClearBit_getMsbD _ _ j crbd.isLt hj h1 h2)

/-- Settles O56: a word of the class either decodes to a Move to FPSCR instruction or is in no row, and both ways look
at MSR[FP] before they act. -/
theorem floatingPointUnavailable : Obligations.FloatingPointUnavailable := by
  intro s w hclass hfp harch hreserved habsent hprivileged
  suffices hrun : s.run w = .next s.fpUnavailable from ⟨_, hrun, fpUnavailable_took s⟩
  cases hw : decodeWord w with
  | ok i =>
    rw [run_architected s w harch, State.runDecoded, hw]
    exact exec_unavailable s i (eq_encode_of_decodeWord hw ▸ hclass) hfp
  | error e =>
    cases e with
    | noRow => exact (run_of_noRow s w harch hw).trans (execUnlisted_unavailable s w hclass hfp habsent hprivileged)
    | reservedField m => exact absurd hw (hreserved m)
    | tooShort => exact absurd hw (decodeWord_ne_tooShort w)

end Sys2Proof.Proofs

/-! SUPPORT. Every path of a step, walked once: an instruction does its work part by part, each part leaving alone what
the statements on user level, on memory and on the decrementer speak of, and ends with the work done, at an exception
vector or in the checkstop state. -/

namespace Sys2Proof.Machine

/-! ### What an outcome is held to -/

/-- A next state has property `P`, a fault property `F`; a refusal is held to nothing. -/
def Meets (P : State → Prop) (F : Fault → Prop) : Host.Outcome State Fault Refusal → Prop
  | .next t => P t
  | .fault r => F r
  | .refused _ => True

theorem Meets.mono {P Q : State → Prop} {F G : Fault → Prop} {o : Host.Outcome State Fault Refusal} (h : Meets P F o)
    (hnext : ∀ t, P t → Q t) (hfault : ∀ r, F r → G r) : Meets Q G o := by
  cases o with
  | next t => exact hnext t h
  | fault r => exact hfault r h
  | refused _ => trivial

/-! ### The work of an instruction before it ends -/

/-- The types of the registers `State.supervisor` collects, the words among them in one list. -/
abbrev Supervisor := Vector Word 4 × Vector Word 16 × List (Nat × Word) × Bool × List Word

/-- The special-purpose registers of supervisor level except SRR0 and SRR1, those of an implementation, the MSR and the
decrementer's pending bit. -/
def State.supervisor (s : State) : Supervisor :=
  (s.sprg, s.bat, s.implSprs, s.decPending, [s.sdr1, s.tbl, s.tbu, s.pvr, s.ear, s.dec, s.msr, s.dar, s.dsisr])

/-- SRR0 and SRR1 are as they were, unless a translated access may have changed them (60_exceptions.md R162). -/
def SavedKept (s t : State) : Prop :=
  (s.params.srrVolatile = false ∨ (msrIR s.msr = false ∧ msrDR s.msr = false)) → t.srr0 = s.srr0 ∧ t.srr1 = s.srr1

/-- What the work of an instruction at user level leaves alone (60_exceptions.md R176, 41_spr_and_msr_access.md R90). -/
structure UserKept (s t : State) : Prop where
  sprg : t.sprg = s.sprg
  sdr1 : t.sdr1 = s.sdr1
  tbl : t.tbl = s.tbl
  tbu : t.tbu = s.tbu
  pvr : t.pvr = s.pvr
  bat : t.bat = s.bat
  ear : t.ear = s.ear
  dec : t.dec = s.dec
  implSprs : ∀ n, sprSupervisor n = true → t.readSpr (.impl n) = s.readSpr (.impl n)
  msr : t.msr = s.msr
  dar : t.dar = s.dar
  dsisr : t.dsisr = s.dsisr
  decPending : t.decPending = s.decPending
  saved : SavedKept s t

/-- What the work of an instruction leaves alone, at either level; memory only where it `stores` nothing. -/
structure Work (stores : Prop) (s t : State) : Prop where
  params : t.params = s.params
  pending : s.decPending = true → t.decPending = true
  memory : ¬stores → t.mem = s.mem ∧ t.stored = s.stored
  user : msrPR s.msr = true → UserKept s t

section Kept

variable {stores : Prop} {s t u : State}

theorem userKept_of_same (h : t.supervisor = s.supervisor) (hsaved : SavedKept s t) : UserKept s t := by
  simp only [State.supervisor, Prod.mk.injEq, List.cons.injEq, and_true] at h
  obtain ⟨hsprg, hbat, himpl, hpending, hsdr1, htbl, htbu, hpvr, hear, hdec, hmsr, hdar, hdsisr⟩ := h
  exact ⟨hsprg, hsdr1, htbl, htbu, hpvr, hbat, hear, hdec, fun n _ => by simp only [State.readSpr, himpl], hmsr, hdar,
    hdsisr, hpending, hsaved⟩

theorem UserKept.trans (h : UserKept s t) (hparams : t.params = s.params) (k : UserKept t u) : UserKept s u where
  sprg := k.sprg.trans h.sprg
  sdr1 := k.sdr1.trans h.sdr1
  tbl := k.tbl.trans h.tbl
  tbu := k.tbu.trans h.tbu
  pvr := k.pvr.trans h.pvr
  bat := k.bat.trans h.bat
  ear := k.ear.trans h.ear
  dec := k.dec.trans h.dec
  implSprs n hn := (k.implSprs n hn).trans (h.implSprs n hn)
  msr := k.msr.trans h.msr
  dar := k.dar.trans h.dar
  dsisr := k.dsisr.trans h.dsisr
  decPending := k.decPending.trans h.decPending
  saved hoff := by
    obtain ⟨h0, h1⟩ := h.saved hoff
    obtain ⟨k0, k1⟩ := k.saved (by rwa [hparams, h.msr])
    exact ⟨k0.trans h0, k1.trans h1⟩

theorem Work.trans (h : Work stores s t) (k : Work stores t u) : Work stores s u where
  params := k.params.trans h.params
  pending hs := k.pending (h.pending hs)
  memory hn := ⟨(k.memory hn).1.trans (h.memory hn).1, (k.memory hn).2.trans (h.memory hn).2⟩
  user hpr := (h.user hpr).trans h.params (k.user (by rwa [(h.user hpr).msr]))

theorem Work.weaken (h : Work stores s t) : Work True s t := ⟨h.params, h.pending, fun hn => (hn trivial).elim, h.user⟩

/-- Work that touches none of the registers named, memory aside. -/
theorem work_of_same_supervisor (h : t.supervisor = s.supervisor) (hparams : t.params = s.params)
    (hmemory : ¬stores → t.mem = s.mem ∧ t.stored = s.stored) (hsaved : SavedKept s t) : Work stores s t :=
  have hkept := userKept_of_same h hsaved
  ⟨hparams, fun hs => hkept.decPending.trans hs, hmemory, fun _ => hkept⟩

/-- What no part of an instruction changes but an access, and `mtspr`, `mtmsr` and `rfi`. -/
def State.untouched (s : State) : Supervisor × Params × Memory × List Nat × Word × Word :=
  (s.supervisor, s.params, s.mem, s.stored, s.srr0, s.srr1)

theorem work_of_same (h : t.untouched = s.untouched) : Work stores s t := by
  simp only [State.untouched, Prod.mk.injEq] at h
  obtain ⟨hsupervisor, hparams, hmem, hstored, hsrr0, hsrr1⟩ := h
  exact work_of_same_supervisor hsupervisor hparams (fun _ => ⟨hmem, hstored⟩) fun _ => ⟨hsrr0, hsrr1⟩

theorem work_refl (s : State) : Work stores s s := work_of_same rfl

theorem work_setGpr (s : State) (r : Reg) (v : Word) : Work stores s (s.setGpr r v) := work_of_same rfl

theorem work_setFpscr (s : State) (f : Word) (rc : Bool) : Work stores s (s.setFpscr f rc) := by
  rw [setFpscr_frame]
  exact work_of_same rfl

/-- A translated access changes SRR0 and SRR1 only where they are volatile. -/
theorem work_disturbSrr (s : State) (h : msrIR s.msr = true ∨ msrDR s.msr = true) : Work stores s s.disturbSrr := by
  unfold State.disturbSrr
  split
  · next hv =>
    refine work_of_same_supervisor rfl rfl (fun _ => ⟨rfl, rfl⟩) fun hoff => absurd h ?_
    obtain ⟨hir, hdr⟩ := hoff.resolve_left (by simp [hv])
    simp [hir, hdr]
  · exact work_refl s

theorem work_afterAccess (s : State) : Work stores s s.afterAccess := by
  unfold State.afterAccess
  split
  · next h => exact work_disturbSrr s (.inr h)
  · exact work_refl s

theorem work_afterFetch (s : State) : Work stores s s.afterFetch := by
  unfold State.afterFetch
  split
  · next h => exact work_disturbSrr s (.inl h)
  · exact work_refl s

theorem work_storeBytes (h : stores) (as : List Nat) (bs : List Byte) (s : State) :
    Work stores s (State.storeBytes as bs s) := by
  obtain ⟨m, l, e⟩ := storeBytes_eq as bs s
  rw [e]
  exact work_of_same_supervisor rfl rfl (fun hn => absurd h hn) fun _ => ⟨rfl, rfl⟩

theorem work_writeBytes (h : stores) {ea : Word} {bs : List Byte} (e : s.writeBytes ea bs = .ok t) :
    Work stores s t := by
  rw [writeBytes_eq_map] at e
  cases hp : s.physBytes .store ea bs.length with
  | error f => rw [hp] at e; cases e
  | ok as =>
    rw [hp] at e
    obtain rfl : (State.storeBytes as bs s).afterAccess = t := Except.ok.inj e
    exact (work_storeBytes h as bs s).trans (work_afterAccess _)

/-- The loops of the multiple and string instructions: what each element leaves alone, the run does, wherever it
ends. -/
theorem work_accessRun {act : Nat → State → Except AccessFault State} (n k : Nat) (s : State)
    (hact : ∀ j u t, act j u = .ok t → Work stores u t) : Work stores s (accessRun act n k s).1 :=
  accessRun_keeps n k s (fun j _ u t hu e => hu.trans (hact j u t e)) (work_refl s)

/-- An element that is read and put into a register. -/
theorem work_loadElement {α : Type} {read : Except AccessFault α} {r : Reg} {v : α → Word}
    (e : read.map (fun x => (s.setGpr r (v x)).afterAccess) = .ok t) : Work stores s t := by
  cases read with
  | error f => cases e
  | ok x =>
    obtain rfl : (s.setGpr r (v x)).afterAccess = t := Except.ok.inj e
    exact (work_setGpr s r (v x)).trans (work_afterAccess _)

theorem work_loadWords (rd : Reg) (ea : Word) (s : State) :
    Work stores s (State.loadWords (registersFrom rd) ea s).1 := by
  rw [loadWords_registersFrom]
  exact work_accessRun _ _ s fun j u t e => work_loadElement e

theorem work_loadString (rd : Reg) (ea : Word) (n k : Nat) (s : State) :
    Work stores s (State.loadString rd ea n k s).1 := by
  rw [loadString_eq_accessRun]
  exact work_accessRun _ _ s fun j u t e => work_loadElement e

theorem work_storeWords (h : stores) (rs : Reg) (ea : Word) (s : State) :
    Work stores s (State.storeWords (registersFrom rs) ea s).1 := by
  rw [storeWords_registersFrom]
  exact work_accessRun _ _ s fun j u t e => work_writeBytes h e

theorem work_storeString (h : stores) (rs : Reg) (ea : Word) (n k : Nat) (s : State) :
    Work stores s (State.storeString rs ea n k s).1 := by
  rw [storeString_eq_accessRun]
  exact work_accessRun _ _ s fun j u t e => work_writeBytes h e

theorem work_noBytes (t : State) (rd : Reg) (n : Nat) : Work stores t (t.noBytes rd n) := by
  unfold State.noBytes
  split
  · exact work_of_same rfl
  · exact work_refl t

/-- The registers `mtspr` may write at user level: XER, LR and CTR, and those of an implementation whose number has
spr[0] = 0. -/
theorem userKept_writeSpr (n : BitVec 10) (h : sprSupervisor n = false) (v : Word) (s : State) :
    UserKept s (s.writeSpr (sprAt n) v) := by
  rcases sprAt_cases n with hlisted | ⟨-, himpl⟩
  · have hmember : sprAt n ∈ [Spr.xer, .lr, .ctr] :=
      not_not.mp (mt (sprSupervisor_of_sprOf n _ hlisted).mpr (Bool.eq_false_iff.mp h))
    simp only [List.mem_cons, List.not_mem_nil, or_false] at hmember
    rcases hmember with e | e | e <;> rw [e] <;> exact userKept_of_same rfl fun _ => ⟨rfl, rfl⟩
  · rw [himpl]
    refine ⟨rfl, rfl, rfl, rfl, rfl, rfl, rfl, rfl, fun m hm => ?_, rfl, rfl, rfl, rfl, fun _ => ⟨rfl, rfl⟩⟩
    refine readSpr_writeSpr_other s v (.impl n) (.impl m) fun e => ?_
    rw [Spr.impl.inj e, h] at hm
    cases hm

theorem work_writeSpr (s : State) (n : BitVec 10) (h : (sprSupervisor n && msrPR s.msr) = false) (v : Word) :
    Work stores s (s.writeSpr (sprAt n) v) where
  params := writeSpr_params s v _
  pending hs := by rw [writeSpr_decPending, hs, Bool.true_or]
  memory _ := by cases sprAt n <;> exact ⟨rfl, rfl⟩
  user hpr := userKept_writeSpr n (by rwa [hpr, Bool.and_true] at h) v s

/-- What only supervisor level does. -/
theorem work_of_supervisorLevel (hpr : msrPR s.msr = false) (hparams : t.params = s.params)
    (hpending : t.decPending = s.decPending) (hmem : t.mem = s.mem) (hstored : t.stored = s.stored) :
    Work stores s t :=
  ⟨hparams, fun hs => hpending.trans hs, fun _ => ⟨hmem, hstored⟩, fun h => by rw [hpr] at h; cases h⟩

end Kept

/-! ### The exceptions an instruction ends with -/

/-- An exception of type `T` is taken, as `Entered` says; DAR and DSISR change only with a DSI or an alignment
exception, and a type of the implementation is a member of `P_IMPL_VECTORS` (60_exceptions.md R144, R150). -/
def EnteredVector (s t : State) : Prop :=
  ∃ T srr0 srr1 dar dsisr draws,
    (∀ page, T = .implementation page →
      ∃ v ∈ s.params.implVectors, v.page = page ∧ v.atImplementationOffset = true) ∧
    (T ≠ .dsi → T ≠ .alignment → dar = s.dar ∧ dsisr = s.dsisr) ∧
    t = { s with srr0 := srr0, srr1 := srr1, srr0Undefined := false, srr1Undefined := false,
                 msr := newMsr s.params T s.msr, pc := vectorAddress (msrIP s.msr) T,
                 dar := dar, dsisr := dsisr, draws := draws }

theorem enteredVector_takeException (s : State) (T : ExcType) (a info : Word) (c : Bool)
    (hT : ∀ page, T ≠ .implementation page) : EnteredVector s (s.takeException T a info c) :=
  ⟨T, _, _, s.dar, s.dsisr, _, fun page e => absurd e (hT page), fun _ _ => ⟨rfl, rfl⟩, rfl⟩

theorem enteredVector_program (s : State) (k : ProgramKind) (a : Word) : EnteredVector s (s.program k a) :=
  enteredVector_takeException s .program a _ _ nofun

theorem enteredVector_fpUnavailable (s : State) : EnteredVector s s.fpUnavailable :=
  enteredVector_takeException s .fpUnavailable _ _ _ nofun

theorem enteredVector_dsi (s : State) (ea : Word) (n : Nat) : EnteredVector s (s.dsi ea n) :=
  ⟨.dsi, _, _, _, _, _, nofun, fun h => absurd rfl h, rfl⟩

theorem enteredVector_alignment (s : State) (ea : Word) (n : Nat) : EnteredVector s (s.alignment ea n) :=
  ⟨.alignment, _, _, _, _, _, nofun, fun _ h => absurd rfl h, rfl⟩

theorem enteredVector_implementation (s : State) (page : BitVec 6)
    (h : ∃ v ∈ s.params.implVectors, v.page = page ∧ v.atImplementationOffset = true) :
    EnteredVector s (s.implementationException page) :=
  ⟨.implementation page, _, _, s.dar, s.dsisr, _, fun _ e => ExcType.implementation.inj e ▸ h,
    fun _ _ => ⟨rfl, rfl⟩, rfl⟩

/-! ### How an instruction ends -/

/-- From `s` work is done, and `t` is the state with the work done, the checkstop state included, or that state after an
exception. -/
def Ends (stores : Prop) (s t : State) : Prop := ∃ u, Work stores s u ∧ (t = u ∨ EnteredVector u t)

/-- Every next state of the outcome is such an end, and every fault one that `F` allows. -/
abbrev Runs (stores : Prop) (F : Fault → Prop) (s : State) (o : Host.Outcome State Fault Refusal) : Prop :=
  Meets (Ends stores s) F o

section Ends

variable {stores : Prop} {F : Fault → Prop} {s t u : State} {o : Host.Outcome State Fault Refusal}

theorem Work.ends (h : Work stores s t) : Ends stores s t := ⟨t, h, .inl rfl⟩

theorem Work.enters (h : Work stores s t) (k : EnteredVector t u) : Ends stores s u := ⟨t, h, .inr k⟩

theorem EnteredVector.ends (h : EnteredVector s t) : Ends stores s t := (work_refl s).enters h

theorem Work.andThen (h : Work stores s t) (k : Ends stores t u) : Ends stores s u := by
  obtain ⟨v, hv, e⟩ := k
  exact ⟨v, h.trans hv, e⟩

theorem Work.runs (h : Work stores s t) (k : Runs stores F t o) : Runs stores F s o :=
  k.mono (fun _ => h.andThen) fun _ => id

theorem Ends.weaken (h : Ends stores s t) : Ends True s t := by
  obtain ⟨u, hu, e⟩ := h
  exact ⟨u, hu.weaken, e⟩

/-- An exception does not touch the decrementer's pending bit. -/
theorem Ends.pending (h : Ends stores s t) (hs : s.decPending = true) : t.decPending = true := by
  obtain ⟨u, hu, rfl | ⟨_, _, _, _, _, _, -, -, rfl⟩⟩ := h <;> exact hu.pending hs

/-- An exception does not touch memory. -/
theorem Ends.memory (h : Ends stores s t) (hn : ¬stores) : t.mem = s.mem ∧ t.stored = s.stored := by
  obtain ⟨u, hu, rfl | ⟨_, _, _, _, _, _, -, -, rfl⟩⟩ := h <;> exact hu.memory hn

theorem Work.advance (h : Work stores s t) : Work stores s t.advance := h.trans (work_of_same rfl)

theorem Work.retire (h : Work stores s t) (m w : Word) : Ends stores s (t.retire m w) := by
  unfold State.retire
  split
  · exact h.enters (enteredVector_takeException t .trace _ _ _ nofun)
  · exact h.ends

theorem Work.completeFp (h : Work stores s t) (cia m w : Word) : Ends stores s (t.completeFp cia m w) := by
  unfold State.completeFp
  split
  · exact h.enters (enteredVector_program t _ _)
  · exact h.retire m w

theorem ends_program (s : State) (k : ProgramKind) (a : Word) : Ends stores s (s.program k a) :=
  (enteredVector_program s k a).ends

theorem ends_fpUnavailable (s : State) : Ends stores s s.fpUnavailable := (enteredVector_fpUnavailable s).ends

theorem ends_dsi (s : State) (ea : Word) (n : Nat) : Ends stores s (s.dsi ea n) := (enteredVector_dsi s ea n).ends

theorem work_skip (s : State) (k : Nat) : Work stores s (s.skip k) := work_of_same rfl

theorem ends_machineCheck (s : State) (c : Bool) : Ends stores s (s.machineCheck c) := by
  unfold State.machineCheck
  split
  · exact (work_skip s 2).enters (enteredVector_takeException _ .machineCheck _ _ _ nofun)
  · have hstops : Work stores s { s with checkstop := true } := work_of_same rfl
    exact hstops.ends

theorem ends_accessMachineCheck (s : State) : Ends stores s s.accessMachineCheck :=
  (work_skip s 1).andThen (ends_machineCheck _ s.drawnBool)

theorem Work.accessException (h : Work stores s t) (f : AccessFault) (ea : Word) (n : Nat) :
    Ends stores s (t.accessException f ea n) := by
  cases f with
  | machineCheck => exact h.andThen (ends_accessMachineCheck t)
  | storage cause => exact h.andThen (ends_dsi t ea n)

theorem ends_alignmentOr (s : State) (k : AccessKind) (ea : Word) (scan n : Nat) :
    Ends stores s (s.alignmentOr k ea scan n) := by
  unfold State.alignmentOr
  split
  · exact ends_accessMachineCheck s
  · split
    · exact (work_skip s 1).enters (enteredVector_dsi _ ea n)
    · exact (work_skip s 1).enters (enteredVector_alignment _ ea n)
  · exact (enteredVector_alignment s ea n).ends

theorem runs_refused (r : Refusal) : Runs stores F s (.refused r) := trivial

/-- An access under alignment conditions: checking them draws free values, then it is stopped or performed. -/
theorem runs_withAlignment {cs : List AlignCause} {k : AccessKind} {ea : Word} {scan n : Nat}
    {perform : State → Host.Outcome State Fault Refusal} (hperform : ∀ t, Runs stores F t (perform t)) :
    Runs stores F s (s.withAlignment cs k ea scan n perform) := by
  obtain ⟨b, d, h⟩ := alignCheck_eq cs s
  have hdraws : Work stores s { s with draws := d } := work_of_same rfl
  unfold State.withAlignment
  rw [h]
  cases b with
  | true => exact hdraws.andThen (ends_alignmentOr _ k ea scan n)
  | false => exact hdraws.runs (hperform _)

theorem runs_finishAccess (m w ea : Word) (n : Nat) (r : State × Option AccessFault) (h : Work stores s r.1) :
    Runs stores F s (finishAccess m w ea n r) := by
  obtain ⟨t, f⟩ := r
  cases f with
  | none => exact h.advance.retire m w
  | some f => exact h.accessException f ea n

end Ends

section Paths

variable {stores : Prop} {F : Fault → Prop} {s t : State}

/-! ### The instructions -/

theorem ends_trapOn (w : Word) (cond : BitVec 5) (a b : Word) : Ends stores s (s.trapOn w cond a b) := by
  unfold State.trapOn
  split
  · exact ends_program s _ _
  · exact (work_refl s).advance.retire _ _

theorem runs_execMtmsr (rs : Reg) : Runs stores F s (execMtmsr rs s) := by
  unfold execMtmsr
  split_ifs with hpr hr
  · exact ends_program s _ _
  · exact runs_refused _
  · have hmsr : Work stores s { s with msr := s.readGpr rs } :=
      work_of_supervisorLevel (Bool.eq_false_iff.mpr hpr) rfl rfl rfl rfl
    exact hmsr.advance.completeFp _ _ _

theorem runs_execMfmsr (rd : Reg) : Runs stores F s (execMfmsr rd s) := by
  unfold execMfmsr
  split
  · exact ends_program s _ _
  · exact (work_setGpr s rd _).advance.retire _ _

theorem runs_invalidSpr (n : BitVec 10) : Runs stores F s (s.invalidSpr n) := by
  unfold State.invalidSpr
  split
  · exact runs_refused _
  · exact ends_program s _ _

theorem runs_execMtspr (spr : BitVec 10) (rs : Reg) : Runs stores F s (execMtspr spr rs s) := by
  unfold execMtspr
  split
  · exact ends_program s _ _
  · next hpr =>
    split
    · next q hq =>
      rw [writableSpr_eq_some _ _ _ hq]
      exact (work_writeSpr s spr (Bool.eq_false_iff.mpr hpr) _).advance.retire _ _
    · exact runs_invalidSpr spr

theorem runs_loadReserved (m w : Word) (rd : Reg) (ea : Word) : Runs stores F t (t.loadReserved m w rd ea) := by
  unfold State.loadReserved
  split
  · exact runs_refused _
  · split
    · next v _ =>
      have hload : Work stores t ({ t with reservation := t.physicalAddress .load ea }.setGpr rd v) := work_of_same rfl
      exact (hload.trans (work_afterAccess _)).advance.retire _ _
    · exact (work_refl t).accessException _ _ _

theorem runs_storeConditional (h : stores) (m w : Word) (rs : Reg) (ea : Word) (attempt : Bool) :
    Runs stores F t (t.storeConditional m w rs ea attempt) := by
  have hcleared (u : State) (eq : Bool) : Work stores u ({ u with reservation := none }.setCr0 eq) := work_of_same rfl
  unfold State.storeConditional
  split
  · split
    · next u e => exact ((work_writeBytes h e).trans (hcleared u true)).advance.retire _ _
    · exact (work_refl t).accessException _ _ _
  · exact (hcleared t false).advance.retire _ _

theorem runs_externalControl (w : Word) (k : AccessKind) (ea : Word) (act : State → Word → State)
    (hact : ∀ t pa, Work stores t (act t pa)) : Runs stores F s (s.externalControl w k ea act) := by
  unfold State.externalControl
  split_ifs
  · exact (work_refl s).advance.retire _ _
  · exact ends_program s _ _
  · exact ends_dsi s ea 4
  · refine runs_withAlignment fun t => ?_
    split
    · next pa _ _ => exact ((hact t pa).trans (work_afterAccess _)).advance.retire _ _
    · exact ends_dsi t ea 4
    · exact (work_refl t).accessException _ _ _

theorem runs_loadStringFrom (w : Word) (rd : Reg) (ea : Word) (n : Nat) :
    Runs stores F s (s.loadStringFrom w rd ea n) :=
  runs_withAlignment fun t =>
    runs_finishAccess _ _ _ _ _ ((work_noBytes t rd n).trans (work_loadString rd ea n 0 _))

theorem runs_storeStringTo (h : stores) (w : Word) (rs : Reg) (ea : Word) (n : Nat) :
    Runs stores F s (s.storeStringTo w rs ea n) :=
  runs_withAlignment fun t => runs_finishAccess _ _ _ _ _ (work_storeString h rs ea n 0 t)

theorem runs_execLmw (rd ra : Reg) (d : BitVec 16) : Runs stores F s (execLmw rd ra d s) := by
  unfold execLmw
  split
  · exact runs_refused _
  · exact runs_withAlignment fun t => runs_finishAccess _ _ _ _ _ (work_loadWords rd _ t)

theorem runs_execStmw (h : stores) (rs ra : Reg) (d : BitVec 16) : Runs stores F s (execStmw rs ra d s) :=
  runs_withAlignment fun t => runs_finishAccess _ _ _ _ _ (work_storeWords h rs _ t)

theorem runs_execLswi (rd ra : Reg) (nb : BitVec 5) : Runs stores F s (execLswi rd ra nb s) := by
  unfold execLswi
  split
  · exact runs_refused _
  · exact runs_loadStringFrom _ _ _ _

theorem runs_execLswx (rd ra rb : Reg) : Runs stores F s (execLswx rd ra rb s) := by
  unfold execLswx
  extract_lets n
  split
  · exact runs_refused _
  · exact runs_loadStringFrom _ _ _ _

theorem ends_moveToFpscr (w : Word) (rc : Bool) (f : Word) : Ends stores s (s.moveToFpscr w rc f) := by
  unfold State.moveToFpscr
  split
  · exact (work_setFpscr s f rc).advance.completeFp _ _ _
  · exact ends_fpUnavailable s

theorem runs_execMtfsb0 (crbd : BitVec 5) (rc : Bool) : Runs stores F s (execMtfsb0 crbd rc s) := by
  unfold execMtfsb0
  split
  · exact (work_setFpscr s _ rc).advance.retire _ _
  · exact ends_fpUnavailable s

/-! ### The two instructions that fault (60_exceptions.md R162) -/

/-- The fault of an instruction that reads SRR0 or SRR1 where it is undefined: `rfi`, or `mfspr` of the register. -/
def ReadsUndefinedSrr (s : State) (i : Instr) (r : Fault) : Prop :=
  r = .undefinedSrr ∧ msrPR s.msr = false ∧ s.params.srrVolatile = true ∧
    ((i = .rfi ∧ s.savedContextUndefined = true) ∨ (∃ rd, i = .mfspr rd 26 ∧ s.srr0Undefined = true) ∨
      (∃ rd, i = .mfspr rd 27 ∧ s.srr1Undefined = true))

theorem runs_execRfi : Runs stores (ReadsUndefinedSrr s .rfi) s (execRfi s) := by
  unfold execRfi
  split_ifs with hpr hundefined hr
  · exact ends_program s _ _
  · exact ⟨rfl, Bool.eq_false_iff.mpr hpr, (Bool.and_eq_true_iff.mp hundefined).1, .inl ⟨rfl, hundefined⟩⟩
  · exact runs_refused _
  · have hreturn : Work stores s s.returnFromException :=
      work_of_supervisorLevel (Bool.eq_false_iff.mpr hpr) rfl rfl rfl rfl
    exact hreturn.completeFp _ _ _

/-- A register of R39 has one number. -/
theorem sprTable_saved : ∀ e ∈ sprTable, (e.2 = .srr0 → e.1 = 26) ∧ (e.2 = .srr1 → e.1 = 27) := by decide

theorem sprAt_saved (n : BitVec 10) : (sprAt n = .srr0 → n = 26) ∧ (sprAt n = .srr1 → n = 27) := by
  rcases sprAt_cases n with hlisted | ⟨-, himpl⟩
  · obtain ⟨h0, h1⟩ := sprTable_saved _ (sprOf_mem n _ hlisted)
    exact ⟨fun h => BitVec.eq_of_toNat_eq (h0 h), fun h => BitVec.eq_of_toNat_eq (h1 h)⟩
  · rw [himpl]
    exact ⟨nofun, nofun⟩

theorem runs_execMfspr (rd : Reg) (spr : BitVec 10) :
    Runs stores (ReadsUndefinedSrr s (.mfspr rd spr)) s (execMfspr rd spr s) := by
  unfold execMfspr
  split
  · exact ends_program s _ _
  · next hpr =>
    have hlevel (h : sprSupervisor spr = true) : msrPR s.msr = false := by simpa [h] using hpr
    split
    · next q hq =>
      obtain rfl := readableSpr_eq_some _ _ _ hq
      split
      · next hundefined =>
        obtain ⟨hvolatile, hwhich⟩ := (sprUndefined_iff s _).mp hundefined
        rcases hwhich with ⟨hq, h⟩ | ⟨hq, h⟩
        · obtain rfl := (sprAt_saved spr).1 hq
          exact ⟨rfl, hlevel rfl, hvolatile, .inr (.inl ⟨rd, rfl, h⟩)⟩
        · obtain rfl := (sprAt_saved spr).2 hq
          exact ⟨rfl, hlevel rfl, hvolatile, .inr (.inr ⟨rd, rfl, h⟩)⟩
      · exact (work_setGpr s rd _).advance.retire _ _
    · exact runs_invalidSpr spr

/-! ### Every instruction -/

/-- The instructions that store to memory. -/
def StoresMemory : Instr → Prop
  | .stmw .. | .stswi .. | .stswx .. | .stwcx .. => True
  | _ => False

/-- Every instruction, on every path. -/
theorem runs_exec (i : Instr) (s : State) : Runs (StoresMemory i) (ReadsUndefinedSrr s i) s (exec i s) := by
  cases i with
  | twi cond ra simm => exact ends_trapOn _ _ _ _
  | sc => exact (enteredVector_takeException s .systemCall _ _ _ nofun).ends
  | rfi => exact runs_execRfi
  | tw cond ra rb => exact ends_trapOn _ _ _ _
  | lwarx rd ra rb => exact runs_withAlignment fun _ => runs_loadReserved _ _ _ _
  | mfmsr rd => exact runs_execMfmsr rd
  | mtmsr rs => exact runs_execMtmsr rs
  | stwcx rs ra rb =>
    exact (work_skip s 1).runs (runs_withAlignment fun _ => runs_storeConditional trivial _ _ _ _ _)
  | eciwx rd ra rb => exact runs_externalControl _ _ _ _ fun _ _ => work_of_same rfl
  | mfspr rd spr => exact runs_execMfspr rd spr
  | ecowx rs ra rb => exact runs_externalControl _ _ _ _ fun _ _ => work_of_same rfl
  | mtspr spr rs => exact runs_execMtspr spr rs
  | lswx rd ra rb => exact runs_execLswx rd ra rb
  | lswi rd ra nb => exact runs_execLswi rd ra nb
  | stswx rs ra rb => exact runs_storeStringTo trivial _ _ _ _
  | stswi rs ra nb => exact runs_storeStringTo trivial _ _ _ _
  | lmw rd ra d => exact runs_execLmw rd ra d
  | stmw rs ra d => exact runs_execStmw trivial rs ra d
  | mtfsb1 crbd rc => exact ends_moveToFpscr _ _ _
  | mtfsb0 crbd rc => exact runs_execMtfsb0 crbd rc
  | mtfsfi crfd imm rc => exact ends_moveToFpscr _ _ _
  | mtfsf fm frb rc => exact ends_moveToFpscr _ _ _

/-! ### Words of no row -/

theorem work_applyFp (t : State) (e : FpEffect) : Work stores t (t.applyFp e) := work_of_same rfl

theorem Work.completeExec (h : Work stores s t) (m w : Word) (e : FpEffect) : Ends stores s (t.completeExec m w e) := by
  unfold State.completeExec
  split
  · exact h.enters (enteredVector_takeException t .fpAssist _ _ _ nofun)
  · exact (h.trans (work_applyFp t e)).advance.completeFp _ _ _

theorem runs_fpOperate (m w : Word) : Runs stores F t (t.fpOperate m w) := by
  unfold State.fpOperate
  split
  · exact runs_refused _
  · exact (work_refl t).completeExec _ _ _

theorem runs_fpLoad (m w ea : Word) (n : Nat) : Runs stores F t (t.fpLoad m w ea n) := by
  unfold State.fpLoad
  split
  · exact (work_refl t).accessException _ _ _
  · split
    · exact runs_refused _
    · exact (work_afterAccess t).completeExec _ _ _

theorem runs_fpStore (h : stores) (m w ea : Word) (n : Nat) : Runs stores F t (t.fpStore m w ea n) := by
  unfold State.fpStore
  split
  · exact (work_refl t).accessException _ _ _
  · next as _ =>
    split
    · exact runs_refused _
    · next e _ =>
      split
      · exact (enteredVector_takeException t .fpAssist _ _ _ nofun).ends
      · have hstore := (work_storeBytes h as (t.orderBytes (e.operand.toList.take n)) t).trans (work_afterAccess _)
        exact (hstore.trans (work_applyFp _ e)).advance.completeFp _ _ _

theorem runs_execFloating (h : stores) (w : Word) : Runs stores F s (s.execFloating w) := by
  unfold State.execFloating
  split
  · exact runs_withAlignment fun _ => runs_fpLoad _ _ _ _
  · split
    · exact runs_withAlignment fun _ => runs_fpStore h _ _ _ _
    · exact runs_fpOperate _ _

theorem runs_execBranch (w : Word) : Runs stores F s (s.execBranch w) := by
  unfold State.execBranch
  split
  · exact runs_refused _
  · next e _ =>
    have hbranch : Work stores s { s with pc := e.target &&& ~~~0x00000003, lr := e.lr, ctr := e.ctr } :=
      work_of_same rfl
    exact hbranch.retire _ _

theorem runs_execUnlisted (h : stores) (w : Word) : Runs stores F s (s.execUnlisted w) := by
  unfold State.execUnlisted
  split_ifs
  · exact ends_program s _ _
  · exact ends_program s _ _
  · exact ends_fpUnavailable s
  · exact (work_refl s).advance.retire _ _
  · exact runs_execFloating h w
  · exact runs_execBranch w
  · exact runs_refused _

/-! ### The word that is fetched -/

/-- The fault of running the word of such an instruction. -/
def WordReadsUndefinedSrr (s : State) (w : Word) (r : Fault) : Prop := ∃ i, w = encode i ∧ ReadsUndefinedSrr s i r

theorem runs_runDecoded (w : Word) : Runs True (WordReadsUndefinedSrr s w) s (s.runDecoded w) := by
  unfold State.runDecoded
  split
  · next i hw =>
    exact (runs_exec i s).mono (fun _ => Ends.weaken)
      fun _ hr => ⟨i, eq_encode_of_decodeWord hw, hr⟩
  · next e _ =>
    cases e with
    | noRow => exact runs_execUnlisted trivial w
    | reservedField mnemonic => exact runs_refused _
    | tooShort => exact runs_refused _

theorem runs_run (w : Word) : Runs True (WordReadsUndefinedSrr s w) s (s.run w) := by
  cases hill : wordIn s.params.illegal w with
  | true =>
    rw [run_of_illegal s w hill]
    exact ends_program s _ _
  | false =>
    obtain ⟨⟨d, hd⟩, hmember⟩ := raisedVector_cases w s.params.implVectors s
    rcases hv : State.raisedVector w s.params.implVectors s with ⟨raised, t⟩
    rw [hv] at hd hmember
    obtain rfl : t = { s with draws := d } := hd
    have hdraws : Work True s { s with draws := d } := work_of_same rfl
    cases raised with
    | none =>
      rw [run_of_notRaised s _ w hill hv]
      exact hdraws.runs (runs_runDecoded w)
    | some page =>
      obtain ⟨v, hin, hpage, hoffset, -⟩ := hmember page rfl
      rw [run_of_raised s _ w page hill hv]
      exact hdraws.enters (enteredVector_implementation _ page ⟨v, hin, hpage, hoffset⟩)

end Paths

end Sys2Proof.Machine

/-! SUPPORT. The step: the environment's events, the exceptions at an instruction boundary, the fetch, and what a next
state or a fault of a step comes from. -/

namespace Sys2Proof.Machine

section Step

variable {s t : State}

/-! ### The environment's events (60_exceptions.md R143, R177) -/

theorem occur_params (s : State) (e : EnvEvent) : (s.occur e).params = s.params := by cases e <;> rfl

theorem occur_pending (e : EnvEvent) (h : s.decPending = true) : (s.occur e).decPending = true := by
  cases e with
  | decrementerTick => simp [State.occur, State.setDec, h]
  | _ => exact h

theorem deliver_of_nil (h : s.inputs = []) : s.deliver = s := by rw [State.deliver, h]

/-- What holds of the state whatever inputs are to come, and is kept by every event, holds after the events. -/
theorem deliver_keeps {P : State → Prop} (hinputs : ∀ rest, P { s with inputs := rest })
    (hoccur : ∀ t e, P t → P (t.occur e)) : P s.deliver := by
  unfold State.deliver
  split
  · exact hinputs s.inputs
  · next batch rest _ => exact List.foldlRecOn batch State.occur (hinputs rest) fun t ht e _ => hoccur t e ht

theorem deliver_params (s : State) : s.deliver.params = s.params :=
  deliver_keeps (P := fun t => t.params = s.params) (fun _ => rfl) fun t e h => (occur_params t e).trans h

theorem deliver_pending (h : s.decPending = true) : s.deliver.decPending = true :=
  deliver_keeps (P := fun t => t.decPending = true) (fun _ => h) fun _ e ht => occur_pending e ht

/-- Counting down carries into the top bit only from 0 (60_exceptions.md R177). -/
theorem tick_carries (d : Word) : (!d.getMsbD 0 && (d - 1).getMsbD 0) = (d == 0x00000000) := by
  change (!d.msb && (d - 1).msb) = _
  rw [Bool.eq_iff_iff, Bool.and_eq_true, Bool.not_eq_true', beq_iff_eq, BitVec.msb_eq_false_iff_two_mul_lt,
    BitVec.msb_eq_true_iff_two_mul_ge]
  bv_omega

/-! ### The exceptions at a boundary (60_exceptions.md R153, R171, R173) -/

theorem boundary_of_systemReset (h : s.sresetPending = true) :
    s.boundary = some (({ s with sresetPending := false, sresetCorrupt := false } : State).takeException
      .systemReset s.pc 0 s.sresetCorrupt) := if_pos h

theorem boundary_of_machineCheck (hreset : s.sresetPending = false) (h : s.mcheckPending = true) :
    s.boundary =
      some (({ s with mcheckPending := false, mcheckCorrupt := false } : State).machineCheck s.mcheckCorrupt) := by
  rw [State.boundary, if_neg (Bool.eq_false_iff.mp hreset), if_pos h]

/-- With no system reset or machine check pending, MSR[EE] lets the external interrupt through, then the decrementer. -/
theorem boundary_of_none_pending (hreset : s.sresetPending = false) (hmcheck : s.mcheckPending = false) :
    s.boundary =
      if msrEE s.msr && s.extSignal then some (s.takeException .external s.pc 0 false)
      else if msrEE s.msr && s.decPending then
        some (({ s with decPending := false } : State).takeException .decrementer s.pc 0 false)
      else none := by
  rw [State.boundary, if_neg (Bool.eq_false_iff.mp hreset), if_neg (Bool.eq_false_iff.mp hmcheck)]

theorem boundary_of_external (hreset : s.sresetPending = false) (hmcheck : s.mcheckPending = false)
    (hee : msrEE s.msr = true) (hext : s.extSignal = true) :
    s.boundary = some (s.takeException .external s.pc 0 false) := by
  rw [boundary_of_none_pending hreset hmcheck]
  exact if_pos (Bool.and_eq_true_iff.mpr ⟨hee, hext⟩)

theorem boundary_of_decrementer (hreset : s.sresetPending = false) (hmcheck : s.mcheckPending = false)
    (hee : msrEE s.msr = true) (hext : s.extSignal = false) (hdec : s.decPending = true) :
    s.boundary = some (({ s with decPending := false } : State).takeException .decrementer s.pc 0 false) := by
  have hnone : ¬(msrEE s.msr && s.extSignal) = true := by rw [hext, Bool.and_false]; exact Bool.false_ne_true
  rw [boundary_of_none_pending hreset hmcheck, if_neg hnone]
  exact if_pos (Bool.and_eq_true_iff.mpr ⟨hee, hdec⟩)

theorem boundary_eq_none_iff (s : State) : s.boundary = none ↔
    (s.sresetPending = false ∧ s.mcheckPending = false ∧
      (msrEE s.msr = false ∨ (s.extSignal = false ∧ s.decPending = false))) := by
  cases hreset : s.sresetPending with
  | true => simp [boundary_of_systemReset hreset]
  | false =>
    cases hmcheck : s.mcheckPending with
    | true => simp [boundary_of_machineCheck hreset hmcheck]
    | false =>
      rw [boundary_of_none_pending hreset hmcheck]
      cases msrEE s.msr with
      | false => simp
      | true => cases s.extSignal <;> simp

/-- The decrementer exception is taken at the boundary, which is what ends its pending. -/
def TakesDecrementer (s t : State) : Prop :=
  msrEE s.msr = true ∧ t = ({ s with decPending := false } : State).takeException .decrementer s.pc 0 false

theorem boundary_cases (h : s.boundary = some t) : Ends True s t ∨ TakesDecrementer s t := by
  unfold State.boundary at h
  split_ifs at h with hreset hmcheck hexternal hdec <;> cases h
  · have hwork : Work True s { s with sresetPending := false, sresetCorrupt := false } := work_of_same rfl
    exact .inl (hwork.enters (enteredVector_takeException _ .systemReset _ _ _ nofun))
  · have hwork : Work True s { s with mcheckPending := false, mcheckCorrupt := false } := work_of_same rfl
    exact .inl (hwork.andThen (ends_machineCheck _ _))
  · exact .inl (enteredVector_takeException s .external _ _ _ nofun).ends
  · exact .inr ⟨(Bool.and_eq_true_iff.mp hdec).1, rfl⟩

/-! ### The fetch (60_exceptions.md R134, R132; 20_memory.md R57) -/

theorem fetch_of_storage {c : Word} (h : s.physBytes .fetch s.pc 4 = .error (.storage c)) :
    s.fetch = .error (.next (s.takeException .isi s.pc (c &&& isiMask) false)) := by rw [State.fetch, h]

theorem fetch_of_machineCheck (h : s.physBytes .fetch s.pc 4 = .error .machineCheck) :
    s.fetch = .error (.next s.accessMachineCheck) := by rw [State.fetch, h]

theorem fetch_of_stored {as : List Nat} (h : s.physBytes .fetch s.pc 4 = .ok as) (hs : ∃ a ∈ as, a ∈ s.stored) :
    s.fetch = .error (.refused .fetchOfStoredLocation) := by
  have hany : (as.any fun a => s.stored.contains a) = true := by simpa using hs
  rw [State.fetch, h]
  exact if_pos hany

theorem fetch_of_unstored {as : List Nat} (h : s.physBytes .fetch s.pc 4 = .ok as) (hs : ∀ a ∈ as, a ∉ s.stored) :
    s.fetch = .ok (wordOfBytes (msrLE s.msr) (as.map s.mem.read)) := by
  have hany : ¬(as.any fun a => s.stored.contains a) = true := by simpa using hs
  rw [State.fetch, h]
  exact if_neg hany

theorem fetchAndRun_of_error {o : Host.Outcome State Fault Refusal} (h : s.fetch = .error o) : s.fetchAndRun = o := by
  rw [State.fetchAndRun, h]

theorem fetchAndRun_of_ok {w : Word} (h : s.fetch = .ok w) : s.fetchAndRun = s.afterFetch.run w := by
  rw [State.fetchAndRun, h]

/-- The fault of a word that is fetched, after what the fetch does to SRR0 and SRR1. -/
def FetchedReadsUndefinedSrr (s : State) (r : Fault) : Prop :=
  ∃ w, s.fetch = .ok w ∧ WordReadsUndefinedSrr s.afterFetch w r

theorem runs_fetchAndRun : Runs True (FetchedReadsUndefinedSrr s) s s.fetchAndRun := by
  cases hp : s.physBytes .fetch s.pc 4 with
  | error f =>
    cases f with
    | machineCheck =>
      rw [fetchAndRun_of_error (fetch_of_machineCheck hp)]
      exact ends_accessMachineCheck s
    | storage c =>
      rw [fetchAndRun_of_error (fetch_of_storage hp)]
      exact (enteredVector_takeException s .isi _ _ _ nofun).ends
  | ok as =>
    by_cases hs : ∃ a ∈ as, a ∈ s.stored
    · rw [fetchAndRun_of_error (fetch_of_stored hp hs)]
      exact runs_refused _
    · have hw := fetch_of_unstored hp (by simpa using hs)
      rw [fetchAndRun_of_ok hw]
      exact (work_afterFetch s).runs ((runs_run _).mono (fun _ => id) fun _ hr => ⟨_, hw, hr⟩)

/-! ### The step (60_exceptions.md R170, R173) -/

theorem step_of_checkstop (h : s.checkstop = true) : step s = .fault .checkstop := if_pos h

theorem step_of_running (h : s.checkstop = false) : step s = s.deliver.stepBoundary := if_neg (Bool.eq_false_iff.mp h)

theorem step_of_boundary (h : s.checkstop = false) (hb : s.deliver.boundary = some t) : step s = .next t := by
  rw [step_of_running h, State.stepBoundary, hb]

theorem step_of_reducedPower (h : s.checkstop = false) (hb : s.deliver.boundary = none)
    (hp : s.deliver.reducedPower = true) : step s = s.deliver.waitForInput := by
  rw [step_of_running h, State.stepBoundary, hb]
  exact if_pos hp

theorem step_fetches (h : s.checkstop = false) (hb : s.deliver.boundary = none)
    (hp : s.deliver.reducedPower = false) : step s = s.deliver.fetchAndRun := by
  rw [step_of_running h, State.stepBoundary, hb]
  exact if_neg (Bool.eq_false_iff.mp hp)

theorem waitForInput_of_nil (h : s.inputs = []) : s.waitForInput = .refused .reducedPower := by
  rw [State.waitForInput, h]

theorem waitForInput_of_ne_nil (h : s.inputs ≠ []) : s.waitForInput = .next s := by
  unfold State.waitForInput
  split
  · next hnil => exact absurd hnil h
  · rfl

theorem meets_stepBoundary : Meets (fun t => Ends True s t ∨ TakesDecrementer s t) (FetchedReadsUndefinedSrr s)
    s.stepBoundary := by
  unfold State.stepBoundary
  split
  · next t hb => exact boundary_cases hb
  · split
    · unfold State.waitForInput
      split
      · exact trivial
      · exact .inl (work_refl s).ends
    · exact runs_fetchAndRun.mono (fun _ => .inl) fun _ => id

/-- What a next state comes from. -/
theorem step_next (h : step s = .next t) : Ends True s.deliver t ∨ TakesDecrementer s.deliver t := by
  cases hc : s.checkstop with
  | true => rw [step_of_checkstop hc] at h; cases h
  | false =>
    have hmeets := meets_stepBoundary (s := s.deliver)
    rwa [← step_of_running hc, h] at hmeets

/-- What a fault comes from. -/
theorem step_fault {r : Fault} (h : step s = .fault r) :
    (s.checkstop = true ∧ r = .checkstop) ∨ FetchedReadsUndefinedSrr s.deliver r := by
  cases hc : s.checkstop with
  | true =>
    rw [step_of_checkstop hc] at h
    exact .inl ⟨rfl, (Host.Outcome.fault.inj h).symm⟩
  | false =>
    have hmeets := meets_stepBoundary (s := s.deliver)
    rw [← step_of_running hc, h] at hmeets
    exact .inr hmeets

end Step

/-! ### The MSR and SRR1 of an entry (60_exceptions.md R158, R161, R169) -/

/-- An entry goes to supervisor level, with interrupts off and not recoverable. -/
theorem newMsr_cleared (p : Params) (T : ExcType) (m : Word) :
    msrPR (newMsr p T m) = false ∧ msrEE (newMsr p T m) = false ∧ msrRI (newMsr p T m) = false := by
  unfold newMsr
  split <;> split <;> simp [msrPR, msrEE, msrRI, msrReserved, BitVec.getMsbD]

/-- ME is kept by every entry but a machine check's that clears it. -/
theorem msrME_newMsr_machineCheck (p : Params) (m : Word) (h : msrME m = true) :
    msrME (newMsr p .machineCheck m) = !p.mcClearsMe := by
  have hdefined := congrArg msrME (newMsr_defined p .machineCheck m)
  have hle : msrME (if msrILE m then 0x00000001 else 0) = false := by split <;> rfl
  have hm : m.getMsbD 19 = true := h
  simp only [msrME, BitVec.getMsbD_and, BitVec.getMsbD_or] at hdefined hle ⊢
  rw [hle, hm] at hdefined
  cases hc : p.mcClearsMe <;> simpa [hc, BitVec.getMsbD] using hdefined

theorem savedStatus_extra (p : Params) (m info draw : Word) :
    savedStatus p m info draw &&& (p.srr1ExtraMask &&& 0x87C0008C) = m &&& (p.srr1ExtraMask &&& 0x87C0008C) := by
  have hextra (k : Word) (h : k &&& unassignedMask = 0) : k &&& (p.srr1ExtraMask &&& unassignedMask) = 0 := by
    rw [BitVec.and_comm p.srr1ExtraMask, ← BitVec.and_assoc, h]
    exact BitVec.zero_and
  change savedStatus p m info draw &&& (p.srr1ExtraMask &&& unassignedMask) = _
  simp only [savedStatus, BitVec.and_or_distrib_right]
  have hfree (k : Word) : unassignedMask &&& ~~~k &&& k = 0 := by
    rw [BitVec.and_assoc, BitVec.and_comm (~~~_)]
    simp
  rw [and_mask_eq_zero info _ _ (hextra infoMask (by decide)), and_mask_eq_zero m _ _ (hextra msrSaved (by decide)),
    and_mask_eq_zero draw _ _ (hfree _), BitVec.and_assoc, BitVec.and_self]
  exact BitVec.or_zero.trans BitVec.zero_or

theorem srr1_recoverable (s : State) (T : ExcType) (a info : Word) (corrupt : Bool) :
    (s.takeException T a info corrupt).srr1.getMsbD 30 = (msrRI s.msr && !corrupt) := by
  cases corrupt with
  | true => simp [State.takeException, BitVec.getMsbD]
  | false =>
    have hsaved := congrArg msrRI (savedStatus_saved s.params s.msr info (s.drawn 0))
    simp only [msrRI, BitVec.getMsbD_and] at hsaved
    simpa [msrRI] using hsaved

end Sys2Proof.Machine

/-! SUPPORT. The remaining operations the statements on exceptions speak of: a machine check condition, word accesses
that cannot be made, and what follows an instruction that completes. -/

namespace Sys2Proof.Machine

/-! ### Vector addresses (60_exceptions.md R130) -/

theorem vectorAddress_machineCheck (ip : Bool) :
    vectorAddress ip .machineCheck = if ip then 0xFFF00200 else 0x00000200 := by cases ip <;> rfl

theorem vectorAddress_systemReset (ip : Bool) :
    vectorAddress ip .systemReset = if ip then 0xFFF00100 else 0x00000100 := by cases ip <;> rfl

theorem vectorAddress_external (ip : Bool) :
    vectorAddress ip .external = if ip then 0xFFF00500 else 0x00000500 := by cases ip <;> rfl

/-! ### A machine check condition (60_exceptions.md R154, R169, R170) -/

section MachineCheck

variable {s : State}

theorem machineCheck_enters (h : msrME s.msr = true) (c : Bool) :
    s.machineCheck c = (s.skip 2).takeException .machineCheck (s.drawn 0) (s.drawn 1) c := if_pos h

theorem machineCheck_stops (h : msrME s.msr = false) (c : Bool) : s.machineCheck c = { s with checkstop := true } :=
  if_neg (Bool.eq_false_iff.mp h)

theorem machineCheck_took (s : State) (c : Bool) : TookMachineCheck s (s.machineCheck c) where
  msr h := by rw [machineCheck_enters h]; rfl
  pc h := by rw [machineCheck_enters h]; exact vectorAddress_machineCheck _
  saved h := by rw [machineCheck_enters h]; exact takeException_srr1_saved (s.skip 2) _ _ _ c
  frame h := by rw [machineCheck_enters h]; rfl
  stops h := by rw [machineCheck_stops h]

/-- Without `corrupt` it is an exception like any other, with a free SRR0 and free information. -/
theorem machineCheck_took_exception (h : msrME s.msr = true) :
    ∃ a info, TookException s (s.machineCheck false) .machineCheck a info := by
  rw [machineCheck_enters h]
  exact ⟨_, _, (takeException_took (s.skip 2) .machineCheck (s.drawn 0) (s.drawn 1)).of_draws⟩

/-- What the exception leaves besides: the conditions that pend, ME, and SRR1[30] where the state is corrupted. -/
theorem machineCheck_of_enabled (h : msrME s.msr = true) (c : Bool) :
    (s.machineCheck c).mcheckPending = s.mcheckPending ∧ msrME (s.machineCheck c).msr = !s.params.mcClearsMe ∧
      (s.machineCheck c).checkstop = s.checkstop ∧ (c = true → (s.machineCheck c).srr1.getMsbD 30 = false) := by
  rw [machineCheck_enters h]
  refine ⟨takeException_mcheckPending .., msrME_newMsr_machineCheck _ _ h, takeException_checkstop .., ?_⟩
  rintro rfl
  rw [srr1_recoverable, Bool.not_true, Bool.and_false]

end MachineCheck

/-! ### Word accesses that cannot be made (60_exceptions.md R132, R133; 43_reservation_and_external_control.md) -/

section WordAccess

variable {s t : State} {ea : Word} {f : AccessFault}

theorem TookAccessFault.of_draws {n d : Nat} (h : TookAccessFault { s with draws := d } t f ea n) :
    TookAccessFault s t f ea n := by
  cases f with
  | storage cause => exact TookAccessException.of_draws h
  | machineCheck =>
    have hmc : TookMachineCheck { s with draws := d } t := h
    exact (⟨hmc.msr, hmc.pc, hmc.saved, hmc.frame, hmc.stops⟩ : TookMachineCheck s t)

/-- The word cannot be accessed, and the outcome is the exception that this raises. -/
def FaultsOnWord (s : State) (f : AccessFault) (ea : Word) (o : Host.Outcome State Fault Refusal) : Prop :=
  ∃ t, o = .next t ∧ TookAccessFault s t f ea 4

theorem faultsOnWord_accessException (s : State) (f : AccessFault) (ea : Word) :
    FaultsOnWord s f ea (.next (s.accessException f ea 4)) :=
  ⟨_, rfl, accessException_took s f ea 4 (by decide) (by decide)⟩

theorem loadReserved_faults (m w : Word) (rd : Reg) (hm : ea.toNat % 4 = 0) (h : s.physBytes .load ea 4 = .error f) :
    FaultsOnWord s f ea (s.loadReserved m w rd ea) := by
  rw [State.loadReserved, if_neg fun hmis => (misaligned_iff ea).mp hmis hm, readWord_eq_map, h]
  exact faultsOnWord_accessException s f ea

theorem storeConditional_faults (m w : Word) (rs : Reg) (h : s.physBytes .store ea 4 = .error f) :
    FaultsOnWord s f ea (s.storeConditional m w rs ea true) := by
  rw [State.storeConditional, if_pos rfl, State.writeWord, writeBytes_eq_map, bytesOfWord_length, h]
  exact faultsOnWord_accessException s f ea

/-- A reservation at the physical address of the word makes `stwcx.` store (43 R111). -/
theorem conditionalStores_of_physical (hres : s.reservation ≠ none)
    (hown : s.reservation = s.physicalAddress .store ea) : s.conditionalStores ea = true := by
  unfold State.conditionalStores
  split
  · next hnone => exact absurd hnone hres
  · next a hsome => exact if_pos (hown.symm.trans hsome)

theorem externalControl_faults {w : Word} {k : AccessKind} {act : State → Word → State}
    (hnop : wordIn s.params.optionalNop w = false) (habsent : wordIn s.params.optionalAbsent w = false)
    (hear : s.ear.getMsbD 0 = true) (hp : s.performs (s.elementaryCauses ea))
    (h : s.physBytes k ea 4 = .error f) : FaultsOnWord s f ea (s.externalControl w k ea act) := by
  rw [State.externalControl, hnop, habsent, State.externalEnabled, hear]
  change FaultsOnWord s f ea (s.withAlignment _ k ea 4 4 _)
  rw [withAlignment_performs s _ _ _ _ _ _ hp, h]
  exact faultsOnWord_accessException s f ea

end WordAccess

/-! ### Completion and the trace exception (60_exceptions.md R147) -/

/-- An entry overwrites the pc, so where it went before is not part of what the entry is said to leave. -/
theorem TookException.of_pc {s t : State} {T : ExcType} {a info p : Word}
    (h : TookException { s with pc := p } t T a info) : TookException s t T a info :=
  ⟨h.srr0, h.info, h.saved, h.msr, h.reserved, h.pc, h.frame⟩

theorem traced_of_singleStep {s : State} {w : Word} (htrace : s.params.trace = true) (hse : msrSE s.msr = true)
    (hexempt : ¬wordIn s.params.traceExempt w = true) : s.traced w = true := by
  simp [State.traced, htrace, hse, hexempt]

theorem traced_of_branch {s : State} {w : Word} (htrace : s.params.trace = true) (hbe : msrBE s.msr = true)
    (hbranch : isBranch w = true) : s.traced w = true := by
  simp [State.traced, htrace, hbe, hbranch]

/-- An instruction that has done its work in `u` advances, and the trace exception follows. -/
theorem advance_retire_traced {s u : State} {w : Word} (h : s.traced w = true) (hparams : u.params = s.params) :
    TookException u (u.advance.retire s.msr w) .trace (u.pc + 4) 0 :=
  ((retire_retired s u.advance w hparams).traced h).of_pc

/-! ### The branch class (44_floating_point_class.md R127) -/

/-- The opcodes of the branch class are in no row and not in the floating-point class. -/
theorem decodeWord_of_isBranch {w : Word} (h : isBranch w = true) :
    decodeWord w = .error .noRow ∧ isFloatingPoint w = false := by
  simp only [isBranch, Bool.or_eq_true, Bool.and_eq_true, beq_iff_eq] at h
  rcases h with (hop | hop) | ⟨hop, hxo | hxo⟩ <;>
    simp [decodeWord, isFloatingPoint, isDisplacedFpAccess, isIndexedFpAccess, *]

theorem execUnlisted_branch {s : State} {w : Word} (habsent : wordIn s.params.optionalAbsent w = false)
    (hnop : wordIn s.params.optionalNop w = false) (hprivileged : (wordIn s.params.privileged w && msrPR s.msr) = false)
    (hfp : isFloatingPoint w = false) (hbranch : isBranch w = true) : s.execUnlisted w = s.execBranch w := by
  rw [State.execUnlisted, habsent, hprivileged, hfp, hnop, hbranch]
  rfl

end Sys2Proof.Machine

namespace Sys2Proof.Proofs

open Sys2Proof.Machine

/-- Settles O22: a next state is the end of some work at user level, which keeps the supervisor registers (`Work.user`),
or the state of an exception after that work (`EnteredVector`), or that of the decrementer exception at the boundary. -/
theorem userLevelIsLeftOnlyThroughAVector : Obligations.UserLevelIsLeftOnlyThroughAVector := by
  intro s t hpr h
  rcases step_next h with ⟨u, hwork, hend⟩ | ⟨-, ht⟩
  · have k := hwork.user hpr
    have hparams := hwork.params
    rcases hend with rfl | ⟨T, _, _, _, _, _, hmember, hfault, rfl⟩
    · exact ⟨k.sprg, k.sdr1, k.tbl, k.tbu, k.pvr, k.bat, k.ear, k.dec, k.implSprs, hparams,
        .inl ⟨k.msr, k.dar, k.dsisr, k.decPending, k.saved⟩⟩
    · rw [hparams] at hmember
      rw [k.dar, k.dsisr] at hfault
      refine ⟨k.sprg, k.sdr1, k.tbl, k.tbu, k.pvr, k.bat, k.ear, k.dec, k.implSprs, hparams,
        .inr ⟨T, ?_, ?_, (newMsr_cleared _ _ _).1, hmember, hfault⟩⟩
      · rw [← hparams, ← k.msr]
      · rw [← k.msr]
  · obtain ⟨T, _, _, _, _, _, hmember, hfault, rfl⟩ : EnteredVector { s.deliver with decPending := false } t :=
      ht ▸ enteredVector_takeException _ .decrementer _ _ _ nofun
    exact ⟨rfl, rfl, rfl, rfl, rfl, rfl, rfl, rfl, fun _ _ => rfl, rfl,
      .inr ⟨T, rfl, rfl, (newMsr_cleared _ _ _).1, hmember, hfault⟩⟩

/-- Settles O8: each outcome of the translated bytes is one equation of `State.fetch`. -/
theorem fetchOutcomes : Obligations.FetchOutcomes := by
  intro s hc hb hp
  rw [step_fetches hc hb hp]
  cases hphys : s.deliver.physBytes .fetch s.deliver.pc 4 with
  | error f =>
    cases f with
    | machineCheck => exact ⟨_, fetchAndRun_of_error (fetch_of_machineCheck hphys), accessMachineCheck_took _⟩
    | storage c =>
      have htook := takeException_took s.deliver .isi s.deliver.pc (c &&& isiMask)
      rw [BitVec.and_assoc] at htook
      exact ⟨_, fetchAndRun_of_error (fetch_of_storage hphys), htook⟩
  | ok as =>
    exact ⟨fun hstored => fetchAndRun_of_error (fetch_of_stored hphys hstored),
      fun hunstored => fetchAndRun_of_ok (fetch_of_unstored hphys hunstored)⟩

/-- Settles O9: besides checkstop a fault is that of the word fetched (`step_fault`), an `rfi` or an `mfspr`. -/
theorem stepFaultsOnlyInCheckstopOrOnUndefinedSrr : Obligations.StepFaultsOnlyInCheckstopOrOnUndefinedSrr := by
  refine fun s => ⟨⟨fun h => ?_, step_of_checkstop⟩, fun h => ?_⟩
  · rcases step_fault h with ⟨hc, -⟩ | ⟨w, -, i, -, hr, -⟩
    · exact hc
    · cases hr
  · rcases step_fault h with ⟨-, hr⟩ | ⟨w, hfetch, i, rfl, -, hpr, hvolatile, hread⟩
    · cases hr
    · obtain ⟨_, _, _, _, _, e⟩ := afterFetch_eq s.deliver
      rw [e] at hpr hvolatile
      refine ⟨hpr, deliver_params s ▸ hvolatile, encode i, hfetch, ?_⟩
      rcases hread with ⟨rfl, hu⟩ | ⟨rd, rfl, hu⟩ | ⟨rd, rfl, hu⟩
      · exact .inl ⟨rfl, hu⟩
      · exact .inr (.inl ⟨rd, rfl, hu⟩)
      · exact .inr (.inr ⟨rd, rfl, hu⟩)

/-- Settles O13: `takeException_took`, and the SRR1 bits that the implementation copies from the MSR besides. -/
theorem exceptionEntryTransition : Obligations.ExceptionEntryTransition := fun s T a info =>
  ⟨takeException_took s T a info, savedStatus_extra s.params s.msr info _⟩

/-- Settles O14: SRR1[30] is a saved MSR bit, or with `corrupt` the bit that the free value is cleared of. -/
theorem recoverableCopy : Obligations.RecoverableCopy := by
  refine fun s T a info corrupt => ⟨srr1_recoverable s T a info corrupt, (newMsr_cleared _ _ _).2.2, ?_⟩
  rintro rfl
  exact ⟨_, _, rfl, rfl, rfl, rfl⟩

/-- Settles O16: what the boundary comes to with EE = 1 and nothing that ranks higher. -/
theorem enabledInterruptsAreTaken : Obligations.EnabledInterruptsAreTaken := by
  intro s hc hreset hmcheck hee
  refine ⟨fun hext => ?_, fun hext hdec => ?_⟩
  · exact ⟨_, step_of_boundary hc (boundary_of_external hreset hmcheck hee hext),
      takeException_took s.deliver .external s.deliver.pc 0, vectorAddress_external _,
      (takeException_extSignal ..).trans hext⟩
  · exact ⟨_, step_of_boundary hc (boundary_of_decrementer hreset hmcheck hee hext hdec),
      takeException_took { s.deliver with decPending := false } .decrementer s.deliver.pc 0⟩

/-- Settles O17: the environment's events and every instruction keep the bit (`deliver_pending`, `Ends.pending`). -/
theorem decrementerPendsUntilTaken : Obligations.DecrementerPendsUntilTaken := by
  refine ⟨fun s => ?_, fun s t h hpending => ?_⟩
  · rw [State.occur, State.setDec, tick_carries]
  · rcases step_next h with hends | ⟨hee, rfl⟩
    · exact .inl (hends.pending (deliver_pending hpending))
    · exact .inr ⟨hee, rfl, rfl, (newMsr_cleared _ _ _).2.1⟩

/-- Settles O20: ME chooses between the two ends of `State.machineCheck`. -/
theorem machineCheckTakenOrCheckstop : Obligations.MachineCheckTakenOrCheckstop := by
  intro s hc hreset hmcheck b
  have hstep := step_of_boundary hc (boundary_of_machineCheck hreset hmcheck)
  refine ⟨fun hme => ?_, fun hme => ⟨_, rfl, ?_, step_of_checkstop rfl⟩⟩
  · obtain ⟨hpending, hkeptMe, hrunning, hcorrupt⟩ := machineCheck_of_enabled (s := b) hme s.deliver.mcheckCorrupt
    have htook := machineCheck_took b s.deliver.mcheckCorrupt
    refine ⟨_, hstep, htook.pc hme, hpending, hkeptMe, hrunning, htook, fun hc => ?_, hcorrupt⟩
    rw [hc]
    exact machineCheck_took_exception (s := b) hme
  · exact hstep.trans (congrArg _ (machineCheck_stops (s := b) hme _))

/-- Settles O23: an instruction that completes is retired, and the trace exception is due (`advance_retire_traced`). -/
theorem traceFollowsCompletion : Obligations.TraceFollowsCompletion := by
  refine ⟨fun s r ra rb cond spr simm htrace hse => ?_, fun s w hbranch harch habsent hnop hprivileged => ?_,
    rfl, rfl⟩
  · intro exempt
    have htraced (i : Instr) (h : ¬exempt i) : s.traced (encode i) = true := traced_of_singleStep htrace hse h
    refine ⟨fun hpr hex => ?_, fun hpr hr hfp hex => ?_, fun hpr hd hr hfp hex => ?_, fun hpr => ⟨fun q hq hex => ?_,
      fun q hq hdefined hex => ?_⟩, fun hnot hex => ?_, fun hnot hex => ?_⟩
    · exact ⟨_, execMfmsr_reads s r hpr, advance_retire_traced (htraced _ hex) rfl⟩
    · have hcondition : ({ s with msr := s.readGpr r } : State).advance.fpEnabledCondition = false := by
        rw [State.fpEnabledCondition, Bool.and_comm]
        exact hfp
      exact ⟨_, execMtmsr_writes s r hpr hr,
        ((completeFp_retired s ({ s with msr := s.readGpr r } : State).advance s.pc _ rfl hcondition).traced
          (htraced _ hex)).of_pc⟩
    · have hcondition : s.returnFromException.fpEnabledCondition = false := by
        rw [State.fpEnabledCondition, msrFE_returnFromException, Bool.and_comm]
        exact hfp
      exact ⟨_, execRfi_returns s hpr hd hr,
        ((completeFp_retired s s.returnFromException s.pc _ rfl hcondition).traced (htraced _ hex)).of_pc⟩
    · rw [← writeSpr_pc s (s.readGpr r) q]
      exact ⟨_, execMtspr_writes s spr r q hq hpr, advance_retire_traced (htraced _ hex) (writeSpr_params s _ q)⟩
    · refine ⟨_, (execMfspr_readable s spr r q hq hpr).trans ?_, advance_retire_traced (htraced _ hex) rfl⟩
      exact if_neg (Bool.eq_false_iff.mp hdefined)
    · exact ⟨_, rfl, ((trapOn_of_not_met s _ cond _ _ (Bool.eq_false_iff.mp hnot)).traced (htraced _ hex)).of_pc⟩
    · exact ⟨_, rfl, ((trapOn_of_not_met s _ cond _ _ (Bool.eq_false_iff.mp hnot)).traced (htraced _ hex)).of_pc⟩
  · obtain ⟨hrow, hfp⟩ := decodeWord_of_isBranch hbranch
    rw [run_of_noRow s w harch hrow, execUnlisted_branch habsent hnop hprivileged hfp hbranch, State.execBranch]
    cases Config.execBranch w ⟨s.pc, s.cr, s.lr, s.ctr⟩ with
    | none => rfl
    | some e =>
      have hretired := retire_retired s { s with pc := e.target &&& ~~~0x00000003, lr := e.lr, ctr := e.ctr } w rfl
      exact ⟨_, rfl, hretired, fun htrace hbe => hretired.traced (traced_of_branch htrace hbe hbranch)⟩

/-- Settles O29: the condition stands under the MSR just written, so `State.completeFp` takes the exception. -/
theorem enablingFpExceptionsWithFexTraps : Obligations.EnablingFpExceptionsWithFexTraps := by
  refine fun s rs hpr hfex => ⟨fun hr hfe => ?_, fun hd hr hfe => ?_⟩
  · have hcondition : ({ s with msr := s.readGpr rs } : State).advance.fpEnabledCondition = true :=
      Bool.and_eq_true_iff.mpr ⟨hfe, hfex⟩
    refine ⟨_, execMtmsr_writes s rs hpr hr, ?_⟩
    rw [completeFp_program hcondition]
    exact (program_took ({ s with msr := s.readGpr rs } : State).advance .fpEnabled s.pc).of_pc
  · have hcondition : s.returnFromException.fpEnabledCondition = true :=
      Bool.and_eq_true_iff.mpr ⟨(msrFE_returnFromException s).trans hfe, hfex⟩
    refine ⟨_, execRfi_returns s hpr hd hr, ?_⟩
    rw [completeFp_program hcondition]
    exact (program_took s.returnFromException .fpEnabled s.pc).of_pc

/-- Settles O44: each of the four gets as far as its access, which cannot be made. -/
theorem wordAccessesThatFail : Obligations.WordAccessesThatFail := by
  intro s r ra rb f ea hp p hmem hlwarx hstwcx hexternal hphys
  change FaultsOnWord s f ea (exec p.1 s)
  simp only [List.mem_cons, List.not_mem_nil, or_false] at hmem
  rcases hmem with rfl | rfl | rfl | rfl
  · have hexec : exec (.lwarx r ra rb) s = _ := execLwarx_performs s r ra rb hp
    rw [hexec]
    exact loadReserved_faults _ _ r (hlwarx.resolve_left (by simp)) hphys
  · obtain ⟨hres, hown⟩ := hstwcx.resolve_left (by simp)
    have hexec : exec (.stwcx r ra rb) s = _ := execStwcx_performs hp
    have hstores : s.conditionalStores (s.indexedAddress ra rb) = true := conditionalStores_of_physical hres hown
    rw [hstores] at hexec
    obtain ⟨t, hnext, htook⟩ := storeConditional_faults (s := s.skip 1) s.msr (encode (.stwcx r ra rb)) r hphys
    exact ⟨t, hexec.trans hnext, htook.of_draws⟩
  · obtain ⟨hnop, habsent, hear⟩ := hexternal.resolve_left (by simp)
    exact externalControl_faults hnop habsent hear hp hphys
  · obtain ⟨hnop, habsent, hear⟩ := hexternal.resolve_left (by simp)
    exact externalControl_faults hnop habsent hear hp hphys

/-- Settles O58: the work of an instruction that stores nothing leaves memory alone, and so does an exception
(`Ends.memory`). -/
theorem onlyStoresChangeMemory : Obligations.OnlyStoresChangeMemory := by
  intro i s t hstmw hstswi hstswx hstwcx h
  have hnot : ¬StoresMemory i := by
    cases i with
    | stmw r ra d => exact absurd rfl (hstmw r ra d)
    | stswi r ra nb => exact absurd rfl (hstswi r ra nb)
    | stswx r ra rb => exact absurd rfl (hstswx r ra rb)
    | stwcx r ra rb => exact absurd rfl (hstwcx r ra rb)
    | _ => exact id
  have hends := runs_exec i s
  rw [h] at hends
  obtain ⟨hmem, hstored⟩ := Ends.memory hends hnot
  exact ⟨fun a => by rw [hmem], hmem, hstored⟩

/-- Settles O7: the fetch of a word that decodes, then `run_architected`. -/
theorem stepRunsTheDecodedInstruction : Obligations.StepRunsTheDecodedInstruction := by
  intro s as i w hc hb hp hphys hunstored harch hw
  refine ⟨?_, afterFetch_off s.deliver, deliver_of_nil⟩
  have harch' : s.deliver.afterFetch.architected w := by
    obtain ⟨_, _, _, _, _, e⟩ := afterFetch_eq s.deliver
    rw [e]
    exact harch
  rw [step_fetches hc hb hp, fetchAndRun_of_ok (fetch_of_unstored hphys hunstored), run_architected _ _ harch',
    State.runDecoded, hw]

/-- Settles O18: the conditions of `State.boundary` in their order. -/
theorem boundaryExceptionsAreExactlyTheEnabledOnes : Obligations.BoundaryExceptionsAreExactlyTheEnabledOnes :=
  boundary_eq_none_iff

/-- Settles O19: the system reset is the first condition of `State.boundary`. -/
theorem systemResetTakenFirst : Obligations.SystemResetTakenFirst := by
  refine fun s hc hreset => ⟨_, step_of_boundary hc (boundary_of_systemReset hreset), vectorAddress_systemReset _, rfl,
    rfl, rfl, rfl, rfl, rfl, fun hcorrupt => ?_⟩
  rw [hcorrupt]
  exact takeException_took { s.deliver with sresetPending := false, sresetCorrupt := false } .systemReset s.deliver.pc 0

/-- Settles O21: with no exception to take the step is `State.waitForInput`. -/
theorem reducedPowerRunsNoInstruction : Obligations.ReducedPowerRunsNoInstruction := by
  intro s hc hb hpow himplemented
  have hreduced : s.deliver.reducedPower = true := Bool.and_eq_true_iff.mpr ⟨hpow, himplemented⟩
  rw [step_of_reducedPower hc hb hreduced]
  exact ⟨waitForInput_of_nil, waitForInput_of_ne_nil⟩

end Sys2Proof.Proofs

/-! SUPPORT. The power-on state (70_reset_and_hazards.md R200). -/

namespace Sys2Proof.Machine

section PowerOn

variable (p : Params)

@[simp] theorem powerOn_msr : (State.powerOn p).msr = p.resetMsr := rfl
@[simp] theorem powerOn_pc : (State.powerOn p).pc = p.resetPc := rfl
@[simp] theorem powerOn_checkstop : (State.powerOn p).checkstop = false := rfl
@[simp] theorem powerOn_params : (State.powerOn p).params = p := rfl

end PowerOn

theorem reset_msr : State.reset.msr = 0x00000040 := powerOn_msr Params.default

theorem reset_pc : State.reset.pc = 0xFFF00100 := powerOn_pc Params.default

/-- The mode R200 reads off the default `P_RESET_MSR`: supervisor, masked, untranslated, big-endian, no floating
point, vectors under the high prefix. -/
theorem mode_of_default_resetMsr :
    msrPR 0x00000040 = false ∧ msrEE 0x00000040 = false ∧ msrME 0x00000040 = false ∧ msrIR 0x00000040 = false ∧
      msrDR 0x00000040 = false ∧ msrLE 0x00000040 = false ∧ msrFP 0x00000040 = false ∧ msrIP 0x00000040 = true := by
  decide

/-- The default reset entry point is the system reset vector under the prefix that the default MSR selects. -/
theorem reset_pc_eq_vectorAddress : State.reset.pc = vectorAddress (msrIP State.reset.msr) .systemReset := by
  obtain ⟨_, _, _, _, _, _, _, hip⟩ := mode_of_default_resetMsr
  rw [reset_pc, reset_msr, hip, vectorAddress_systemReset, if_pos rfl]

end Sys2Proof.Machine

namespace Sys2Proof.Proofs

open Sys2Proof.Machine

/-- Settles O10: the fields of `State.powerOn`, then the mode bits of the default MSR. -/
theorem resetIsThePowerOnState : Obligations.ResetIsThePowerOnState := by
  refine ⟨fun p => ⟨powerOn_msr p, powerOn_pc p, powerOn_checkstop p, powerOn_params p⟩, rfl, reset_msr, reset_pc,
    powerOn_checkstop _, ?_⟩
  obtain ⟨hpr, hee, hme, hir, hdr, hle, hfp, hip⟩ := mode_of_default_resetMsr
  have hentry := reset_pc_eq_vectorAddress
  rw [reset_msr] at hentry ⊢
  exact ⟨hpr, hee, hme, hir, hdr, hle, hfp, hip, hentry⟩

end Sys2Proof.Proofs

/-! SUPPORT. The decoder and the encoder agree, as one equivalence (30_encoding.md R61, section 3). -/

namespace Sys2Proof

theorem decodeWord_eq_ok_iff (w : Word) (i : Instr) : decodeWord w = .ok i ↔ w = encode i :=
  ⟨eq_encode_of_decodeWord, fun h => h ▸ decodeWord_encode i⟩

end Sys2Proof

namespace Sys2Proof.Proofs

/-- Settles O3: each example word is its instruction's own encoding, its fields laid side by side, so the decoder
gives the instruction back (`decodeWord_eq_ok_iff`). -/
theorem exampleWordsDecode : Obligations.ExampleWordsDecode := by
  unfold Obligations.ExampleWordsDecode
  simp only [decodeWord_eq_ok_iff]
  decide

end Sys2Proof.Proofs
